-- ==== Sys2Proof/Word.lean ====
section
/-! DEFINITION. The word types of LZW-CORE: bytes, 16-bit codes, 32-bit bus words and byte
sequences (00_scope.md R7, R11, R12; 30_encoding.md R70). -/

namespace Sys2Proof

/-- A byte, 8 bits (R7, R12; format `BYTE8`, R72). -/
abbrev Byte := BitVec 8

/-- A code, 16 bits (`CODE_WIDTH`, R7; format `CODE16`, R71). -/
abbrev Code := BitVec 16

/-- The 32-bit value of a register access (format `CMD32`, R73; R150, R151). -/
abbrev Word := BitVec 32

/-- A byte sequence: a finite list of bytes of any length (R12, R23). -/
abbrev Bytes := List Byte

end Sys2Proof
end

