-- ==== Sys2Proof/Config.lean ====
section
/-! DEFINITION. What an instance of LZW-CORE fixes (00_scope.md R7, R9) and the free values: the
values the spec calls unspecified (93_implementation_defined.md U3, U6, U10), as constants
without a body, so that no proof can depend on what they are. -/

namespace Sys2Proof

/-- The parameters the spec leaves open (R9): the capacities in bytes of the input and the output
buffer, each a number or unbounded (`none`). They stand in `State` as plain data that no step
changes, so that a statement about every state is a statement about every instance (log 2). -/
structure Params where
  ibufCap : Option Nat
  obufCap : Option Nat
deriving DecidableEq, Repr

/-- Unbounded buffers, for which "every rule is written" (R9). -/
def Params.unbounded : Params := ⟨none, none⟩

namespace Config

/-- `SEED_SIZE` (R7). -/
abbrev seedSize : Nat := 256

/-- `MAX_CODES = 2^CODE_WIDTH` (R7). -/
abbrev maxCodes : Nat := 65536

/-- `LEN_WIDTH`: 32, the default (R9, U18; log 3). -/
abbrev lenWidth : Nat := 32

/-- The reset value of `MAXSIZE` (R25, R40). -/
abbrev defaultMaxsize : Nat := 4096

/-- FREE VALUE (U10, R197): byte `off` of `IBUF` while nothing has written it since reset number
`resets`. -/
opaque freeIbuf (resets off : Nat) : Byte

/-- FREE VALUE (U6, U10): byte `off` of `OBUF` where its content is unspecified; it may change
whenever `epoch` does, that is at every end of a run and at every reset. -/
opaque freeObuf (epoch off : Nat) : Byte

/-- FREE VALUE (U3): what a register read other than `STATUS` returns while `STATE = BUSY`; `n`
counts such reads. -/
opaque freeBusyWord (n : Nat) : Word

/-- FREE VALUE (U3): byte number `i` of what a buffer read returns while `STATE = BUSY`; `n` counts
such reads. -/
opaque freeBusyByte (n i : Nat) : Byte

end Config

end Sys2Proof
end

