-- ==== Sys2Proof/Machine/Dict.lean ====
section
/-! DEFINITION. The dictionary as data: an ordered list of byte sequences indexed by code
(10_state.md R31), its seed (40_bootstrap.md R90, R92) and its lookup (00_scope.md R15). -/

namespace Sys2Proof.Machine

/-- `find(s)`: the least index whose entry is `x`, or `none` (R15, D28). -/
def find : List Bytes → Bytes → Option Nat
  | [], _ => none
  | e :: es, x => if e = x then some 0 else (find es x).map (· + 1)

/-- The 256 single-byte entries, entry `i` the one byte `i` (R90, R92). -/
def seedEntries : List Bytes :=
  (List.range Config.seedSize).map fun i => [BitVec.ofNat 8 i]

/-- `ENT[DLEN] <- x ; DLEN <- DLEN + 1`, done only while `DLEN < MAXSIZE` (R33, R34). -/
def insertBelow (maxsize : Nat) (ent : List Bytes) (x : Bytes) : List Bytes :=
  if ent.length < maxsize then ent ++ [x] else ent

end Sys2Proof.Machine
end

