-- ==== Sys2Proof/Syntax.lean ====
section
/-! DEFINITION. The operations of LZW-CORE: one constructor of `Instr` per row of
spec/opcode_table.json, and the host operations a host script is made of
(30_encoding.md R82, R83). -/

namespace Sys2Proof

/-- The host registers by name (10_state.md R30). -/
inductive HostReg where
  | cmd | status | maxsize | ilen | olen
deriving DecidableEq, Repr

/-- The number of a host register (R30). "A register is written by its name or by its number" (R82). -/
def HostReg.num : HostReg → Nat
  | .cmd => 0
  | .status => 1
  | .maxsize => 2
  | .ilen => 3
  | .olen => 4

/-- The forms of a host write to `IBUF` (44_host_interface.md R152): the form `LDIN bs` of the
scripts, and the single byte the host may also write at any offset. -/
inductive LdinForm where
  | block (bs : Bytes)
  | byteAt (off : Nat) (b : Byte)
deriving DecidableEq, Repr

/-- The forms of a host buffer read (R152): `RDOUT n`; `RDOUT OLEN`, whose length is the value of
the register `OLEN` (R83); and the single bytes of `OBUF` and `IBUF` the host may also read. -/
inductive RdoutForm where
  | block (n : Nat)
  | olen
  | outByte (off : Nat)
  | inByte (off : Nat)
deriving DecidableEq, Repr

/-- One line of a host script (R82, R83). -/
inductive HostOp where
  | rd (r : Nat)
  | wr (r : Nat) (v : Word)
  | ldin (f : LdinForm)
  | rdout (f : RdoutForm)
  | wait
  | encodeB (b : Bytes)
  | decodeB (b : Bytes)
deriving DecidableEq, Repr

/-- The operations, one constructor per row of spec/opcode_table.json, in the table's order. -/
inductive Instr where
  /-- `ENCODE` (R153). -/
  | encode
  /-- `DECODE` (R154). -/
  | decode
  /-- `CMD.RESERVED`: any other command word (R155). -/
  | cmdReserved (v : Word)
  /-- `DEC.FIRST` (R132). -/
  | decFirst (c : Code)
  /-- `DEC.BADFIRST` (R133). -/
  | decBadfirst (c : Code)
  /-- `DEC.KNOWN` (R135). -/
  | decKnown (c : Code)
  /-- `DEC.NEXT` (R136). -/
  | decNext (c : Code)
  /-- `DEC.BAD` (R138). -/
  | decBad (c : Code)
  /-- `ENC.EXTEND` (R112). -/
  | encExtend (k : Byte)
  /-- `ENC.EMIT.INS` (R113). -/
  | encEmitIns (k : Byte)
  /-- `ENC.EMIT.FRZ` (R114). -/
  | encEmitFrz (k : Byte)
  /-- `ENC.INIT` (R110). -/
  | encInit
  /-- `ENC.FLUSH` (R115). -/
  | encFlush
  /-- `ENC.END0` (R116). -/
  | encEnd0
  /-- `ENC.FAULT` (R117). -/
  | encFault
  /-- `DEC.INIT` (R130). -/
  | decInit
  /-- `DEC.TAIL(entry)` (R137). -/
  | decTail (entry : Bytes)
  /-- `DEC.END` (R139). -/
  | decEnd
  /-- `SEED` (R90). -/
  | seed
  /-- `PUT16 c` (R100). -/
  | put16 (c : Code)
  /-- `GET16` (R101). -/
  | get16
  /-- `RD r` (R150). -/
  | rd (r : Nat)
  /-- `WR r, v` (R151). -/
  | wr (r : Nat) (v : Word)
  /-- `LDIN` (R152). -/
  | ldin (f : LdinForm)
  /-- `RDOUT` (R152). -/
  | rdout (f : RdoutForm)
  /-- `WAIT` (R157). -/
  | wait
  /-- `encode(b)` (R83). -/
  | encodeB (b : Bytes)
  /-- `decode(b)` (R83). -/
  | decodeB (b : Bytes)
deriving DecidableEq, Repr

/-- The formats of R70, and `none` for the rows that have no bit encoding. -/
inductive Format where
  | cmd32 | code16 | byte8 | none
deriving DecidableEq, Repr

/-- The column "format" of spec/opcode_table.json. -/
def Instr.format : Instr → Format
  | .encode => .cmd32
  | .decode => .cmd32
  | .cmdReserved _ => .cmd32
  | .decFirst _ => .code16
  | .decBadfirst _ => .code16
  | .decKnown _ => .code16
  | .decNext _ => .code16
  | .decBad _ => .code16
  | .encExtend _ => .byte8
  | .encEmitIns _ => .byte8
  | .encEmitFrz _ => .byte8
  | .encInit => .none
  | .encFlush => .none
  | .encEnd0 => .none
  | .encFault => .none
  | .decInit => .none
  | .decTail _ => .none
  | .decEnd => .none
  | .seed => .none
  | .put16 _ => .none
  | .get16 => .none
  | .rd _ => .none
  | .wr _ _ => .none
  | .ldin _ => .none
  | .rdout _ => .none
  | .wait => .none
  | .encodeB _ => .none
  | .decodeB _ => .none

end Sys2Proof
end

