-- ==== Sys2Proof/WellFormed.lean ====
section
/-! DEFINITION. Which operands an operation admits, as far as the operation alone says it. What
depends on the state (the phase, the capacities) is checked by the meanings. -/

namespace Sys2Proof

/-- `RD r` and `WR r, v`: register numbers 0 to 4; 5 and up are reserved (R30, R150, R151). -/
def regOk (r : Nat) : Bool := decide (r ≤ 4)

/-- `WR 2, v`: `v[31:17]` must be 0 (R25, R151). -/
def maxsizeOk (v : Word) : Bool := decide (v.toNat < 2 ^ 17)

/-- A byte sequence whose length a 32-bit length register can hold (R9, U18). -/
def lengthOk (bs : Bytes) : Bool := decide (bs.length < 2 ^ Config.lenWidth)

/-- The operands the operation's own row admits. -/
def Instr.wf : Instr → Bool
  | .encode => true
  | .decode => true
  | .cmdReserved v => decide (v ≠ 1 ∧ v ≠ 2)
  | .decFirst c => decide (c.toNat < Config.seedSize)
  | .decBadfirst c => decide (Config.seedSize ≤ c.toNat)
  | .decKnown _ => true
  | .decNext _ => true
  | .decBad _ => true
  | .encExtend _ => true
  | .encEmitIns _ => true
  | .encEmitFrz _ => true
  | .encInit => true
  | .encFlush => true
  | .encEnd0 => true
  | .encFault => true
  | .decInit => true
  | .decTail entry => !entry.isEmpty
  | .decEnd => true
  | .seed => true
  | .put16 _ => true
  | .get16 => true
  | .rd r => regOk r
  | .wr r v => regOk r && (r != 2 || maxsizeOk v)
  | .ldin _ => true
  | .rdout _ => true
  | .wait => true
  | .encodeB b => lengthOk b
  | .decodeB b => lengthOk b

end Sys2Proof
end

