-- ==== Sys2Proof/Decode.lean ====
section
/-! DEFINITION. The three kinds of word LZW-CORE decodes (30_encoding.md R70): the command word
(R78), the code, classed against the dictionary length (R75, R76), and the raw byte, classed by
the dictionary (42_encoder.md R111). Then the encoder, from the same tables. -/

namespace Sys2Proof

/-- The code two stream bytes form: `256 * b0 + b1` (R74, R101). -/
def codeOfBytes (b0 b1 : Byte) : Code := BitVec.ofNat 16 (256 * b0.toNat + b1.toNat)

/-- `c[15:8]` = `c div 256`, the byte at the lower offset (R52, R74). -/
def codeHi (c : Code) : Byte := BitVec.ofNat 8 (c.toNat / 256)

/-- `c[7:0]` = `c mod 256`, the byte at the next offset (R52, R74). -/
def codeLo (c : Code) : Byte := BitVec.ofNat 8 (c.toNat % 256)

/-- The two bytes of a code in stream order, most-significant first (R52, R71). -/
def codeBytes (c : Code) : Bytes := [codeHi c, codeLo c]

/-- A word as it reaches the unit that decodes it (R70): a value written to `CMD`, the two bytes of
a code in stream order, or one raw byte. -/
inductive Encoded where
  | cmd32 (v : Word)
  | code16 (b0 b1 : Byte)
  | byte8 (b : Byte)
deriving DecidableEq, Repr

/-- Which unit decodes, and the state it decodes against: the host interface; the decoder at the
first position (R76) or at a later one (R75), with `DLEN`; the encoder with its dictionary, match
and `MAXSIZE` (R111). -/
inductive Ctx where
  | cmd
  | firstCode (dlen : Nat)
  | laterCode (dlen : Nat)
  | raw (ent : List Bytes) (w : Bytes) (maxsize : Nat)
deriving DecidableEq, Repr

/-- Why a word or a byte string is not decoded. -/
inductive DecodeError where
  /-- The word is not of the format the unit decodes. -/
  | wrongFormat
  /-- Fewer bytes than the format has. -/
  | truncated
  /-- A command word reaches `CMD` as a register write; the spec gives it no byte form (R151). -/
  | noByteForm
deriving DecidableEq, Repr

/-- R78: `0x00000001` is `ENCODE`, `0x00000002` is `DECODE`, every other value is reserved. -/
def decodeCmd (v : Word) : Instr :=
  if v = 1 then .encode else if v = 2 then .decode else .cmdReserved v

/-- R76, R131 (`PHASE = DEC0`): legal when it indexes an existing entry. -/
def decodeFirstCode (dlen : Nat) (c : Code) : Instr :=
  if c.toNat < dlen then .decFirst c else .decBadfirst c

/-- R75, R131 (`PHASE = DEC`): classes `KNOWN`, `NEXT`, `BAD`. -/
def decodeLaterCode (dlen : Nat) (c : Code) : Instr :=
  if c.toNat < dlen then .decKnown c
  else if c.toNat = dlen then .decNext c
  else .decBad c

/-- R111, the rows with `IPTR < ILEN`. -/
def decodeRaw (ent : List Bytes) (w : Bytes) (maxsize : Nat) (k : Byte) : Instr :=
  if (Machine.find ent (w ++ [k])).isSome then .encExtend k
  else if (Machine.find ent w).isNone then .encFault
  else if ent.length < maxsize then .encEmitIns k
  else .encEmitFrz k

/-- The decoder on one word: total, rejecting by name. -/
def decode : Ctx → Encoded → Except DecodeError Instr
  | .cmd, .cmd32 v => .ok (decodeCmd v)
  | .firstCode d, .code16 b0 b1 => .ok (decodeFirstCode d (codeOfBytes b0 b1))
  | .laterCode d, .code16 b0 b1 => .ok (decodeLaterCode d (codeOfBytes b0 b1))
  | .raw ent w m, .byte8 b => .ok (decodeRaw ent w m b)
  | .cmd, .code16 _ _ => .error .wrongFormat
  | .cmd, .byte8 _ => .error .wrongFormat
  | .firstCode _, .cmd32 _ => .error .wrongFormat
  | .firstCode _, .byte8 _ => .error .wrongFormat
  | .laterCode _, .cmd32 _ => .error .wrongFormat
  | .laterCode _, .byte8 _ => .error .wrongFormat
  | .raw _ _ _, .cmd32 _ => .error .wrongFormat
  | .raw _ _ _, .code16 _ _ => .error .wrongFormat

/-- The decoder on any bytes of a stream: the operation and the bytes that follow. -/
def decodeBytes (ctx : Ctx) (bs : Bytes) : Except DecodeError (Instr × Bytes) :=
  match ctx, bs with
  | .cmd, _ => .error .noByteForm
  | .firstCode d, b0 :: b1 :: rest => .ok (decodeFirstCode d (codeOfBytes b0 b1), rest)
  | .laterCode d, b0 :: b1 :: rest => .ok (decodeLaterCode d (codeOfBytes b0 b1), rest)
  | .raw ent w m, b :: rest => .ok (decodeRaw ent w m b, rest)
  | .firstCode _, _ => .error .truncated
  | .laterCode _, _ => .error .truncated
  | .raw _ _ _, [] => .error .truncated

/-- One line of a host script as the operation the block runs: a write to register 0 is decoded as
a command word (R151), every other line is the operation of its own row. A reserved word written while
`STATE = BUSY` has no meaning under U2 and under U7; as `CMD.RESERVED` and as `WR 0` alike it is then
refused as a write while busy (log 14). -/
def decodeHostOp : HostOp → Instr
  | .rd r => .rd r
  | .wr r v => if r = 0 then decodeCmd v else .wr r v
  | .ldin f => .ldin f
  | .rdout f => .rdout f
  | .wait => .wait
  | .encodeB b => .encodeB b
  | .decodeB b => .decodeB b

/-- The encoder: the word of an operation that has one (R71, R72, R78). -/
def encode : Instr → Option Encoded
  | .encode => some (.cmd32 1)
  | .decode => some (.cmd32 2)
  | .cmdReserved v => some (.cmd32 v)
  | .decFirst c => some (.code16 (codeHi c) (codeLo c))
  | .decBadfirst c => some (.code16 (codeHi c) (codeLo c))
  | .decKnown c => some (.code16 (codeHi c) (codeLo c))
  | .decNext c => some (.code16 (codeHi c) (codeLo c))
  | .decBad c => some (.code16 (codeHi c) (codeLo c))
  | .encExtend k => some (.byte8 k)
  | .encEmitIns k => some (.byte8 k)
  | .encEmitFrz k => some (.byte8 k)
  | .encInit => none
  | .encFlush => none
  | .encEnd0 => none
  | .encFault => none
  | .decInit => none
  | .decTail _ => none
  | .decEnd => none
  | .seed => none
  | .put16 _ => none
  | .get16 => none
  | .rd _ => none
  | .wr _ _ => none
  | .ldin _ => none
  | .rdout _ => none
  | .wait => none
  | .encodeB _ => none
  | .decodeB _ => none

/-- The format of an encoded word (R70). -/
def Encoded.format : Encoded → Format
  | .cmd32 _ => .cmd32
  | .code16 _ _ => .code16
  | .byte8 _ => .byte8

/-- The columns "condition" and "encoding" of spec/opcode_table.json: the context `ctx` is one in
which the row's word stands for the row's operation. -/
def Ctx.fits : Ctx → Instr → Bool
  | .cmd, .encode => true
  | .cmd, .decode => true
  | .cmd, .cmdReserved _ => true
  | .firstCode d, .decFirst c => decide (c.toNat < d)
  | .firstCode d, .decBadfirst c => decide (d ≤ c.toNat)
  | .laterCode d, .decKnown c => decide (c.toNat < d)
  | .laterCode d, .decNext c => decide (c.toNat = d)
  | .laterCode d, .decBad c => decide (d < c.toNat)
  | .raw ent w _, .encExtend k => (Machine.find ent (w ++ [k])).isSome
  | .raw ent w m, .encEmitIns k =>
    (Machine.find ent (w ++ [k])).isNone && (Machine.find ent w).isSome && decide (ent.length < m)
  | .raw ent w m, .encEmitFrz k =>
    (Machine.find ent (w ++ [k])).isNone && (Machine.find ent w).isSome && decide (m ≤ ent.length)
  | _, _ => false

/-- The operation the decoder reads from a word numbered as spec/opcode_table.json numbers it, as
the first word the unit meets: a 32-bit word is a command; a 16-bit word is the first code of a
stream, its two bytes laid out most-significant first; an 8-bit word is the first byte of a raw
stream, read against the seeded dictionary with an empty match (log 6). -/
def decodeTableWord (nbits w : Nat) : Option Instr :=
  if nbits = 32 then
    (decode .cmd (.cmd32 (BitVec.ofNat 32 w))).toOption
  else if nbits = 16 then
    (decode (.firstCode Config.seedSize)
      (.code16 (codeHi (BitVec.ofNat 16 w)) (codeLo (BitVec.ofNat 16 w)))).toOption
  else if nbits = 8 then
    (decode (.raw Machine.seedEntries [] Config.defaultMaxsize)
      (.byte8 (BitVec.ofNat 8 w))).toOption
  else none

end Sys2Proof
end

