-- ==== Sys2Proof/Machine/State.lean ====
section
/-! DEFINITION. The state of one LZW-CORE instance as plain data (10_state.md R20), the model's own
input and record fields beside it, the reasons a step can stop, and the state after reset
(R40, 70_reset_and_hazards.md R190). -/

namespace Sys2Proof.Machine

/-- The six values of `PHASE` (R24). -/
inductive Phase where
  | idle | enc | dec0 | dec | done | fail
deriving DecidableEq, Repr

/-- The values of `STATUS.ERR` that are ever produced (R29, R170). -/
inductive ErrKind where
  | none | compression | decompression
deriving DecidableEq, Repr

/-- The values of `STATUS.CAUSE` that are ever produced, under the names of R171. -/
inductive Cause where
  | none | encLookupMiss | decEmpty | decOddLength | decBadFirstCode | decBadCode
deriving DecidableEq, Repr

/-- The two byte buffers, as address spaces (20_memory.md R50). -/
inductive Space where
  | ibuf | obuf
deriving DecidableEq, Repr

/-- A byte buffer: the bytes written so far, by offset. Canonical form (`Memory.wf`): offsets
strictly rising. An offset that is not listed has no value here; what a read of one returns is a
free value, chosen in `Ops.lean` (log 4). -/
abbrev Memory := List Host.Cell

/-- What a host operation returned (44_host_interface.md R150, R152). -/
inductive Reply where
  /-- `RD r` returned `v`. -/
  | word (r : Nat) (v : Word)
  /-- `RDOUT` returned these bytes. -/
  | bytes (bs : Bytes)
deriving DecidableEq, Repr

/-- Whose move is next (R4): one of the two agents, or the outside world's reset (R190). -/
inductive Turn where
  | host | sequencer | reset
deriving DecidableEq, Repr

/-- Why the machine stops with a fault. The run's own errors (R170) are not here: they are a next
state in phase `fail` (R180). -/
inductive Fault where
  /-- Raised by `LDIN` and `RDOUT` when the host names an offset at or above the buffer's capacity:
  the offset does not exist (R50, R152). Safe: the model stops where the spec gives no effect. -/
  | noSuchOffset (space : Space) (off : Nat)
deriving DecidableEq, Repr

/-- Why the machine refuses a step. Every constructor but the first stands for a situation that
the spec gives no meaning; each is safe: the model stops where the spec gives no effect. -/
inductive Refusal where
  /-- Raised by an arm of `exec` that has no meaning yet; safe. -/
  | notModelled (mnemonic : String)
  /-- Raised by `CMD.RESERVED` and `WR 0`: a word other than the two commands (R155, U7). -/
  | reservedCommand (v : Word)
  /-- Raised by `RD` and `WR`: register number 5 or above (R30, U8). -/
  | reservedRegister (r : Nat)
  /-- Raised by `WR 2`: `v[31:17]` is not 0 (R25, R151). -/
  | reservedBits (v : Word)
  /-- Raised by every write and every command while `STATE = BUSY` (R196, U2). -/
  | writeWhileBusy
  /-- Raised by `ENCODE` and `DECODE`: `MAXSIZE` outside 256 to 65536 (R199, U1). -/
  | illegalMaxsize
  /-- Raised by `ENCODE` and `DECODE`: `ILEN` above `IBUF_CAP` (R59, U4). -/
  | inputBeyondCapacity
  /-- Raised by the commit: the output is longer than `OBUF_CAP` (R59, U5) or than the register
  `OLEN` can hold (U18). -/
  | outputBeyondCapacity
  /-- Raised by `encode(b)` and `decode(b)`: `|b|` is no value of the register `ILEN` (U18). -/
  | lengthBeyondRegister
  /-- Raised by a sequencer step in a state that does not select it (R111, R131); the machine's own
  step never raises it. -/
  | notSelected
  /-- Raised by `GET16` without two bytes left before `ILEN`: its precondition (R101). -/
  | fewerThanTwoBytes
  /-- Raised by `DEC.TAIL` on an empty `entry` and by `DEC.NEXT` on an empty `W`, whose first byte
  does not exist (R136, R137); no run reaches it (R141). -/
  | emptySequence
  /-- Raised by the machine's step while `STATE = BUSY` when no row of R111 or R131 applies, in states
  no run reaches (`IPTR > ILEN`). -/
  | noStepSelected
deriving DecidableEq, Repr

/-- The whole state. `DLEN` is `ent.length` (R31) and `STATUS.STATE` a function of `phase` (R29), so
neither is stored twice; `CMD` holds no value (R28). -/
structure State where
  /-- The capacities of this instance (R9); no step changes them. -/
  params : Params
  /-- `STATUS.ERR` (R29). -/
  err : ErrKind
  /-- `STATUS.CAUSE` (R29). -/
  cause : Cause
  /-- `MAXSIZE`, 17 bits (R25). -/
  maxsize : BitVec 17
  /-- `ILEN` (R26). -/
  ilen : Word
  /-- `OLEN` (R27). -/
  olen : Word
  /-- `PHASE` (R24). -/
  phase : Phase
  /-- `IPTR` (R21, R24). -/
  iptr : Nat
  /-- `W` (R21). -/
  w : Bytes
  /-- `ENT`, with `DLEN` its length (R31). -/
  ent : List Bytes
  /-- `OUT` (R22). -/
  out : Bytes
  /-- `IBUF` (R37). -/
  ibuf : Memory
  /-- `OBUF` (R37). -/
  obuf : Memory
  /-- MODEL'S OWN: the code `GET16` last returned, the transient `k` of R21 (log 8). -/
  k : Code
  /-- MODEL'S OWN: the host operations still to come, the first one next (R82; log 5). -/
  script : List HostOp
  /-- MODEL'S OWN: what the host operations returned so far, oldest first (log 5). -/
  replies : List Reply
  /-- MODEL'S OWN: whose moves come next; when it is empty the sequencer moves while it is busy and
  the host otherwise (log 7). -/
  turns : List Turn
  /-- MODEL'S OWN: the resets so far, which index the free values of unwritten `IBUF` bytes (log 4). -/
  resets : Nat
  /-- MODEL'S OWN: the ends of runs and resets so far, which index the free values of unspecified
  `OBUF` bytes (log 4). -/
  epoch : Nat
  /-- MODEL'S OWN: the reads made while `STATE = BUSY` so far, which index the free values they return
  (log 9). -/
  busyReads : Nat
deriving DecidableEq, Repr

/-- The state after reset of an instance with the given capacities (R40): the values of R40's
table; `ENT` empty, `IBUF` and `OBUF` with nothing listed, where R40 says unspecified; the model's
own fields empty or 0 (log 1). -/
def State.resetWith (p : Params) : State where
  params := p
  err := .none
  cause := .none
  maxsize := BitVec.ofNat 17 Config.defaultMaxsize
  ilen := 0
  olen := 0
  phase := .idle
  iptr := 0
  w := []
  ent := []
  out := []
  ibuf := []
  obuf := []
  k := 0
  script := []
  replies := []
  turns := []
  resets := 0
  epoch := 0
  busyReads := 0

/-- The state after reset of the instance with unbounded buffers (R9, R40; log 2). -/
def State.reset : State := State.resetWith Params.unbounded

end Sys2Proof.Machine
end

