-- ==== Sys2Proof/Machine/Flags.lean ====
section
/-! DEFINITION. The block's only flags: the fields of `STATUS` and the word they form (10_state.md
R29), and the tests `BUSY` and `FULL` (R29, 00_scope.md R16). -/

namespace Sys2Proof.Machine

/-- The value of `STATUS.STATE` for a phase (R29). -/
def Phase.stateCode : Phase → Nat
  | .idle => 0
  | .enc => 1
  | .dec0 => 1
  | .dec => 1
  | .done => 2
  | .fail => 3

/-- The value of `STATUS.ERR` for a kind (R29, R170). -/
def ErrKind.code : ErrKind → Nat
  | .none => 0
  | .compression => 1
  | .decompression => 2

/-- The value of `STATUS.CAUSE` for a cause (R171). -/
def Cause.code : Cause → Nat
  | .none => 0
  | .encLookupMiss => 1
  | .decEmpty => 2
  | .decOddLength => 3
  | .decBadFirstCode => 4
  | .decBadCode => 5

/-- `STATE = BUSY`: a run is in progress (R29). -/
def Phase.isBusy : Phase → Bool
  | .idle => false
  | .enc => true
  | .dec0 => true
  | .dec => true
  | .done => false
  | .fail => false

/-- `STATE = BUSY` (R29). -/
def State.busy (s : State) : Bool := s.phase.isBusy

/-- `DLEN` (R21, R31). -/
def State.dlen (s : State) : Nat := s.ent.length

/-- `FULL`: `not (DLEN < MAXSIZE)` (R16). -/
def State.full (s : State) : Bool := !decide (s.dlen < s.maxsize.toNat)

/-- `STATE | ERR << 2 | CAUSE << 4`, bits [31:8] zero (R29, R150). -/
def statusOf (p : Phase) (e : ErrKind) (c : Cause) : Word :=
  BitVec.ofNat 32 p.stateCode ||| (BitVec.ofNat 32 e.code <<< 2) ||| (BitVec.ofNat 32 c.code <<< 4)

/-- The word `RD 1` returns (R150). -/
def State.statusWord (s : State) : Word := statusOf s.phase s.err s.cause

/-- `256 <= MAXSIZE <= 65536` (R8, R25). -/
def State.maxsizeLegal (s : State) : Bool :=
  decide (Config.seedSize ≤ s.maxsize.toNat ∧ s.maxsize.toNat ≤ Config.maxCodes)

end Sys2Proof.Machine
end

