-- ==== Sys2Proof/Machine/Operands.lean ====
section
/-! DEFINITION. Every way an operation gets at its operands: the byte buffers and their read and
write (00_scope.md R14), the input byte and the input code (20_memory.md R55), the dictionary by
index and by content (R15, R31), and the host registers by number (44_host_interface.md R150). -/

namespace Sys2Proof.Machine

/-- Offsets `0` to `n - 1` exist in a buffer of capacity `cap` (R9, R50). -/
def withinCap (cap : Option Nat) (n : Nat) : Bool :=
  match cap with
  | none => true
  | some c => decide (n ≤ c)

/-- The byte written last at `off`, if any. -/
def Memory.read : Memory → Nat → Option Byte
  | [], _ => none
  | (a, b) :: m, off => if a = off then some b else Memory.read m off

/-- Store one byte, keeping the offsets strictly rising. -/
def Memory.write : Memory → Nat → Byte → Memory
  | [], off, b => [(off, b)]
  | (a, c) :: m, off, b =>
    if off < a then (off, b) :: (a, c) :: m
    else if off = a then (off, b) :: m
    else (a, c) :: Memory.write m off b

/-- Store a byte sequence, lowest offset first (R14). -/
def Memory.writeBytes (m : Memory) (off : Nat) : Bytes → Memory
  | [] => m
  | b :: bs => Memory.writeBytes (Memory.write m off b) (off + 1) bs

/-- Canonical form: the offsets are strictly rising. -/
def Memory.wf : Memory → Bool
  | [] => true
  | [_] => true
  | (a, _) :: (a', b') :: m => decide (a < a') && Memory.wf ((a', b') :: m)

/-- One byte of `IBUF`. A byte nothing has written since reset is a free value (R197, U10; log 4). -/
def State.ibufByte (s : State) (off : Nat) : Byte :=
  (s.ibuf.read off).getD (Config.freeIbuf s.resets off)

/-- One byte of `OBUF`. At and above `OLEN`, hence everywhere but after `DONE`, its value is
unspecified: a free value of the current epoch (R38, U6; log 4). -/
def State.obufByte (s : State) (off : Nat) : Byte :=
  if off < s.olen.toNat then (s.obuf.read off).getD (Config.freeObuf s.epoch off)
  else Config.freeObuf s.epoch off

/-- `MemRead(space, addr, n)`: the bytes at offsets `addr` to `addr + n - 1`, lowest first (R14). -/
def State.memRead (s : State) (space : Space) (addr n : Nat) : Bytes :=
  match space with
  | .ibuf => (List.range n).map fun i => s.ibufByte (addr + i)
  | .obuf => (List.range n).map fun i => s.obufByte (addr + i)

/-- `MemWrite(space, addr, |bs|, bs)` (R14). -/
def State.memWrite (s : State) (space : Space) (addr : Nat) (bs : Bytes) : State :=
  match space with
  | .ibuf => { s with ibuf := s.ibuf.writeBytes addr bs }
  | .obuf => { s with obuf := s.obuf.writeBytes addr bs }

/-- The run's input, `IBUF[0..ILEN)` (R26). -/
def State.input (s : State) : Bytes := s.memRead .ibuf 0 s.ilen.toNat

/-- The committed output, `OBUF[0..OLEN)` (R17). -/
def State.output (s : State) : Bytes := s.memRead .obuf 0 s.olen.toNat

/-- The encoder's input byte `k = IBUF[IPTR]` (R111). -/
def State.inByte (s : State) : Byte := s.ibufByte s.iptr

/-- The decoder's input code `k = 256 * IBUF[IPTR] + IBUF[IPTR + 1]` (R101, R131). -/
def State.inCode (s : State) : Code := codeOfBytes (s.ibufByte s.iptr) (s.ibufByte (s.iptr + 1))

/-- `find(x)` on the run's dictionary (R15). -/
def State.find (s : State) (x : Bytes) : Option Nat := Machine.find s.ent x

/-- `ENT[i]`, defined for `i < DLEN` (R13, R31). -/
def State.entry (s : State) (i : Nat) : Option Bytes := s.ent[i]?

/-- The value `RD r` returns while `STATE != BUSY`, and `RD 1` always (R150). -/
def State.readReg (s : State) (r : Nat) : Option Word :=
  match r with
  | 0 => some 0
  | 1 => some s.statusWord
  | 2 => some (s.maxsize.setWidth 32)
  | 3 => some s.ilen
  | 4 => some s.olen
  | _ => none

end Sys2Proof.Machine
end

