-- ==== Sys2Proof/Machine/Ops.lean ====
section
/-! DEFINITION. The named operations the meanings share: the four units' sub-operations (`SEED`,
`PUT16`, `GET16`, `DEC.TAIL`), the commit of a run's output, the fault entry and what undoes it, the
two INIT operations, the start of a run, and reset. -/

namespace Sys2Proof.Machine

/-- What an operation answers. -/
abbrev Result := Host.Outcome State Fault Refusal

/-- `SEED`: exactly the 256 single-byte entries, whatever the dictionary held (R90). -/
def seedOp (s : State) : State := { s with ent := seedEntries }

/-- `PUT16 c`: append the code's two bytes to `OUT`, most-significant first (R100). -/
def put16Op (c : Code) (s : State) : State := { s with out := s.out ++ codeBytes c }

/-- `GET16`: read the code at `IPTR` and advance `IPTR` by 2 (R101); the code returned is in `k`. -/
def get16Op (s : State) : State := { s with k := s.inCode, iptr := s.iptr + 2 }

/-- The output fits `OBUF_CAP` (R59) and its length fits the register `OLEN` (U18). -/
def State.outputFits (s : State) : Bool :=
  withinCap s.params.obufCap s.out.length && decide (s.out.length < 2 ^ Config.lenWidth)

/-- The commit's effect: `MemWrite(OBUF, 0, |OUT|, OUT); OLEN <- |OUT|; PHASE <- DONE` (R66). The bytes
of `OBUF` above are unspecified afterwards, hence the new epoch. -/
def commitState (s : State) : State :=
  { s with
    obuf := s.obuf.writeBytes 0 s.out
    olen := BitVec.ofNat 32 s.out.length
    phase := .done
    epoch := s.epoch + 1 }

/-- Commit (R66), refused where the output does not fit (U5, U18). -/
def commit (s : State) : Result :=
  if s.outputFits then .next (commitState s) else .refused .outputBeyondCapacity

/-- FAULT ENTRY (R180), for `raise Compression(c)` and `raise Decompression(c)`: the kind and the cause
are recorded, `OLEN` is 0, the run ends in `FAIL`. `OUT` is dropped; `OBUF` is not written, and its
content is unspecified afterwards (R179), hence the new epoch. Nothing is saved and control goes
nowhere (R178). -/
def raiseOp (kind : ErrKind) (c : Cause) (s : State) : State :=
  { s with
    err := kind
    cause := c
    olen := 0
    phase := .fail
    out := []
    epoch := s.epoch + 1 }

/-- What undoes a fault entry. There is no return operation: the next command clears `ERR`, `CAUSE` and
`OLEN` (R153, R154 sub-step 1; R181). -/
def clearStatus (s : State) : State := { s with err := .none, cause := .none, olen := 0 }

/-- `W <- []; IPTR <- 0; OUT <- []` after `SEED`: what the two INIT operations share (R110, R130). -/
def startRun (p : Phase) (s : State) : State :=
  { seedOp s with w := [], iptr := 0, out := [], phase := p }

/-- `ENC.INIT` (R110). -/
def encInitOp (s : State) : State := startRun .enc s

/-- `DEC.INIT` (R130): the length checks, in this order, then the start. -/
def decInitOp (s : State) : State :=
  if s.ilen.toNat = 0 then raiseOp .decompression .decEmpty s
  else if s.ilen.toNat % 2 = 1 then raiseOp .decompression .decOddLength s
  else startRun .dec0 s

/-- `DEC.TAIL(entry)` (R137): append `entry` to `OUT`; below the cap insert the old `W` plus the first
byte of `entry`; then `W <- entry`. -/
def decTailOp (entry : Bytes) (s : State) : Result :=
  match entry with
  | [] => .refused .emptySequence
  | b :: bs =>
    .next { s with
      out := s.out ++ (b :: bs)
      ent := insertBelow s.maxsize.toNat s.ent (s.w ++ [b])
      w := b :: bs }

/-- The preconditions of both commands (R153, R154, R156), each failure without a meaning (U1, U2,
U4), and then `body`. -/
def whenCommandLegal (s : State) (body : State) : Result :=
  if s.busy then .refused .writeWhileBusy
  else if !s.maxsizeLegal then .refused .illegalMaxsize
  else if !withinCap s.params.ibufCap s.ilen.toNat then .refused .inputBeyondCapacity
  else .next body

/-- `ENCODE` (R153): clear the status, then `ENC.INIT`, in one step. -/
def startEncode (s : State) : Result := whenCommandLegal s (encInitOp (clearStatus s))

/-- `DECODE` (R154): clear the status, then `DEC.INIT`, in one step. -/
def startDecode (s : State) : Result := whenCommandLegal s (decInitOp (clearStatus s))

/-- Record what a host operation returned. -/
def reply (x : Reply) (s : State) : State := { s with replies := s.replies ++ [x] }

/-- A host write (R151, R152): without a meaning while `STATE = BUSY` (U2). -/
def whenNotBusy (s : State) (body : Result) : Result :=
  if s.busy then .refused .writeWhileBusy else body

/-- What a register read other than `STATUS` returns while `STATE = BUSY`: any value (U3; DESIGN CHOICE,
log 9). -/
def busyWordReply (r : Nat) (s : State) : State :=
  { reply (.word r (Config.freeBusyWord s.busyReads)) s with busyReads := s.busyReads + 1 }

/-- What a buffer read of `n` bytes returns while `STATE = BUSY`: any bytes (U3; DESIGN CHOICE, log 9). -/
def busyBytesReply (n : Nat) (s : State) : State :=
  { reply (.bytes ((List.range n).map (Config.freeBusyByte s.busyReads))) s with
    busyReads := s.busyReads + 1 }

/-- A host read of `n` bytes of a buffer from offset `addr` (R152): the offsets must exist (DEDUCED, log 15);
while `STATE = BUSY` the bytes are any bytes (U3, log 9). Once `PHASE` is `DONE` the committed bytes are
returned even where no `STATUS` read has returned `DONE` yet, for which R195 and R60 (b) promise nothing
(DESIGN CHOICE, log 20). -/
def readBuffer (space : Space) (cap : Option Nat) (addr n : Nat) (s : State) : Result :=
  if !withinCap cap (addr + n) then .fault (.noSuchOffset space (addr + n - 1))
  else if s.busy then .next (busyBytesReply n s)
  else .next (reply (.bytes (s.memRead space addr n)) s)

/-- `RDOUT OLEN` (R83): the read of as many bytes as the register says. While `STATE = BUSY` a read of `OLEN`
is any value (U3), so the number of bytes is a free value too, the one a read of `OLEN` would return there,
and no offset is checked against it (DESIGN CHOICE, log 9). -/
def readOutput (s : State) : Result :=
  if s.busy then .next (busyBytesReply (Config.freeBusyWord s.busyReads).toNat s)
  else readBuffer .obuf s.params.obufCap 0 s.olen.toNat s

/-- A host write of bytes to `IBUF` from offset `addr` (R152). -/
def loadInput (addr : Nat) (bs : Bytes) (s : State) : Result :=
  whenNotBusy s
    (if withinCap s.params.ibufCap (addr + bs.length) then .next (s.memWrite .ibuf addr bs)
     else .fault (.noSuchOffset .ibuf (addr + bs.length - 1)))

/-- The lines `encode(b)` and `decode(b)` expand to, with the command word each writes (R83). -/
def expansion (cmd : Word) (b : Bytes) : List HostOp :=
  [.ldin (.block b), .wr 3 (BitVec.ofNat 32 b.length), .wr 0 cmd, .wait, .rd 1, .rd 4, .rdout .olen]

/-- Put a pseudo-operation's lines at the head of the script (R83), in every phase (DESIGN CHOICE, log 5). A
length that `ILEN` cannot hold is refused (DESIGN CHOICE, log 3). -/
def expandScript (cmd : Word) (b : Bytes) (s : State) : Result :=
  if lengthOk b then .next { s with script := expansion cmd b ++ s.script }
  else .refused .lengthBeyondRegister

/-- RESET (R190, R191): every piece of the block's state as after reset, at any time. The host's script,
replies and turns are not the block's and stay; the counters that index free values move on, since
the buffers' contents are unspecified again. -/
def resetOp (s : State) : State :=
  { State.resetWith s.params with
    script := s.script
    replies := s.replies
    turns := s.turns
    resets := s.resets + 1
    epoch := s.epoch + 1
    busyReads := s.busyReads }

/-- The result of a run (R17): `STATUS.ERR`, `OLEN` and `OBUF[0..OLEN)`, once the run has ended. -/
def State.result (s : State) : Option (ErrKind × Word × Bytes) :=
  if s.phase = .done ∨ s.phase = .fail then some (s.err, s.olen, s.output) else none

end Sys2Proof.Machine
end

