-- ==== Sys2Proof/Machine/Bootstrap.lean ====
section
/-! DEFINITION. The meanings of `SEED` (40_bootstrap.md), `ENC.INIT` and `DEC.INIT`: the sub-operations
that start a run. -/

namespace Sys2Proof.Machine

/-- `SEED` (R90); it cannot fail. -/
def execSeed (s : State) : Result := .next (seedOp s)

/-- `ENC.INIT` (R110). -/
def execEncInit (s : State) : Result := .next (encInitOp s)

/-- `DEC.INIT` (R130); on a bad length it takes the fault entry. -/
def execDecInit (s : State) : Result := .next (decInitOp s)

end Sys2Proof.Machine
end

