-- ==== Sys2Proof/Machine/Command.lean ====
section
/-! DEFINITION. The meanings of the command words (44_host_interface.md R153 to R156). -/

namespace Sys2Proof.Machine

/-- `ENCODE` (R153). -/
def execEncode (s : State) : Result := startEncode s

/-- `DECODE` (R154). -/
def execDecode (s : State) : Result := startDecode s

/-- `CMD.RESERVED` (R155): "has no meaning in this spec; the model refuses it" (U7). While `STATE = BUSY` the
write falls under U2 as well, which is also a refusal; the name is then U2's, as for every other write
(DESIGN CHOICE, log 14). -/
def execCmdReserved (v : Word) (s : State) : Result := whenNotBusy s (.refused (.reservedCommand v))

end Sys2Proof.Machine
end

