-- ==== Sys2Proof/Machine/Select.lean ====
section
/-! DEFINITION. Which step the sequencer takes in a state: the selection tables of 42_encoder.md R111
and 43_decoder.md R131. A step that consumes input is what the decoder reads from the word at
`IPTR`; a closing step is chosen by the state alone. -/

namespace Sys2Proof.Machine

/-- R111's rows with `IPTR = ILEN`. -/
def encClose (s : State) : Instr :=
  if s.w = [] then .encEnd0
  else if (s.find s.w).isSome then .encFlush
  else .encFault

/-- The step the tables select; `none` where no row applies.

DESIGN CHOICE (log 13), for hand-built states, which R58 and R101 exclude from every run: R131's table is
followed as it is written, so in `DEC0` a step is selected wherever `IPTR` stands, and in `DEC` wherever
`IPTR < ILEN`. With `IPTR + 1 >= ILEN` the selected step reads its code without GET16's precondition (R101)
and takes bytes at and above `ILEN`. Unsafe there: the machine goes on where the spec says nothing. -/
def seqSelect (s : State) : Option Instr :=
  match s.phase with
  | .enc =>
    if s.iptr < s.ilen.toNat then
      (decode (.raw s.ent s.w s.maxsize.toNat) (.byte8 s.inByte)).toOption
    else if s.iptr = s.ilen.toNat then some (encClose s)
    else none
  | .dec0 =>
    (decode (.firstCode s.dlen)
      (.code16 (s.ibufByte s.iptr) (s.ibufByte (s.iptr + 1)))).toOption
  | .dec =>
    if s.iptr < s.ilen.toNat then
      (decode (.laterCode s.dlen)
        (.code16 (s.ibufByte s.iptr) (s.ibufByte (s.iptr + 1)))).toOption
    else if s.iptr = s.ilen.toNat then some .decEnd
    else none
  | .idle => none
  | .done => none
  | .fail => none

/-- A sequencer step has its effect in the states that select it, with the operand found at `IPTR`,
and no meaning elsewhere (each step rule's "Selection"). -/
def whenSelected (i : Instr) (s : State) (body : Result) : Result :=
  if seqSelect s = some i then body else .refused .notSelected

end Sys2Proof.Machine
end

