-- ==== Sys2Proof/Machine/Decoder.lean ====
section
/-! DEFINITION. The meanings of the decoder's steps (43_decoder.md). Each begins with `GET16`, whose code
is then in `k`; the entry is determined from the state before the insertion (R134). -/

namespace Sys2Proof.Machine

/-- `DEC.FIRST` (R132): nothing is inserted. -/
def execDecFirst (c : Code) (s : State) : Result :=
  let t := get16Op s
  whenSelected (.decFirst c) s
    (match t.entry t.k.toNat with
     | some entry => .next { t with out := t.out ++ entry, w := entry, phase := .dec }
     | none => .refused .notSelected)

/-- `DEC.BADFIRST` (R133): `raise Decompression(4)`. -/
def execDecBadfirst (c : Code) (s : State) : Result :=
  whenSelected (.decBadfirst c) s
    (.next (raiseOp .decompression .decBadFirstCode (get16Op s)))

/-- `DEC.KNOWN` (R135). -/
def execDecKnown (c : Code) (s : State) : Result :=
  let t := get16Op s
  whenSelected (.decKnown c) s
    (match t.entry t.k.toNat with
     | some entry => decTailOp entry t
     | none => .refused .notSelected)

/-- `DEC.NEXT` (R136): `entry <- W ++ [W[0]]`, whether or not the dictionary is full. -/
def execDecNext (c : Code) (s : State) : Result :=
  let t := get16Op s
  whenSelected (.decNext c) s
    (match t.w with
     | [] => .refused .emptySequence
     | b :: bs => decTailOp ((b :: bs) ++ [b]) t)

/-- `DEC.TAIL(entry)` (R137). -/
def execDecTail (entry : Bytes) (s : State) : Result := decTailOp entry s

/-- `DEC.BAD` (R138): `raise Decompression(5)`. -/
def execDecBad (c : Code) (s : State) : Result :=
  whenSelected (.decBad c) s (.next (raiseOp .decompression .decBadCode (get16Op s)))

/-- `DEC.END` (R139). -/
def execDecEnd (s : State) : Result := whenSelected .decEnd s (commit s)

end Sys2Proof.Machine
end

