-- ==== Sys2Proof/Machine/Encoder.lean ====
section
/-! DEFINITION. The meanings of the encoder's steps (42_encoder.md). -/

namespace Sys2Proof.Machine

/-- `c <- find(W); PUT16 c`: the code of the match `W`, never of `wk` (R113, R114, R115, R118). -/
def emitMatch (s : State) : Result :=
  match s.find s.w with
  | some c => .next (put16Op (BitVec.ofNat 16 c) s)
  | none => .refused .notSelected

/-- `ENC.EXTEND` (R112). -/
def execEncExtend (k : Byte) (s : State) : Result :=
  whenSelected (.encExtend k) s (.next { s with w := s.w ++ [k], iptr := s.iptr + 1 })

/-- `ENC.EMIT.INS` (R113): emit the code of `W`, insert `W ++ [k]`, restart the match at `k`. -/
def execEncEmitIns (k : Byte) (s : State) : Result :=
  whenSelected (.encEmitIns k) s
    (match emitMatch s with
     | .next t => .next { t with ent := t.ent ++ [t.w ++ [k]], w := [k], iptr := t.iptr + 1 }
     | o => o)

/-- `ENC.EMIT.FRZ` (R114): the same without the insertion. -/
def execEncEmitFrz (k : Byte) (s : State) : Result :=
  whenSelected (.encEmitFrz k) s
    (match emitMatch s with
     | .next t => .next { t with w := [k], iptr := t.iptr + 1 }
     | o => o)

/-- `ENC.FLUSH` (R115). -/
def execEncFlush (s : State) : Result :=
  whenSelected .encFlush s
    (match emitMatch s with
     | .next t => commit t
     | o => o)

/-- `ENC.END0` (R116). -/
def execEncEnd0 (s : State) : Result := whenSelected .encEnd0 s (commit s)

/-- `ENC.FAULT` (R117): `raise Compression(1)`. -/
def execEncFault (s : State) : Result :=
  whenSelected .encFault s (.next (raiseOp .compression .encLookupMiss s))

end Sys2Proof.Machine
end

