-- ==== Sys2Proof/Machine/HostAccess.lean ====
section
/-! DEFINITION. The meanings of the host's own operations (44_host_interface.md R150 to R152, R157;
30_encoding.md R83). -/

namespace Sys2Proof.Machine

/-- `RD r` (R150). `RD 1` answers in every phase; the other registers answer any value while
`STATE = BUSY` (U3; log 9); `r >= 5` has no meaning (U8). `RD 4` returns the committed `OLEN` as soon as
`PHASE` is `DONE`, even where no `STATUS` read has returned `DONE` yet, for which R195 and R60 (b) promise
nothing (DESIGN CHOICE, log 20). -/
def execRd (r : Nat) (s : State) : Result :=
  match s.readReg r with
  | none => .refused (.reservedRegister r)
  | some v =>
    if s.busy && r != 1 then .next (busyWordReply r s) else .next (reply (.word r v) s)

/-- `WR r, v` (R151), only while `STATE != BUSY`: register 0 decodes `v` as a command word, 1 and 4
ignore the write, 2 and 3 store it. -/
def execWr (r : Nat) (v : Word) (s : State) : Result :=
  whenNotBusy s
    (match r with
     | 0 =>
       match decodeCmd v with
       | .encode => startEncode s
       | .decode => startDecode s
       | _ => .refused (.reservedCommand v)
     | 1 => .next s
     | 2 => if maxsizeOk v then .next { s with maxsize := v.setWidth 17 } else .refused (.reservedBits v)
     | 3 => .next { s with ilen := v }
     | 4 => .next s
     | _ => .refused (.reservedRegister r))

/-- `LDIN` in both its forms (R152); it does not set `ILEN`. -/
def execLdin (f : LdinForm) (s : State) : Result :=
  match f with
  | .block bs => loadInput 0 bs s
  | .byteAt off b => loadInput off [b] s

/-- `RDOUT` in all its forms (R152, R83); what a read while `STATE = BUSY` returns is log 9's choice, and
what one before a `STATUS` read of `DONE` returns is log 20's. -/
def execRdout (f : RdoutForm) (s : State) : Result :=
  match f with
  | .block n => readBuffer .obuf s.params.obufCap 0 n s
  | .olen => readOutput s
  | .outByte off => readBuffer .obuf s.params.obufCap off 1 s
  | .inByte off => readBuffer .ibuf s.params.ibufCap off 1 s

/-- `WAIT` (R82, R157): one `RD 1`; while `STATE = BUSY` the line is repeated. -/
def execWait (s : State) : Result :=
  .next { reply (.word 1 s.statusWord) s with
    script := if s.busy then HostOp.wait :: s.script else s.script }

/-- `encode(b)` (R83): the script's line becomes the lines it expands to. -/
def execEncodeB (b : Bytes) (s : State) : Result := expandScript 1 b s

/-- `decode(b)` (R83): the script's line becomes the lines it expands to. -/
def execDecodeB (b : Bytes) (s : State) : Result := expandScript 2 b s

end Sys2Proof.Machine
end

