-- ==== Sys2Proof/Machine/Serializer.lean ====
section
/-! DEFINITION. The meanings of `PUT16` and `GET16` (41_code_serializer.md). -/

namespace Sys2Proof.Machine

/-- `PUT16 c` (R100). -/
def execPut16 (c : Code) (s : State) : Result := .next (put16Op c s)

/-- `GET16` (R101), under its precondition `IPTR + 1 < ILEN`. -/
def execGet16 (s : State) : Result :=
  if s.iptr + 1 < s.ilen.toNat then .next (get16Op s) else .refused .fewerThanTwoBytes

end Sys2Proof.Machine
end

