-- ==== Sys2Proof/Machine/Dispatch.lean ====
section
/-! DEFINITION. The dispatch: one arm per constructor of `Instr`. -/

namespace Sys2Proof.Machine

/-- The meaning of an operation. -/
def exec (i : Instr) (s : State) : Host.Outcome State Fault Refusal :=
  match i with
  | .encode => Sys2Proof.Machine.execEncode s
  | .decode => Sys2Proof.Machine.execDecode s
  | .cmdReserved v => Sys2Proof.Machine.execCmdReserved v s
  | .decFirst c => Sys2Proof.Machine.execDecFirst c s
  | .decBadfirst c => Sys2Proof.Machine.execDecBadfirst c s
  | .decKnown c => Sys2Proof.Machine.execDecKnown c s
  | .decNext c => Sys2Proof.Machine.execDecNext c s
  | .decBad c => Sys2Proof.Machine.execDecBad c s
  | .encExtend k => Sys2Proof.Machine.execEncExtend k s
  | .encEmitIns k => Sys2Proof.Machine.execEncEmitIns k s
  | .encEmitFrz k => Sys2Proof.Machine.execEncEmitFrz k s
  | .encInit => Sys2Proof.Machine.execEncInit s
  | .encFlush => Sys2Proof.Machine.execEncFlush s
  | .encEnd0 => Sys2Proof.Machine.execEncEnd0 s
  | .encFault => Sys2Proof.Machine.execEncFault s
  | .decInit => Sys2Proof.Machine.execDecInit s
  | .decTail entry => Sys2Proof.Machine.execDecTail entry s
  | .decEnd => Sys2Proof.Machine.execDecEnd s
  | .seed => Sys2Proof.Machine.execSeed s
  | .put16 c => Sys2Proof.Machine.execPut16 c s
  | .get16 => Sys2Proof.Machine.execGet16 s
  | .rd r => Sys2Proof.Machine.execRd r s
  | .wr r v => Sys2Proof.Machine.execWr r v s
  | .ldin f => Sys2Proof.Machine.execLdin f s
  | .rdout f => Sys2Proof.Machine.execRdout f s
  | .wait => Sys2Proof.Machine.execWait s
  | .encodeB b => Sys2Proof.Machine.execEncodeB b s
  | .decodeB b => Sys2Proof.Machine.execDecodeB b s

end Sys2Proof.Machine
end

