-- ==== Sys2Proof/Machine/Fetch.lean ====
section
/-! DEFINITION. What the machine's step does around `exec`: the moves of the two agents (00_scope.md R4)
and what the fetch of a table word takes. -/

namespace Sys2Proof.Machine

/-- The sequencer's move: the selected step (R111, R131). A sequencer that is not busy does nothing
(R40, R180). -/
def sequencerMove (s : State) : Result :=
  if s.busy then
    match seqSelect s with
    | some i => exec i s
    | none => .refused .noStepSelected
  else .next s

/-- The host's move: the first line of its script, decoded (R82); a host with no line left does
nothing. -/
def hostMove (s : State) : Result :=
  match s.script with
  | [] => .next s
  | op :: ops => exec (decodeHostOp op) { s with script := ops }

/-- One move of the machine: the first of `turns`; with none listed, the sequencer moves while it is
busy and the host otherwise (R4, R157; log 7). -/
def move (s : State) : Result :=
  match s.turns with
  | .reset :: ts => .next (resetOp { s with turns := ts })
  | .host :: ts => hostMove { s with turns := ts }
  | .sequencer :: ts => sequencerMove { s with turns := ts }
  | [] => if s.busy then sequencerMove s else hostMove s

/-- A state in which the next move fetches the given table word (log 6): a 32-bit word stands in the
script as a write to `CMD`; a 16-bit word is code number 0 of a decode run that has just started; an
8-bit word is byte number 0 of an encode run that has just started. -/
def placeWord (s : State) (nbits w : Nat) : State :=
  if nbits = 32 then
    { s with
      script := .wr 0 (BitVec.ofNat 32 w) :: s.script
      turns := .host :: s.turns }
  else if nbits = 16 then
    { startRun .dec0 s with
      ibuf := s.ibuf.writeBytes 0 (codeBytes (BitVec.ofNat 16 w))
      ilen := 2
      turns := .sequencer :: s.turns }
  else if nbits = 8 then
    { startRun .enc s with
      ibuf := s.ibuf.writeBytes 0 [BitVec.ofNat 8 w]
      ilen := 1
      turns := .sequencer :: s.turns }
  else s

end Sys2Proof.Machine
end

