-- ==== Sys2Proof/Machine/Step.lean ====
section
/-! DEFINITION. One step of the machine, and the placing of a table word where it is fetched. -/

namespace Sys2Proof.Machine

/-- One step: one register access by the host, one sequencer step, or a reset (00_scope.md R3, R4). -/
def step (s : State) : Host.Outcome State Fault Refusal := move s

/-- `s` with a table word placed where `step` fetches its next operation (log 6). -/
def State.withFetchWord (s : State) (nbits w : Nat) : State := placeWord s nbits w

end Sys2Proof.Machine
end

