-- ==== Sys2Proof/Machine/Reference.lean ====
section
/-! DEFINITION. The function LZW-CORE computes, as the recursions of 42_encoder.md R119 and
43_decoder.md R140 give it, and the whole-stream functions of 41_code_serializer.md R103. The step
machine is the model; these are what its runs are claimed to compute. -/

namespace Sys2Proof.Machine

/-- `ser(cs)` (R103). -/
def ser : List Code → Bytes
  | [] => []
  | c :: cs => codeBytes c ++ ser cs

/-- `des(bs)` (R103), on sequences of even length; an odd last byte belongs to no code. -/
def des : Bytes → List Code
  | b0 :: b1 :: bs => codeOfBytes b0 b1 :: des bs
  | _ => []

/-- R119's loop over the remaining input; `none` where a code is due and `find_D(w) = none`. -/
def encodeLoop (m : Nat) : List Bytes → Bytes → Bytes → Bytes → Option Bytes
  | D, w, out, [] =>
    if w = [] then some out
    else (find D w).map fun c => out ++ ser [BitVec.ofNat 16 c]
  | D, w, out, k :: ks =>
    if (find D (w ++ [k])).isSome then encodeLoop m D (w ++ [k]) out ks
    else
      match find D w with
      | some c =>
        encodeLoop m (insertBelow m D (w ++ [k])) [k] (out ++ ser [BitVec.ofNat 16 c]) ks
      | none => none

/-- `encode(M, b)` (R119); `none` would be `Err(Compression)`. -/
def encodeFn (m : Nat) (b : Bytes) : Option Bytes := encodeLoop m seedEntries [] [] b

/-- R140's loop over the codes after the first; `none` is `Err(Decompression)`. -/
def decodeLoop (m : Nat) : List Bytes → Bytes → Bytes → List Code → Option Bytes
  | _, _, out, [] => some out
  | D, w, out, k :: ks =>
    match (if k.toNat < D.length then D[k.toNat]?
           else if k.toNat = D.length then some (w ++ w.take 1) else none) with
    | some entry =>
      decodeLoop m (insertBelow m D (w ++ entry.take 1)) entry (out ++ entry) ks
    | none => none

/-- `decode(M, s)` (R140). -/
def decodeFn (m : Nat) (s : Bytes) : Option Bytes :=
  if s.length = 0 ∨ s.length % 2 = 1 then none
  else
    match des s with
    | [] => none
    | k0 :: ks =>
      match seedEntries[k0.toNat]? with
      | none => none
      | some w => decodeLoop m seedEntries w w ks

end Sys2Proof.Machine
end

