-- ==== Sys2Proof/Safety.lean ====
section
/-! DEFINITION. What holds of every state a run reaches: the invariants the spec states or derives
(10_state.md R29, R32 to R35; 42_encoder.md R123 to R125; 43_decoder.md R141), as one predicate
`Inv`. -/

namespace Sys2Proof.Machine

/-- The pairs (`ERR`, `CAUSE`) that are ever produced: the rows of R171's table. -/
def errCausePairs : List (ErrKind × Cause) :=
  [(.none, .none), (.compression, .encLookupMiss), (.decompression, .decEmpty),
   (.decompression, .decOddLength), (.decompression, .decBadFirstCode),
   (.decompression, .decBadCode)]

/-- The flags: a pair of R171's table, and `ERR != 0` exactly when `STATE = FAIL` (R29). -/
structure StatusInv (s : State) : Prop where
  pair : (s.err, s.cause) ∈ errCausePairs
  failIff : s.phase = .fail ↔ s.err ≠ .none

/-- The output registers: `OLEN` is 0 but after `DONE` (R27), and after `DONE` it is `|OUT|` with `OUT`
at the start of `OBUF` (R66; the model keeps `OUT` after the end, where U9 leaves it open, log 10). -/
structure OutputInv (s : State) : Prop where
  olenZero : s.phase ≠ .done → s.olen = 0
  olenDone : s.phase = .done → s.olen.toNat = s.out.length
  committed : s.phase = .done → ∀ i, i < s.out.length → s.obuf.read i = s.out[i]?

/-- What the command checked holds over the run (R30, R153, R154): a legal `MAXSIZE`, and an input
within the capacity. -/
structure LaunchInv (s : State) : Prop where
  maxsize : s.maxsizeLegal = true
  input : withinCap s.params.ibufCap s.ilen.toNat = true

/-- The dictionary of a run: literal entries (R32), bounds (R34), no empty entry (R33) and the prefix
property (R35). -/
structure DictInv (m : Nat) (ent : List Bytes) : Prop where
  literals : ∀ i, i < Config.seedSize → ent[i]? = some [BitVec.ofNat 8 i]
  lower : Config.seedSize ≤ ent.length
  upper : ent.length ≤ m
  nonempty : ∀ e ∈ ent, e ≠ []
  prefixed : ∀ i, Config.seedSize ≤ i → i < ent.length →
    ∃ p e b, p < i ∧ ent[p]? = some e ∧ ent[i]? = some (e ++ [b])

/-- The byte sequences of the entries that `cs` names, concatenated (R123 (e)). -/
def expandCodes (ent : List Bytes) (cs : List Code) : Bytes :=
  cs.flatMap fun c => (ent[c.toNat]?).getD []

/-- An encode run (R123, R124, R125). -/
structure EncInv (s : State) : Prop where
  ptr : s.iptr ≤ s.ilen.toNat
  emptyIff : s.w = [] ↔ s.iptr = 0
  matched : s.w ≠ [] → (s.find s.w).isSome = true
  distinct : s.ent.Nodup
  outEven : s.out.length % 2 = 0
  codesKnown : ∀ c ∈ des s.out, c.toNat < s.dlen
  consumed : expandCodes s.ent (des s.out) ++ s.w = s.input.take s.iptr
  growth : s.dlen = min s.maxsize.toNat (Config.seedSize + s.out.length / 2)
  codeCount : s.out.length ≤ 2 * (s.iptr - 1)

/-- A decode run before its first code (R130, R131). -/
structure Dec0Inv (s : State) : Prop where
  ptr : s.iptr = 0
  lenPos : 0 < s.ilen.toNat
  lenEven : s.ilen.toNat % 2 = 0
  match0 : s.w = []
  out0 : s.out = []
  seeded : s.ent = seedEntries

/-- A decode run after its first code (R141 (a) to (e), R23, R144). -/
structure DecInv (s : State) : Prop where
  matchNonempty : s.w ≠ []
  ptrEven : s.iptr % 2 = 0
  ptrLow : 2 ≤ s.iptr
  ptr : s.iptr ≤ s.ilen.toNat
  lenEven : s.ilen.toNat % 2 = 0
  growth : s.dlen = min s.maxsize.toNat (Config.seedSize + (s.iptr / 2 - 1))
  matchEntry : s.dlen < s.maxsize.toNat → s.w ∈ s.ent
  matchLength : s.w.length ≤ s.iptr / 2
  entryLength : ∀ e ∈ s.ent, e.length ≤ s.iptr / 2
  outLow : s.iptr / 2 ≤ s.out.length
  outHigh : 2 * s.out.length ≤ (s.iptr / 2) * (s.iptr / 2 + 1)

/-- The invariant of the machine: it holds after reset and every step keeps it. -/
structure Inv (s : State) : Prop where
  ibuf : s.ibuf.wf = true
  obuf : s.obuf.wf = true
  status : StatusInv s
  output : OutputInv s
  launch : s.busy = true → LaunchInv s
  dict : s.busy = true → DictInv s.maxsize.toNat s.ent
  encRun : s.phase = .enc → EncInv s
  dec0Run : s.phase = .dec0 → Dec0Inv s
  decRun : s.phase = .dec → DecInv s

/-- A state from which a command is accepted (R153, R154, R156). -/
structure CommandLegal (s : State) : Prop where
  notBusy : s.busy = false
  maxsize : s.maxsizeLegal = true
  input : withinCap s.params.ibufCap s.ilen.toNat = true

/-- An output that an instance can deliver: within `OBUF_CAP` (R59) and a value of `OLEN` (U18). -/
def State.canDeliver (s : State) (out : Bytes) : Bool :=
  withinCap s.params.obufCap out.length && decide (out.length < 2 ^ Config.lenWidth)

end Sys2Proof.Machine
end

