-- ==== Sys2Proof/Certificates/Slice0/Obligations.lean ====
section
/-! DEFINITION. The statements for the provers. Each is about one operation's effect and frame, about
the decoder and encoder, or about the machine as a whole; the docstring names the rule of spec/ or
the section it rests on. The fields `script` and `replies` (log 5), `turns` (log 7), `k` (log 8), `resets`
and `epoch` (log 4) and `busyReads` (log 9) are the model's own wherever a statement names them, and no
rule's. -/

open Sys2Proof Sys2Proof.Machine

/-! ## Words -/

/-- For every well-formed operation that has a word (30_encoding.md), in every context in which the
table lets the word stand for it: decoding the encoded word gives the operation back. -/
def Obligations.DecodeOfEncodeIsIdentity : Prop :=
  ∀ (i : Instr) (ctx : Ctx) (p : Encoded), i.wf = true → ctx.fits i = true → encode i = some p →
    decode ctx p = .ok i

/-- The other direction: a word has one meaning in a context. Whatever the decoder answers but
`ENC.FAULT`, which has no word, encodes to the word it was read from, and the context is one the
table gives it; a command word decodes to a well-formed operation. -/
def Obligations.EncodeOfDecodeIsIdentity : Prop :=
  (∀ (ctx : Ctx) (p : Encoded) (i : Instr), decode ctx p = .ok i → i ≠ .encFault →
    encode i = some p ∧ ctx.fits i = true) ∧
  (∀ (p : Encoded) (i : Instr), decode .cmd p = .ok i → i.wf = true) ∧
  (∀ (p : Encoded) (i : Instr), decode (.firstCode 256) p = .ok i → i.wf = true)

/-- A few words written out from 30_encoding.md: the two command words and a reserved one (R78), codes
as stream bytes, most-significant first (R52, R71, R75, R76), a raw byte (R72), classed by the dictionary
(R111), and half a code, which is no code stream (R81). -/
def Obligations.SampleWordsDecode : Prop :=
  decode .cmd (.cmd32 0x00000001#32) = .ok .encode ∧
  decode .cmd (.cmd32 0x00000002#32) = .ok .decode ∧
  decode .cmd (.cmd32 0x00000003#32) = .ok (.cmdReserved 3#32) ∧
  decodeBytes (.firstCode 256) [0x00, 0x41, 0x01, 0x00] = .ok (.decFirst 65#16, [0x01, 0x00]) ∧
  decodeBytes (.firstCode 256) [0x01, 0x00] = .ok (.decBadfirst 256#16, []) ∧
  decodeBytes (.laterCode 257) [0x01, 0x00] = .ok (.decKnown 256#16, []) ∧
  decodeBytes (.laterCode 256) [0x01, 0x00] = .ok (.decNext 256#16, []) ∧
  decodeBytes (.laterCode 256) [0x01, 0x01] = .ok (.decBad 257#16, []) ∧
  decodeBytes (.raw seedEntries [0x41] 4096) [0x41] = .ok (.encEmitIns 0x41#8, []) ∧
  decodeBytes (.firstCode 256) [0x41] = .error .truncated

/-- R78: a command word is `ENCODE` exactly when it is `0x00000001`, `DECODE` exactly when it is
`0x00000002`, and reserved otherwise. -/
def Obligations.CommandWordsAreTwo : Prop :=
  ∀ v : Word,
    (decodeCmd v = .encode ↔ v = 0x00000001#32) ∧
    (decodeCmd v = .decode ↔ v = 0x00000002#32) ∧
    (v ≠ 0x00000001#32 → v ≠ 0x00000002#32 → decodeCmd v = .cmdReserved v)

/-- R75: a code at any position but the first is `KNOWN`, `NEXT` or `BAD` as it is below, at or above
`DLEN`; exactly one holds; with `DLEN = 65536` every code is `KNOWN`. -/
def Obligations.LaterCodesAreClassedByTableLength : Prop :=
  ∀ (dlen : Nat) (b0 b1 : Byte), ∃ c : Code, c.toNat = 256 * b0.toNat + b1.toNat ∧
    (c.toNat < dlen → decode (.laterCode dlen) (.code16 b0 b1) = .ok (.decKnown c)) ∧
    (c.toNat = dlen → decode (.laterCode dlen) (.code16 b0 b1) = .ok (.decNext c)) ∧
    (dlen < c.toNat → decode (.laterCode dlen) (.code16 b0 b1) = .ok (.decBad c)) ∧
    (dlen = 65536 → decode (.laterCode dlen) (.code16 b0 b1) = .ok (.decKnown c))

/-- R76: with `DLEN = 256` the first code is legal exactly when it is at most 255, that is when its
first byte is 0; a first code of 256 or more, 256 included, is an error. -/
def Obligations.FirstCodeIsLiteralOrBad : Prop :=
  ∀ (b0 b1 : Byte), ∃ c : Code, c.toNat = 256 * b0.toNat + b1.toNat ∧
    (b0 = 0 → c.toNat ≤ 255 ∧ decode (.firstCode 256) (.code16 b0 b1) = .ok (.decFirst c)) ∧
    (b0 ≠ 0 → 256 ≤ c.toNat ∧ decode (.firstCode 256) (.code16 b0 b1) = .ok (.decBadfirst c))

/-- R102: reading back the two bytes `PUT16 c` appends gives `c`; `PUT16 (256 * b0 + b1)` appends `[b0, b1]`;
and every even-length byte sequence is the serialisation of exactly one sequence of codes. -/
def Obligations.CodeBytesAreInverse : Prop :=
  (∀ (c : Code) (s : State), ∃ b0 b1 : Byte,
    exec (.put16 c) s = .next { s with out := s.out ++ [b0, b1] } ∧
    256 * b0.toNat + b1.toNat = c.toNat ∧ codeOfBytes b0 b1 = c) ∧
  (∀ (b0 b1 : Byte) (s : State), ∃ c : Code, c.toNat = 256 * b0.toNat + b1.toNat ∧
    exec (.put16 c) s = .next { s with out := s.out ++ [b0, b1] }) ∧
  (∀ bs : Bytes, bs.length % 2 = 0 → ∃ cs : List Code, ser cs = bs ∧ ∀ cs', ser cs' = bs → cs' = cs)

/-- R103: `des(ser(cs)) = cs`, `ser(des(bs)) = bs` for even lengths, and `ser` of `n` codes is `2n`
bytes. -/
def Obligations.StreamFunctionsAreInverse : Prop :=
  (∀ cs : List Code, des (ser cs) = cs ∧ (ser cs).length = 2 * cs.length) ∧
  (∀ bs : Bytes, bs.length % 2 = 0 → ser (des bs) = bs)

/-! ## The step -/

/-- What a step runs. A host's move runs the decoded first line of the script and takes it off; the
sequencer's move runs the operation decoded from the word at `IPTR` in the state's own context (R111,
R131), and at the end of the input the closing step. With no turn listed the sequencer moves while
`STATE = BUSY` and the host otherwise (log 7). In hand-built states with `IPTR + 1 >= ILEN`, which R58 and
R101 exclude, it is the model's choice that a decoder step is still taken (log 13). -/
def Obligations.StepRunsTheDecodedOperation : Prop :=
  (∀ (s : State) (op : HostOp) (ops : List HostOp) (ts : List Turn), s.script = op :: ops →
    (s.turns = .host :: ts → step s = exec (decodeHostOp op) { s with script := ops, turns := ts }) ∧
    (s.turns = [] → s.busy = false → step s = exec (decodeHostOp op) { s with script := ops })) ∧
  (∀ (s t : State) (ts : List Turn) (i : Instr),
    (s.turns = .sequencer :: ts ∧ t = { s with turns := ts } ∨ s.turns = [] ∧ t = s) →
    (s.phase = .enc → s.iptr < s.ilen.toNat →
      decode (.raw s.ent s.w s.maxsize.toNat) (.byte8 s.inByte) = .ok i → step s = exec i t) ∧
    (s.phase = .dec0 →
      decode (.firstCode s.dlen) (.code16 (s.ibufByte s.iptr) (s.ibufByte (s.iptr + 1))) = .ok i →
      step s = exec i t) ∧
    (s.phase = .dec → s.iptr < s.ilen.toNat →
      decode (.laterCode s.dlen) (.code16 (s.ibufByte s.iptr) (s.ibufByte (s.iptr + 1))) = .ok i →
      step s = exec i t) ∧
    (s.phase = .enc → s.iptr = s.ilen.toNat → s.w = [] → step s = exec .encEnd0 t) ∧
    (s.phase = .enc → s.iptr = s.ilen.toNat → s.w ≠ [] → (s.find s.w).isSome = true →
      step s = exec .encFlush t) ∧
    (s.phase = .enc → s.iptr = s.ilen.toNat → s.w ≠ [] → s.find s.w = none →
      step s = exec .encFault t) ∧
    (s.phase = .dec → s.iptr = s.ilen.toNat → step s = exec .decEnd t))

/-- A word placed for the fetch is what the next step runs: `ENCODE`, `DECODE` or `CMD.RESERVED` for a
32-bit word, `DEC.FIRST` or `DEC.BADFIRST` for a 16-bit word, `ENC.EXTEND` for an 8-bit word. LZW-CORE
stores no program (R24): where a word is placed, and so all of this statement but what the word decodes to,
is the model's choice (log 6, DESIGN CHOICE). Every `IBUF` byte above the placed ones reads as before. -/
def Obligations.FetchedWordIsRun : Prop :=
  ∀ (s : State) (nbits w : Nat) (i : Instr), decodeTableWord nbits w = some i →
    ∃ t : State, step (s.withFetchWord nbits w) = exec i t ∧ t.turns = s.turns ∧
      t.script = s.script ∧ t.replies = s.replies ∧ t.params = s.params ∧ t.maxsize = s.maxsize ∧
      (∀ a, nbits = 32 ∨ nbits = 8 ∧ 1 ≤ a ∨ 2 ≤ a → t.ibuf.read a = s.ibuf.read a)

/-- A block that is not busy does nothing by itself (R40, R180, R189), and a host with no line left
does nothing; whose move it is, is the model's list of turns (log 7). -/
def Obligations.IdleMachineStaysAsItIs : Prop :=
  ∀ s : State, s.busy = false →
    (s.turns = [] → s.script = [] → step s = .next s) ∧
    (∀ ts, s.turns = .sequencer :: ts → step s = .next { s with turns := ts })

/-! ## Reset -/

/-- R40: the values of the reset table, for every instance, and the idle sequencer. `DLEN`, `ENT` and
the buffers are unspecified there and are not named here. -/
def Obligations.ResetGivesTheTablesValues : Prop :=
  ∀ p : Params, ∃ s : State, s = State.resetWith p ∧ s.phase = .idle ∧ s.statusWord = 0 ∧
    s.err = .none ∧ s.cause = .none ∧ s.maxsize.toNat = 4096 ∧ s.ilen = 0 ∧ s.olen = 0 ∧
    s.iptr = 0 ∧ s.w = [] ∧ s.out = [] ∧ sequencerMove s = .next s ∧ s.params = p

/-- R190, R191: a reset in any state, a run in progress or not, gives the reset table's values: `OLEN = 0`,
`STATUS = 0` and no result; the host's own script, turns and record stay. -/
def Obligations.ResetEndsARunWithoutResult : Prop :=
  ∀ (s : State) (ts : List Turn), s.turns = .reset :: ts →
    ∃ t : State, step s = .next t ∧ t.phase = .idle ∧ t.statusWord = 0 ∧ t.maxsize.toNat = 4096 ∧
      t.ilen = 0 ∧ t.olen = 0 ∧ t.iptr = 0 ∧ t.w = [] ∧ t.out = [] ∧ t.result = none ∧
      t.params = s.params ∧ t.script = s.script ∧ t.turns = ts ∧ t.replies = s.replies

/-! ## Bootstrap and serializer -/

/-- R90: after `SEED` the dictionary is exactly the 256 single-byte entries, whatever it held; nothing
else changes; it cannot fail. -/
def Obligations.SeedGivesTheLiterals : Prop :=
  ∀ s : State, ∃ t : State, exec .seed s = .next t ∧ t = { s with ent := t.ent } ∧ t.dlen = 256 ∧
    (∀ i, i < 256 → t.entry i = some [BitVec.ofNat 8 i]) ∧
    (∀ b : Byte, t.find [b] = some b.toNat) ∧
    (∀ x : Bytes, x.length ≠ 1 → t.find x = none)

/-- R100: `PUT16 c` appends `c div 256` and then `c mod 256` to `OUT` and changes nothing else. -/
def Obligations.Put16AppendsHighByteFirst : Prop :=
  ∀ (s : State) (c : Code), exec (.put16 c) s =
    .next { s with out := s.out ++ [BitVec.ofNat 8 (c.toNat / 256), BitVec.ofNat 8 (c.toNat % 256)] }

/-- R101: under its precondition `GET16` returns `256 * b0 + b1` (here in the model's own field `k`,
log 8), adds 2 to `IPTR` and changes nothing else. -/
def Obligations.Get16ReadsHighByteFirst : Prop :=
  ∀ s : State, s.iptr + 1 < s.ilen.toNat →
    ∃ c : Code,
      c.toNat = 256 * (s.ibufByte s.iptr).toNat + (s.ibufByte (s.iptr + 1)).toNat ∧
      exec .get16 s = .next { s with k := c, iptr := s.iptr + 2 }

/-- R110: `ENC.INIT` seeds, empties `W` and `OUT`, sets `IPTR` to 0 and `PHASE` to `ENC`, and changes
nothing else; it does not look at `ILEN`. -/
def Obligations.EncInitStartsAnEncodeRun : Prop :=
  ∀ s : State, ∃ t : State, exec .encInit s = .next t ∧
    t = { s with ent := t.ent, w := [], iptr := 0, out := [], phase := .enc } ∧ t.dlen = 256 ∧
    (∀ i, i < 256 → t.entry i = some [BitVec.ofNat 8 i])

/-- R130: `DEC.INIT` raises cause 2 on the empty stream and cause 3 on an odd length, in each case with
`OLEN = 0` and the dictionary, `W` and `IPTR` as they were; otherwise it seeds and starts. (`OUT` is
dropped at a fault, R180.) -/
def Obligations.DecInitChecksTheLength : Prop :=
  ∀ s : State,
    (s.ilen.toNat = 0 → ∃ t : State, exec .decInit s = .next t ∧ t = { s with
      err := .decompression, cause := .decEmpty, olen := 0, phase := .fail, out := t.out,
      epoch := t.epoch }) ∧
    (s.ilen.toNat % 2 = 1 → ∃ t : State, exec .decInit s = .next t ∧ t = { s with
      err := .decompression, cause := .decOddLength, olen := 0, phase := .fail, out := t.out,
      epoch := t.epoch }) ∧
    (s.ilen.toNat ≠ 0 → s.ilen.toNat % 2 = 0 → ∃ t : State, exec .decInit s = .next t ∧
      t = { s with ent := t.ent, w := [], iptr := 0, out := [], phase := .dec0 } ∧ t.dlen = 256 ∧
      (∀ i, i < 256 → t.entry i = some [BitVec.ofNat 8 i]))

/-! ## Encoder -/

/-- R112: `ENC.EXTEND` where `W ++ [k]` is an entry; an empty `W` is such a case whenever `[k]` is a literal
entry. -/
def Obligations.EncExtendGrowsTheMatch : Prop :=
  ∀ (s : State) (k : Byte), s.phase = .enc → s.iptr < s.ilen.toNat → s.ibufByte s.iptr = k →
    ((s.find (s.w ++ [k])).isSome = true ∨ s.w = [] ∧ s.entry k.toNat = some [k]) →
    exec (.encExtend k) s = .next { s with w := s.w ++ [k], iptr := s.iptr + 1 }

/-- R113: `ENC.EMIT.INS` appends the code of `W` (not of `W ++ [k]`), inserts `W ++ [k]` at the index `DLEN`
had, and restarts the match at `k`. In hand-built states whose dictionary has more than 65536 entries the
code is narrowed to 16 bits, which is the model's deduction (log 16, DEDUCED, unsafe there), not R113's. -/
def Obligations.EncEmitInsEmitsThenInserts : Prop :=
  ∀ (s : State) (k : Byte) (c : Nat), s.phase = .enc → s.iptr < s.ilen.toNat →
    s.ibufByte s.iptr = k → s.find (s.w ++ [k]) = none → s.find s.w = some c →
    s.dlen < s.maxsize.toNat →
    exec (.encEmitIns k) s = .next { s with
      out := s.out ++ codeBytes (BitVec.ofNat 16 c), ent := s.ent ++ [s.w ++ [k]], w := [k],
      iptr := s.iptr + 1 }

/-- R114: `ENC.EMIT.FRZ` appends the code of `W` and restarts the match at `k`; the full dictionary does
not change. In hand-built states whose dictionary has more than 65536 entries the code is narrowed to 16
bits, which is the model's deduction (log 16, DEDUCED, unsafe there), not R114's. -/
def Obligations.EncEmitFrzEmitsWithoutInserting : Prop :=
  ∀ (s : State) (k : Byte) (c : Nat), s.phase = .enc → s.iptr < s.ilen.toNat →
    s.ibufByte s.iptr = k → s.find (s.w ++ [k]) = none → s.find s.w = some c → s.full = true →
    exec (.encEmitFrz k) s = .next { s with
      out := s.out ++ codeBytes (BitVec.ofNat 16 c), w := [k], iptr := s.iptr + 1 }

/-- R115 with the commit of R66: `ENC.FLUSH` appends the code of the pending match and commits; the run's
result is `OUT` with the code; nothing is inserted. An output beyond `OBUF_CAP` or the register `OLEN` is
refused (U5, U18; log 14). That `ENT`, `W`, `IPTR` and `OUT` keep their values in `DONE`, where R17, R38 (b)
and U9 leave them open, is the model's choice (log 10), not these rules'. In hand-built states whose
dictionary has more than 65536 entries the code is narrowed to 16 bits, which is the model's deduction
(log 16, DEDUCED, unsafe there), not R115's. -/
def Obligations.EncFlushEmitsAndCommits : Prop :=
  ∀ (s : State) (c : Nat) (out : Bytes), s.phase = .enc → s.iptr = s.ilen.toNat → s.w ≠ [] →
    s.find s.w = some c → out = s.out ++ codeBytes (BitVec.ofNat 16 c) →
    (s.canDeliver out = true → ∃ t : State, exec .encFlush s = .next t ∧
      t = { s with out := out, obuf := t.obuf, olen := t.olen, phase := .done, epoch := t.epoch } ∧
      t.olen.toNat = out.length ∧ t.output = out ∧ (∀ a, t.ibufByte a = s.ibufByte a)) ∧
    (s.canDeliver out = false → exec .encFlush s = .refused .outputBeyondCapacity)

/-- R116 with the commit of R66: `ENC.END0` commits the empty output of the empty input, and `DEC.END`
(R139) commits `OUT`. An output beyond `OBUF_CAP` or the register `OLEN` is refused (U5, U18; log 14). That
`ENT`, `W`, `IPTR` and `OUT` keep their values in `DONE`, where R17, R38 (b) and U9 leave them open, is the
model's choice (log 10), not these rules'. -/
def Obligations.ClosingStepsCommit : Prop :=
  ∀ s : State, s.iptr = s.ilen.toNat →
    (s.canDeliver s.out = true →
    (s.phase = .enc → s.w = [] → ∃ t : State, exec .encEnd0 s = .next t ∧
      t = { s with obuf := t.obuf, olen := t.olen, phase := .done, epoch := t.epoch } ∧
      t.olen.toNat = s.out.length ∧ t.output = s.out ∧ (∀ a, t.ibufByte a = s.ibufByte a)) ∧
    (s.phase = .dec → ∃ t : State, exec .decEnd s = .next t ∧
      t = { s with obuf := t.obuf, olen := t.olen, phase := .done, epoch := t.epoch } ∧
      t.olen.toNat = s.out.length ∧ t.output = s.out ∧ (∀ a, t.ibufByte a = s.ibufByte a))) ∧
    (s.canDeliver s.out = false →
    (s.phase = .enc → s.w = [] → exec .encEnd0 s = .refused .outputBeyondCapacity) ∧
    (s.phase = .dec → exec .decEnd s = .refused .outputBeyondCapacity))

/-- R117: in a state in which a code is due and the match is not in the dictionary, `ENC.FAULT` is the
step and raises Compression with cause 1. With no turn listed (the model's default order, log 7) it is the
step the machine takes. -/
def Obligations.EncFaultRaisesCompression : Prop :=
  ∀ s : State, s.phase = .enc → s.find s.w = none →
    (s.iptr = s.ilen.toNat ∧ s.w ≠ [] ∨
      s.iptr < s.ilen.toNat ∧ s.find (s.w ++ [s.ibufByte s.iptr]) = none) →
    ∃ t : State, exec .encFault s = .next t ∧ t = { s with
      err := .compression, cause := .encLookupMiss, olen := 0, phase := .fail, out := t.out,
      epoch := t.epoch } ∧
    (s.turns = [] → step s = exec .encFault s)

/-! ## Decoder -/

/-- R132: `DEC.FIRST`; nothing is inserted. In hand-built states with `IPTR + 1 >= ILEN`, which R58 and R101
exclude, it is the model's choice that the step runs (log 13). -/
def Obligations.DecFirstEmitsTheEntry : Prop :=
  ∀ (s : State) (c : Code) (entry : Bytes), s.phase = .dec0 →
    c.toNat = 256 * (s.ibufByte s.iptr).toNat + (s.ibufByte (s.iptr + 1)).toNat →
    s.entry c.toNat = some entry →
    exec (.decFirst c) s = .next { s with
      k := c, iptr := s.iptr + 2, out := s.out ++ entry, w := entry, phase := .dec }

/-- R133 and R138: `DEC.BADFIRST` and `DEC.BAD` read the code and raise Decompression with cause 4 and 5;
the dictionary, `W`, `IBUF`, `MAXSIZE` and `ILEN` are unchanged and `OLEN` is 0. In hand-built states with
`IPTR + 1 >= ILEN`, which R58 and R101 exclude, it is the model's choice that the steps run (log 13). -/
def Obligations.BadCodesRaiseDecompression : Prop :=
  ∀ (s : State) (c : Code),
    c.toNat = 256 * (s.ibufByte s.iptr).toNat + (s.ibufByte (s.iptr + 1)).toNat →
    (s.phase = .dec0 → s.dlen ≤ c.toNat → ∃ t : State, exec (.decBadfirst c) s = .next t ∧
      t = { s with err := .decompression, cause := .decBadFirstCode, olen := 0, phase := .fail,
                   iptr := s.iptr + 2, k := c, out := t.out, epoch := t.epoch }) ∧
    (s.phase = .dec → s.iptr < s.ilen.toNat → s.dlen < c.toNat →
      ∃ t : State, exec (.decBad c) s = .next t ∧
      t = { s with err := .decompression, cause := .decBadCode, olen := 0, phase := .fail,
                   iptr := s.iptr + 2, k := c, out := t.out, epoch := t.epoch })

/-- R135 with R137: `DEC.KNOWN` emits `ENT[k]`; below the cap it inserts the old `W` plus the entry's first
byte; then `W` is the entry. In hand-built states with `IPTR + 1 >= ILEN`, which R58 and R101 exclude, it is
the model's choice that the step runs (log 13). -/
def Obligations.DecKnownEmitsTheEntry : Prop :=
  ∀ (s : State) (c : Code) (b : Byte) (bs : Bytes), s.phase = .dec → s.iptr < s.ilen.toNat →
    c.toNat = 256 * (s.ibufByte s.iptr).toNat + (s.ibufByte (s.iptr + 1)).toNat →
    s.entry c.toNat = some (b :: bs) →
    exec (.decKnown c) s = .next { s with
      k := c, iptr := s.iptr + 2, out := s.out ++ (b :: bs), w := b :: bs,
      ent := if s.dlen < s.maxsize.toNat then s.ent ++ [s.w ++ [b]] else s.ent }

/-- R136 with R137: `DEC.NEXT` emits `W ++ [W[0]]`, whether or not the dictionary is full; below the cap it
inserts the same sequence, at the index the code names. In hand-built states with `IPTR + 1 >= ILEN`, which
R58 and R101 exclude, it is the model's choice that the step runs (log 13). -/
def Obligations.DecNextRebuildsTheEntry : Prop :=
  ∀ (s : State) (c : Code) (b : Byte) (bs : Bytes), s.phase = .dec → s.iptr < s.ilen.toNat →
    c.toNat = 256 * (s.ibufByte s.iptr).toNat + (s.ibufByte (s.iptr + 1)).toNat →
    c.toNat = s.dlen → s.w = b :: bs →
    ∃ t : State, exec (.decNext c) s = .next t ∧ t = { s with
      k := c, iptr := s.iptr + 2, out := s.out ++ (s.w ++ [b]), w := s.w ++ [b],
      ent := if s.dlen < s.maxsize.toNat then s.ent ++ [s.w ++ [b]] else s.ent } ∧
    (s.dlen < s.maxsize.toNat → t.entry c.toNat = some (s.w ++ [b]))

/-- R137: `DEC.TAIL(entry)` on a non-empty entry; the inserted sequence is the OLD `W` plus one byte. An empty
entry has no first byte and is refused by name (log 13). -/
def Obligations.DecTailInsertsTheOldMatch : Prop :=
  (∀ (s : State) (b : Byte) (bs : Bytes), exec (.decTail (b :: bs)) s = .next { s with
      out := s.out ++ (b :: bs), w := b :: bs,
      ent := if s.dlen < s.maxsize.toNat then s.ent ++ [s.w ++ [b]] else s.ent }) ∧
  (∀ s : State, exec (.decTail []) s = .refused .emptySequence)

/-! ## Host interface -/

/-- R153: in a state that accepts commands, `ENCODE` clears `ERR`, `CAUSE` and `OLEN` and runs `ENC.INIT`,
in one step, and so does a write of `0x00000001` to register 0. -/
def Obligations.EncodeCommandStartsARun : Prop :=
  ∀ s : State, CommandLegal s → ∃ t : State, exec .encode s = .next t ∧
    exec (.wr 0 0x00000001#32) s = .next t ∧
    t = { s with err := .none, cause := .none, olen := 0, ent := t.ent, w := [], iptr := 0, out := [],
                 phase := .enc } ∧
    t.dlen = 256 ∧ (∀ i, i < 256 → t.entry i = some [BitVec.ofNat 8 i]) ∧ t.statusWord = 1

/-- R154: in a state that accepts commands, `DECODE` clears `ERR`, `CAUSE` and `OLEN` and runs `DEC.INIT`, in
one step, and so does a write of `0x00000002` to register 0; on a bad length the run ends inside the
command step. -/
def Obligations.DecodeCommandStartsOrFails : Prop :=
  ∀ s : State, CommandLegal s → ∃ t : State, exec .decode s = .next t ∧
    exec (.wr 0 0x00000002#32) s = .next t ∧
    (s.ilen.toNat = 0 → t.statusWord = 0x2B#32 ∧ t.phase = .fail ∧
      t.ent = s.ent ∧ t.w = s.w ∧ t.iptr = s.iptr) ∧
    (s.ilen.toNat % 2 = 1 → t.statusWord = 0x3B#32 ∧ t.phase = .fail ∧
      t.ent = s.ent ∧ t.w = s.w ∧ t.iptr = s.iptr) ∧
    (s.ilen.toNat ≠ 0 → s.ilen.toNat % 2 = 0 → t.statusWord = 1 ∧ t.phase = .dec0 ∧ t.dlen = 256 ∧
      (∀ i, i < 256 → t.entry i = some [BitVec.ofNat 8 i]) ∧ t.w = [] ∧ t.iptr = 0 ∧ t.out = []) ∧
    t = { s with err := t.err, cause := t.cause, olen := 0, ent := t.ent, w := t.w, iptr := t.iptr,
                 out := t.out, phase := t.phase, epoch := t.epoch }

/-- When a command is not accepted (R153 to R156, R199; U1, U2, U4, U7): a reserved word always, and the two
commands exactly when `STATE = BUSY`, `MAXSIZE` is illegal or the input exceeds the capacity. The names of
the refusals are the model's, and that a reserved word written while `STATE = BUSY`, which U2 and U7 both
refuse, is refused as a write while busy is its choice (log 14, DESIGN CHOICE). -/
def Obligations.CommandsWithoutMeaningAreRefused : Prop :=
  (∀ (s : State) (v : Word),
    (s.busy = false → exec (.cmdReserved v) s = .refused (.reservedCommand v)) ∧
    (s.busy = true → exec (.cmdReserved v) s = .refused .writeWhileBusy)) ∧
  (∀ (s : State) (v : Word), v ≠ 1 → v ≠ 2 →
    (s.busy = false → exec (.wr 0 v) s = .refused (.reservedCommand v)) ∧
    (s.busy = true → exec (.wr 0 v) s = .refused .writeWhileBusy)) ∧
  (∀ s : State, ((∃ r, exec .encode s = .refused r) ↔ ¬ CommandLegal s) ∧
    ((∃ r, exec .decode s = .refused r) ↔ ¬ CommandLegal s))

/-- R150: what a register read returns. While `STATE != BUSY` the four registers and the constant 0 of
`CMD`; `RD 1` in every phase. While `STATE = BUSY` the others return some word, which this statement
leaves open; that they are not refused is the model's choice (U3, log 9). No read changes the block's
state. Register 5 and up is refused (U8; the name is the model's, log 14). That `RD 4` returns the committed `OLEN` in `DONE` even before a
`STATUS` read has returned `DONE`, where R195 promises nothing, is the model's choice (log 20). -/
def Obligations.RegisterReadsReturnTheRegisters : Prop :=
  ∀ s : State,
    exec (.rd 1) s = .next { s with replies := s.replies ++ [.word 1 s.statusWord] } ∧
    (s.busy = false →
      exec (.rd 0) s = .next { s with replies := s.replies ++ [.word 0 0] } ∧
      exec (.rd 2) s = .next { s with replies := s.replies ++ [.word 2 (BitVec.ofNat 32 s.maxsize.toNat)] } ∧
      exec (.rd 3) s = .next { s with replies := s.replies ++ [.word 3 s.ilen] } ∧
      exec (.rd 4) s = .next { s with replies := s.replies ++ [.word 4 s.olen] }) ∧
    (s.busy = true → ∀ r, r = 0 ∨ r = 2 ∨ r = 3 ∨ r = 4 → ∃ v : Word,
      exec (.rd r) s = .next { s with replies := s.replies ++ [.word r v], busyReads := s.busyReads + 1 }) ∧
    (∀ r, 5 ≤ r → exec (.rd r) s = .refused (.reservedRegister r))

/-- R29: the word `RD 1` returns, field by field: `STATE` from `PHASE`, `ERR`, `CAUSE`, and bits [31:8]
zero. -/
def Obligations.StatusWordHasItsFields : Prop :=
  ∀ s : State,
    s.statusWord.extractLsb' 0 2 = BitVec.ofNat 2 (match s.phase with
      | .idle => 0 | .enc => 1 | .dec0 => 1 | .dec => 1 | .done => 2 | .fail => 3) ∧
    s.statusWord.extractLsb' 2 2 = BitVec.ofNat 2 (match s.err with
      | .none => 0 | .compression => 1 | .decompression => 2) ∧
    s.statusWord.extractLsb' 4 4 = BitVec.ofNat 4 (match s.cause with
      | .none => 0 | .encLookupMiss => 1 | .decEmpty => 2 | .decOddLength => 3
      | .decBadFirstCode => 4 | .decBadCode => 5) ∧
    s.statusWord.extractLsb' 8 24 = 0

/-- R151: a register write while `STATE != BUSY`. `MAXSIZE` takes bits [16:0] unclamped where bits [31:17]
are zero, `ILEN` takes the word, `STATUS` and `OLEN` ignore it; nothing else changes. Register 5 and
up, and a `MAXSIZE` word with bits above 16, are refused, and so is every write while `STATE = BUSY`. In
every state a write to register 0 is the operation its word decodes to. R151 gives register 5 and up, the
`MAXSIZE` word with bits above 16 and a write while `STATE = BUSY` no meaning. U2, U7 and U8 say refuse; that
the model refuses the `MAXSIZE` word, and `STATUS` and `OLEN` while `STATE = BUSY`, for which no entry says
so, is its deduction, the refusals' names are its own, and that a write while `STATE = BUSY` has that name
whatever its register and word is its choice (log 14, DEDUCED and DESIGN CHOICE). -/
def Obligations.RegisterWritesStoreOrAreIgnored : Prop :=
  (∀ (s : State) (r : Nat) (v : Word), s.busy = true → exec (.wr r v) s = .refused .writeWhileBusy) ∧
  (∀ (s : State) (v : Word), exec (.wr 0 v) s = exec (decodeCmd v) s) ∧
  ∀ (s : State) (v : Word), s.busy = false →
    exec (.wr 1 v) s = .next s ∧
    exec (.wr 3 v) s = .next { s with ilen := v } ∧
    exec (.wr 4 v) s = .next s ∧
    (v.toNat < 131072 → ∃ t : State, exec (.wr 2 v) s = .next t ∧ t = { s with maxsize := t.maxsize } ∧
      t.maxsize.toNat = v.toNat) ∧
    (131072 ≤ v.toNat → exec (.wr 2 v) s = .refused (.reservedBits v)) ∧
    (∀ r, 5 ≤ r → exec (.wr r v) s = .refused (.reservedRegister r))

/-- R152: `LDIN` stores its bytes in `IBUF` from its offset on; every other byte of `IBUF` reads as before, and
nothing else changes, `ILEN` included. R50 and R152 give the offsets that exist and no outcome beyond them:
that such an access faults is the model's deduction (log 15). -/
def Obligations.LdinStoresItsBytesOnly : Prop :=
  ∀ (s : State) (off : Nat) (bs : Bytes) (f : LdinForm), s.busy = false →
    (f = .block bs ∧ off = 0 ∨ ∃ b, f = .byteAt off b ∧ bs = [b]) →
    (withinCap s.params.ibufCap (off + bs.length) = true → ∃ t : State,
      exec (.ldin f) s = .next t ∧ t = { s with ibuf := t.ibuf } ∧
      (∀ i, i < bs.length → some (t.ibufByte (off + i)) = bs[i]?) ∧
      (∀ a, a < off ∨ off + bs.length ≤ a → t.ibufByte a = s.ibufByte a) ∧
      (s.ibuf.wf = true → t.ibuf.wf = true)) ∧
    (withinCap s.params.ibufCap (off + bs.length) = false →
      ∃ a, exec (.ldin f) s = .fault (.noSuchOffset .ibuf a))

/-- R152: a buffer read while `STATE != BUSY` returns the bytes and changes nothing; `RDOUT OLEN` after a run
returns its whole output, even before a `STATUS` read has returned `DONE`, where R195 promises nothing (the
model's choice, log 20). While `STATE = BUSY` every form returns bytes this statement leaves open, and
`RDOUT OLEN` any number of them (U3; that the read is not refused is the model's choice, log 9). R50 and
R152 give the offsets that exist and no outcome beyond them: that such an access faults, in every form and
while `STATE = BUSY` too, is the model's deduction (log 15). -/
def Obligations.RdoutReturnsTheBytes : Prop :=
  ∀ s : State,
    (s.busy = false →
      (∀ n, withinCap s.params.obufCap n = true → exec (.rdout (.block n)) s =
        .next { s with replies := s.replies ++ [.bytes ((List.range n).map s.obufByte)] }) ∧
      (withinCap s.params.obufCap s.olen.toNat = true → exec (.rdout .olen) s =
        .next { s with replies := s.replies ++ [.bytes s.output] }) ∧
      (∀ a, withinCap s.params.obufCap (a + 1) = true → exec (.rdout (.outByte a)) s =
        .next { s with replies := s.replies ++ [.bytes [s.obufByte a]] }) ∧
      (∀ a, withinCap s.params.ibufCap (a + 1) = true → exec (.rdout (.inByte a)) s =
        .next { s with replies := s.replies ++ [.bytes [s.ibufByte a]] })) ∧
    (s.busy = true →
      (∀ n, withinCap s.params.obufCap n = true → ∃ bs : Bytes, bs.length = n ∧
        exec (.rdout (.block n)) s = .next { s with
          replies := s.replies ++ [.bytes bs], busyReads := s.busyReads + 1 }) ∧
      (∃ bs : Bytes, exec (.rdout .olen) s = .next { s with
        replies := s.replies ++ [.bytes bs], busyReads := s.busyReads + 1 }) ∧
      (∀ a, withinCap s.params.obufCap (a + 1) = true → ∃ b : Byte,
        exec (.rdout (.outByte a)) s = .next { s with
          replies := s.replies ++ [.bytes [b]], busyReads := s.busyReads + 1 }) ∧
      (∀ a, withinCap s.params.ibufCap (a + 1) = true → ∃ b : Byte,
        exec (.rdout (.inByte a)) s = .next { s with
          replies := s.replies ++ [.bytes [b]], busyReads := s.busyReads + 1 })) ∧
    (∀ n, withinCap s.params.obufCap n = false →
      ∃ a, exec (.rdout (.block n)) s = .fault (.noSuchOffset .obuf a)) ∧
    (s.busy = false → withinCap s.params.obufCap s.olen.toNat = false →
      ∃ a, exec (.rdout .olen) s = .fault (.noSuchOffset .obuf a)) ∧
    (∀ a, withinCap s.params.obufCap (a + 1) = false →
      exec (.rdout (.outByte a)) s = .fault (.noSuchOffset .obuf a)) ∧
    (∀ a, withinCap s.params.ibufCap (a + 1) = false →
      exec (.rdout (.inByte a)) s = .fault (.noSuchOffset .ibuf a))

/-- R82, R157: `WAIT` reads `STATUS` once, and stays in the script exactly while `STATE = BUSY`. That the line
makes one read at each of its steps and stands in the script meanwhile is how the model writes the polling
(log 5, DESIGN CHOICE). -/
def Obligations.WaitPollsUntilNotBusy : Prop :=
  ∀ s : State,
    (s.busy = true → exec .wait s = .next { s with
      replies := s.replies ++ [.word 1 s.statusWord], script := .wait :: s.script }) ∧
    (s.busy = false → exec .wait s = .next { s with
      replies := s.replies ++ [.word 1 s.statusWord] })

/-- R83: `encode(b)` and `decode(b)` expand to their seven lines, for every `b` whose length a length register
can hold. That the expansion is a step of its own, which replaces the line in the model's field `script`, and
that it is taken in every phase, `BUSY` included, is the model's choice (log 5, DESIGN CHOICE), not R83's. A
`b` of `2^32` bytes or more, for which `WR ILEN, |b|` has no value, is refused (log 3, DESIGN CHOICE). -/
def Obligations.PseudoOperationsExpand : Prop :=
  ∀ (s : State) (b : Bytes),
    (b.length < 2 ^ 32 →
    exec (.encodeB b) s = .next { s with script :=
      [.ldin (.block b), .wr 3 (BitVec.ofNat 32 b.length), .wr 0 0x00000001#32, .wait, .rd 1, .rd 4,
       .rdout .olen] ++ s.script } ∧
    exec (.decodeB b) s = .next { s with script :=
      [.ldin (.block b), .wr 3 (BitVec.ofNat 32 b.length), .wr 0 0x00000002#32, .wait, .rd 1, .rd 4,
       .rdout .olen] ++ s.script }) ∧
    (2 ^ 32 ≤ b.length → exec (.encodeB b) s = .refused .lengthBeyondRegister ∧
      exec (.decodeB b) s = .refused .lengthBeyondRegister)

/-- R196: while `STATE = BUSY` every write and every command is refused, whatever its operands. -/
def Obligations.WritesWhileBusyAreRefused : Prop :=
  ∀ s : State, s.busy = true →
    (∀ r v, exec (.wr r v) s = .refused .writeWhileBusy) ∧
    (∀ f, exec (.ldin f) s = .refused .writeWhileBusy) ∧
    exec .encode s = .refused .writeWhileBusy ∧ exec .decode s = .refused .writeWhileBusy ∧
    (∀ v, exec (.cmdReserved v) s = .refused .writeWhileBusy)

/-! ## Memory -/

/-- R14: `MemWrite` then `MemRead` of the same bytes gives them back, every other byte of that buffer and all of
the other buffer (R50: they do not overlap) reads as before, nothing but the buffer changes, and the
canonical form is kept (log 4). Of `OBUF` the read-back is stated below `OLEN`; above it R38 leaves every
byte unspecified. -/
def Obligations.MemWriteThenMemRead : Prop :=
  ∀ (s : State) (addr : Nat) (bs : Bytes),
    (∃ t : State, s.memWrite .ibuf addr bs = t ∧ t = { s with ibuf := t.ibuf } ∧
      t.memRead .ibuf addr bs.length = bs ∧
      (∀ a n, a + n ≤ addr ∨ addr + bs.length ≤ a → t.memRead .ibuf a n = s.memRead .ibuf a n) ∧
      (∀ a n, t.memRead .obuf a n = s.memRead .obuf a n) ∧
      (s.ibuf.wf = true → t.ibuf.wf = true)) ∧
    (∃ t : State, s.memWrite .obuf addr bs = t ∧ t = { s with obuf := t.obuf } ∧
      (addr + bs.length ≤ s.olen.toNat → t.memRead .obuf addr bs.length = bs) ∧
      (∀ a n, a + n ≤ addr ∨ addr + bs.length ≤ a → t.memRead .obuf a n = s.memRead .obuf a n) ∧
      (∀ a n, t.memRead .ibuf a n = s.memRead .ibuf a n) ∧
      (s.obuf.wf = true → t.obuf.wf = true))

/-- Equal contents are equal data: two canonical buffers that read alike everywhere are the same list. -/
def Obligations.CanonicalBuffersAreDeterminedByReads : Prop :=
  ∀ m n : Memory, m.wf = true → n.wf = true → (∀ a, m.read a = n.read a) → m = n

/-! ## Whole-machine rules -/

/-- The invariant holds after reset, for every instance. -/
def Obligations.ResetMeetsTheInvariant : Prop :=
  ∀ p : Params, Inv (State.resetWith p)

/-- Every step keeps the invariant: R29, R32 to R35, R123 to R125 and R141 hold of every state a machine in
a good state goes to, whoever moves. That `OUT` is kept after a commit is the model's choice (log 10). -/
def Obligations.StepKeepsTheInvariant : Prop :=
  ∀ s t : State, Inv s → step s = .next t → Inv t

/-- R172 (with R123 (b)): in a state that meets the invariant `ENC.FAULT` is never selected, and no sequencer
step makes an encode run fail. -/
def Obligations.CompressionErrorIsUnreachable : Prop :=
  ∀ s : State, Inv s → s.phase = .enc →
    seqSelect s ≠ some .encFault ∧ (∀ t, sequencerMove s = .next t → t.phase ≠ .fail ∧ t.err = .none)

/-- R157: in a state that meets the invariant a busy sequencer's next step is enabled; the one thing that can
stop it is an output that does not fit (U5, U18), at a closing step: the output that step would commit is
then not deliverable. -/
def Obligations.BusySequencerAlwaysSteps : Prop :=
  ∀ s : State, Inv s → s.busy = true →
    (∃ t, sequencerMove s = .next t) ∨
    (s.iptr = s.ilen.toNat ∧ sequencerMove s = .refused .outputBeyondCapacity ∧
      (s.phase = .enc ∧ s.w ≠ [] ∧ (∃ c, s.find s.w = some c ∧
          s.canDeliver (s.out ++ codeBytes (BitVec.ofNat 16 c)) = false) ∨
        (s.phase = .enc ∧ s.w = [] ∨ s.phase = .dec) ∧ s.canDeliver s.out = false))

/-- R33: during a run an entry is never changed or removed, and a sequencer step adds at most one, and only
below the cap; R30: it changes none of `MAXSIZE`, `ILEN`, `IBUF`; R65: until the end it does not touch
`OBUF` or `OLEN`. -/
def Obligations.SequencerOnlyAppendsEntries : Prop :=
  ∀ s t : State, s.busy = true → sequencerMove s = .next t →
    (t.ent = s.ent ∨ s.dlen < s.maxsize.toNat ∧ ∃ e, e ≠ [] ∧ t.ent = s.ent ++ [e]) ∧
    t.maxsize = s.maxsize ∧ t.ilen = s.ilen ∧ t.ibuf = s.ibuf ∧ t.params = s.params ∧
    t.script = s.script ∧ t.replies = s.replies ∧
    (t.busy = true → t.obuf = s.obuf ∧ t.olen = s.olen ∧ t.err = s.err ∧ t.cause = s.cause ∧
      s.iptr < t.iptr)

/-- R158: whatever the host does while a run is in progress, no piece of the block's state changes. R150, R152 and
R196 give a read of anything but `STATUS` there no meaning: that it leaves the run undisturbed is the
model's choice (log 9, unsafe), not a rule's. -/
def Obligations.HostCannotDisturbARun : Prop :=
  ∀ s t : State, s.busy = true → hostMove s = .next t →
    t = { s with script := t.script, replies := t.replies, busyReads := t.busyReads }

/-- R181: `DONE` and `FAIL` are left only by a command or by reset: a step from there that starts no run and
is no reset leaves `PHASE`, `ERR`, `CAUSE` and `OLEN` as they are. -/
def Obligations.EndedRunsStayUntilACommand : Prop :=
  ∀ s t : State, s.phase = .done ∨ s.phase = .fail → step s = .next t →
    (∀ ts, s.turns ≠ .reset :: ts) → (∀ v ops, s.script ≠ .wr 0 v :: ops) →
    t.phase = s.phase ∧ t.err = s.err ∧ t.cause = s.cause ∧ t.olen = s.olen ∧
      t.obuf = s.obuf ∧ (∀ a, t.obufByte a = s.obufByte a)

/-- R193, R39: a run takes nothing from before its command but `MAXSIZE`, `ILEN`, the input and the capacities:
two states that agree on those give, after the same number of sequencer steps of the run a command
starts, the same phase, flags, output length and output. With no turn and no script line listed the steps
are the sequencer's (the model's default order, log 7). -/
def Obligations.RunDependsOnItsInputsOnly : Prop :=
  ∀ (i : Instr) (s₁ s₂ t₁ t₂ u₁ u₂ : State) (n : Nat), i = .encode ∨ i = .decode →
    s₁.maxsize = s₂.maxsize → s₁.ilen = s₂.ilen → s₁.params = s₂.params → s₁.input = s₂.input →
    s₁.turns = [] → s₂.turns = [] → s₁.script = [] → s₂.script = [] →
    exec i s₁ = .next t₁ → exec i s₂ = .next t₂ →
    Host.Core.run Sys2Proof.core n t₁ = .next u₁ → Host.Core.run Sys2Proof.core n t₂ = .next u₂ →
    u₁.phase = u₂.phase ∧ u₁.statusWord = u₂.statusWord ∧ u₁.olen = u₂.olen ∧
      (u₁.phase = .done → u₁.output = u₂.output)

/-! ## What a run computes -/

/-- R119, R121, R153: from every state that accepts it, the `ENCODE` command and then exactly `ILEN + 1`
sequencer steps end in `DONE` with the encode function's value as the output; before that the phase is
`ENC`. The premise that no turn is listed is the model's default order of moves (log 7). -/
def Obligations.EncodeRunComputesEncode : Prop :=
  ∀ (s : State) (out : Bytes), CommandLegal s → s.turns = [] →
    encodeFn s.maxsize.toNat s.input = some out → s.canDeliver out = true →
    ∃ u t : State, exec .encode s = .next u ∧
      Host.Core.run Sys2Proof.core (s.ilen.toNat + 1) u = .next t ∧
      t.phase = .done ∧ t.result = some (.none, BitVec.ofNat 32 out.length, out) ∧ t.statusWord = 2 ∧
      (∀ n, n ≤ s.ilen.toNat → ∃ v : State,
        Host.Core.run Sys2Proof.core n u = .next v ∧ v.phase = .enc ∧ v.iptr = n)

/-- R140, R145, R154: from every state that accepts it, the `DECODE` command and then at most `ILEN / 2 + 1`
sequencer steps end in `DONE` with the decode function's value where it has one, and in `FAIL` with
kind Decompression, `OLEN = 0` and no output where it has none. The premise that no turn is listed is the
model's default order of moves (log 7). -/
def Obligations.DecodeRunComputesDecode : Prop :=
  ∀ s : State, CommandLegal s → s.turns = [] →
    (∀ out, decodeFn s.maxsize.toNat s.input = some out → s.canDeliver out = true →
      ∃ u t : State, exec .decode s = .next u ∧
        Host.Core.run Sys2Proof.core (s.ilen.toNat / 2 + 1) u = .next t ∧
        t.phase = .done ∧ t.result = some (.none, BitVec.ofNat 32 out.length, out) ∧ t.statusWord = 2) ∧
    (decodeFn s.maxsize.toNat s.input = none →
      ∃ (u t : State) (n : Nat), exec .decode s = .next u ∧ n ≤ s.ilen.toNat / 2 + 1 ∧
        Host.Core.run Sys2Proof.core n u = .next t ∧
        t.phase = .fail ∧ t.result = some (.decompression, 0, []))

/-- R142: for every legal `MAXSIZE` and every non-empty input the encoder succeeds, and the decoder with the
same `MAXSIZE` gives the input back. -/
def Obligations.DecodeOfEncodedStreamIsTheInput : Prop :=
  ∀ (m : Nat) (b : Bytes), 256 ≤ m → m ≤ 65536 → b ≠ [] →
    ∃ stream : Bytes, encodeFn m b = some stream ∧ decodeFn m stream = some b

/-- R119 and R125: the encode function has a value for every input, of between 1 and `|b|` codes when the input
is non-empty, and of none when it is empty. -/
def Obligations.EncoderHasNoReachableError : Prop :=
  ∀ (m : Nat) (b : Bytes), 256 ≤ m → m ≤ 65536 →
    ∃ out : Bytes, encodeFn m b = some out ∧ out.length % 2 = 0 ∧ out.length ≤ 2 * b.length ∧
      (b ≠ [] → 2 ≤ out.length)

/-- R200: the empty input encodes to the empty stream, and the decoder rejects the empty stream. -/
def Obligations.EmptyInputDoesNotRoundTrip : Prop :=
  ∀ m : Nat, encodeFn m [] = some [] ∧ decodeFn m [] = none

/-- R144: a successful decode of `n` codes yields between `n` and `n(n + 1)/2` bytes. -/
def Obligations.DecodedLengthIsBounded : Prop :=
  ∀ (m : Nat) (s out : Bytes), 256 ≤ m → m ≤ 65536 → decodeFn m s = some out →
    s.length / 2 ≤ out.length ∧ 2 * out.length ≤ (s.length / 2) * (s.length / 2 + 1)

/-- R159 with R83: the script line `encode(b)`, run by the machine alone from any state that accepts commands,
ends with the block in `DONE` and the host holding `STATUS = 2`, the length and the whole output. That `WAIT`
records one `STATUS` word and none of `BUSY` rests on the model's default order of moves (no turn listed,
log 7); R158 leaves the number of polls open. Script and record are the model's fields (log 5). -/
def Obligations.CompressScriptReturnsTheStream : Prop :=
  ∀ (s : State) (b out : Bytes) (rest : List HostOp), s.busy = false → s.maxsizeLegal = true →
    s.turns = [] → s.script = .encodeB b :: rest → b.length < 2 ^ 32 →
    withinCap s.params.ibufCap b.length = true →
    encodeFn s.maxsize.toNat b = some out → s.canDeliver out = true →
    ∃ (n : Nat) (t : State), Host.Core.run Sys2Proof.core n s = .next t ∧ t.phase = .done ∧
      t.script = rest ∧ t.replies = s.replies ++
        [.word 1 2, .word 1 2, .word 4 (BitVec.ofNat 32 out.length), .bytes out]

/-- R159 with R83: the script line `decode(b)` ends with the decoded bytes in the host's hands, or with the block
in `FAIL`, kind Decompression, and no byte of output. That `WAIT` records one `STATUS` word and none of `BUSY`
rests on the model's default order of moves (no turn listed, log 7); R158 leaves the number of polls
open. Script and record are the model's fields (log 5). -/
def Obligations.DecompressScriptReturnsBytesOrError : Prop :=
  ∀ (s : State) (b : Bytes) (rest : List HostOp), s.busy = false → s.maxsizeLegal = true →
    s.turns = [] → s.script = .decodeB b :: rest → b.length < 2 ^ 32 →
    withinCap s.params.ibufCap b.length = true →
    (∀ out, decodeFn s.maxsize.toNat b = some out → s.canDeliver out = true →
      ∃ (n : Nat) (t : State), Host.Core.run Sys2Proof.core n s = .next t ∧ t.phase = .done ∧
        t.script = rest ∧ t.replies = s.replies ++
          [.word 1 2, .word 1 2, .word 4 (BitVec.ofNat 32 out.length), .bytes out]) ∧
    (decodeFn s.maxsize.toNat b = none →
      ∃ (n : Nat) (t : State) (v : Word), Host.Core.run Sys2Proof.core n s = .next t ∧
        t.phase = .fail ∧ t.err = .decompression ∧ t.script = rest ∧ v.extractLsb' 0 4 = 0xB#4 ∧
        t.replies = s.replies ++ [.word 1 v, .word 1 v, .word 4 0, .bytes []])
end

