-- ==== Sys2Proof/Laws/Dict.lean ====
section
/-! SUPPORT. The dictionary: what `find` answers, the seed, and what an insertion leaves alone. -/

namespace Sys2Proof.Machine

/-- `find` answers an index of an entry equal to the sequence sought. -/
theorem find_getElem? {ent : List Bytes} {x : Bytes} {i : Nat} (h : find ent x = some i) :
    ent[i]? = some x := by
  induction ent generalizing i with
  | nil => simp [find] at h
  | cons e es ih =>
    simp only [find] at h
    split at h
    · obtain rfl : 0 = i := by simpa using h
      simp [‹e = x›]
    · obtain ⟨j, hj, rfl⟩ := Option.map_eq_some_iff.1 h
      simpa using ih hj

theorem find_lt {ent : List Bytes} {x : Bytes} {i : Nat} (h : find ent x = some i) :
    i < ent.length :=
  (List.getElem?_eq_some_iff.1 (find_getElem? h)).1

/-- `find` answers exactly when the sequence is an entry. -/
theorem find_isSome_iff {ent : List Bytes} {x : Bytes} : (find ent x).isSome = true ↔ x ∈ ent := by
  induction ent with
  | nil => simp [find]
  | cons e es ih =>
    simp only [find]
    split
    · simp_all
    · rw [Option.isSome_map, ih]
      simp [Ne.symm (by simpa using ‹¬e = x› : e ≠ x)]

theorem find_eq_none_iff {ent : List Bytes} {x : Bytes} : find ent x = none ↔ x ∉ ent := by
  rw [← find_isSome_iff, Option.isSome_iff_ne_none, not_not]

/-- `find` answers the LEAST such index (R15). -/
theorem find_least {ent : List Bytes} {x : Bytes} {i j : Nat} (h : find ent x = some i)
    (hj : j < i) : ent[j]? ≠ some x := by
  induction ent generalizing i j with
  | nil => simp [find] at h
  | cons e es ih =>
    simp only [find] at h
    split at h
    · simp at h; omega
    · obtain ⟨n, hn, rfl⟩ := Option.map_eq_some_iff.1 h
      cases j with
      | zero => simpa using ‹¬e = x›
      | succ j => simpa using ih hn (by omega)

theorem find_append {ent : List Bytes} {x : Bytes} {i : Nat} (es : List Bytes)
    (h : find ent x = some i) : find (ent ++ es) x = some i := by
  induction ent generalizing i with
  | nil => simp [find] at h
  | cons e t ih =>
    simp only [find, List.cons_append] at h ⊢
    split at h
    · rw [if_pos ‹_›]; exact h
    · obtain ⟨n, hn, rfl⟩ := Option.map_eq_some_iff.1 h
      rw [if_neg ‹_›, ih hn]
      rfl

theorem find_append_self {ent : List Bytes} {x : Bytes} (h : find ent x = none) :
    find (ent ++ [x]) x = some ent.length := by
  induction ent with
  | nil => simp [find]
  | cons e t ih =>
    simp only [find, List.cons_append] at h ⊢
    split at h
    · simp at h
    · rw [if_neg ‹_›, ih (by simpa using h)]
      rfl

@[simp] theorem seedEntries_length : seedEntries.length = 256 := by simp [seedEntries]

/-- Entry `i` of the seed is the byte `i` (R92). -/
theorem seedEntries_getElem? {i : Nat} (h : i < 256) :
    seedEntries[i]? = some [BitVec.ofNat 8 i] := by
  simp [seedEntries, h]

theorem mem_seedEntries {x : Bytes} : x ∈ seedEntries ↔ ∃ b : Byte, x = [b] := by
  simp only [seedEntries, List.mem_map, List.mem_range]
  constructor
  · rintro ⟨i, -, rfl⟩
    exact ⟨_, rfl⟩
  · rintro ⟨b, rfl⟩
    exact ⟨b.toNat, b.isLt, by simp⟩

/-- Every literal is found at its own value (R90's example). -/
theorem find_seedEntries_literal (b : Byte) : find seedEntries [b] = some b.toNat := by
  obtain ⟨i, hi⟩ := Option.isSome_iff_exists.1
    (find_isSome_iff.2 (mem_seedEntries.2 ⟨b, rfl⟩))
  have hlt : i < 256 := by simpa using find_lt hi
  have := find_getElem? hi
  rw [seedEntries_getElem? hlt] at this
  have hb : BitVec.ofNat 8 i = b := by simpa using this
  rw [hi, ← hb, BitVec.toNat_ofNat, Nat.mod_eq_of_lt hlt]

theorem seedEntries_nodup : seedEntries.Nodup := by
  rw [seedEntries]
  refine (List.nodup_map_iff_inj_on List.nodup_range).2 ?_
  intro i hi j hj h
  simp only [List.mem_range] at hi hj
  have h' := congrArg BitVec.toNat (List.cons.inj h).1
  simpa [BitVec.toNat_ofNat, Nat.mod_eq_of_lt hi, Nat.mod_eq_of_lt hj] using h'

/-- An insertion keeps every entry (R33). -/
theorem insertBelow_getElem? {m : Nat} {ent : List Bytes} {x : Bytes} {i : Nat}
    (h : i < ent.length) : (insertBelow m ent x)[i]? = ent[i]? := by
  unfold insertBelow
  split
  · exact List.getElem?_append_left h
  · rfl

theorem insertBelow_length (m : Nat) (ent : List Bytes) (x : Bytes) :
    (insertBelow m ent x).length = if ent.length < m then ent.length + 1 else ent.length := by
  unfold insertBelow
  split <;> simp

theorem mem_insertBelow {m : Nat} {ent : List Bytes} {x y : Bytes} :
    y ∈ insertBelow m ent x ↔ y ∈ ent ∨ ent.length < m ∧ y = x := by
  unfold insertBelow
  split <;> simp_all

end Sys2Proof.Machine
end

