-- ==== Sys2Proof/Laws/State.lean ====
section
/-! SUPPORT. One lemma per field per named update of the state, true by unfolding, so that no later proof
unfolds an update. -/

namespace Sys2Proof.Machine

/-! ### `seedOp` -/

@[simp] theorem seedOp_params (s : State) : (seedOp s).params = s.params := rfl
@[simp] theorem seedOp_err (s : State) : (seedOp s).err = s.err := rfl
@[simp] theorem seedOp_cause (s : State) : (seedOp s).cause = s.cause := rfl
@[simp] theorem seedOp_maxsize (s : State) : (seedOp s).maxsize = s.maxsize := rfl
@[simp] theorem seedOp_ilen (s : State) : (seedOp s).ilen = s.ilen := rfl
@[simp] theorem seedOp_olen (s : State) : (seedOp s).olen = s.olen := rfl
@[simp] theorem seedOp_phase (s : State) : (seedOp s).phase = s.phase := rfl
@[simp] theorem seedOp_iptr (s : State) : (seedOp s).iptr = s.iptr := rfl
@[simp] theorem seedOp_w (s : State) : (seedOp s).w = s.w := rfl
@[simp] theorem seedOp_ent (s : State) : (seedOp s).ent = seedEntries := rfl
@[simp] theorem seedOp_out (s : State) : (seedOp s).out = s.out := rfl
@[simp] theorem seedOp_ibuf (s : State) : (seedOp s).ibuf = s.ibuf := rfl
@[simp] theorem seedOp_obuf (s : State) : (seedOp s).obuf = s.obuf := rfl
@[simp] theorem seedOp_k (s : State) : (seedOp s).k = s.k := rfl
@[simp] theorem seedOp_script (s : State) : (seedOp s).script = s.script := rfl
@[simp] theorem seedOp_replies (s : State) : (seedOp s).replies = s.replies := rfl
@[simp] theorem seedOp_turns (s : State) : (seedOp s).turns = s.turns := rfl
@[simp] theorem seedOp_resets (s : State) : (seedOp s).resets = s.resets := rfl
@[simp] theorem seedOp_epoch (s : State) : (seedOp s).epoch = s.epoch := rfl
@[simp] theorem seedOp_busyReads (s : State) : (seedOp s).busyReads = s.busyReads := rfl

/-! ### `put16Op` -/

@[simp] theorem put16Op_params (c : Code) (s : State) : (put16Op c s).params = s.params := rfl
@[simp] theorem put16Op_err (c : Code) (s : State) : (put16Op c s).err = s.err := rfl
@[simp] theorem put16Op_cause (c : Code) (s : State) : (put16Op c s).cause = s.cause := rfl
@[simp] theorem put16Op_maxsize (c : Code) (s : State) : (put16Op c s).maxsize = s.maxsize := rfl
@[simp] theorem put16Op_ilen (c : Code) (s : State) : (put16Op c s).ilen = s.ilen := rfl
@[simp] theorem put16Op_olen (c : Code) (s : State) : (put16Op c s).olen = s.olen := rfl
@[simp] theorem put16Op_phase (c : Code) (s : State) : (put16Op c s).phase = s.phase := rfl
@[simp] theorem put16Op_iptr (c : Code) (s : State) : (put16Op c s).iptr = s.iptr := rfl
@[simp] theorem put16Op_w (c : Code) (s : State) : (put16Op c s).w = s.w := rfl
@[simp] theorem put16Op_ent (c : Code) (s : State) : (put16Op c s).ent = s.ent := rfl
@[simp] theorem put16Op_out (c : Code) (s : State) : (put16Op c s).out = s.out ++ codeBytes c := rfl
@[simp] theorem put16Op_ibuf (c : Code) (s : State) : (put16Op c s).ibuf = s.ibuf := rfl
@[simp] theorem put16Op_obuf (c : Code) (s : State) : (put16Op c s).obuf = s.obuf := rfl
@[simp] theorem put16Op_k (c : Code) (s : State) : (put16Op c s).k = s.k := rfl
@[simp] theorem put16Op_script (c : Code) (s : State) : (put16Op c s).script = s.script := rfl
@[simp] theorem put16Op_replies (c : Code) (s : State) : (put16Op c s).replies = s.replies := rfl
@[simp] theorem put16Op_turns (c : Code) (s : State) : (put16Op c s).turns = s.turns := rfl
@[simp] theorem put16Op_resets (c : Code) (s : State) : (put16Op c s).resets = s.resets := rfl
@[simp] theorem put16Op_epoch (c : Code) (s : State) : (put16Op c s).epoch = s.epoch := rfl
@[simp] theorem put16Op_busyReads (c : Code) (s : State) : (put16Op c s).busyReads = s.busyReads := rfl

/-! ### `get16Op` -/

@[simp] theorem get16Op_params (s : State) : (get16Op s).params = s.params := rfl
@[simp] theorem get16Op_err (s : State) : (get16Op s).err = s.err := rfl
@[simp] theorem get16Op_cause (s : State) : (get16Op s).cause = s.cause := rfl
@[simp] theorem get16Op_maxsize (s : State) : (get16Op s).maxsize = s.maxsize := rfl
@[simp] theorem get16Op_ilen (s : State) : (get16Op s).ilen = s.ilen := rfl
@[simp] theorem get16Op_olen (s : State) : (get16Op s).olen = s.olen := rfl
@[simp] theorem get16Op_phase (s : State) : (get16Op s).phase = s.phase := rfl
@[simp] theorem get16Op_iptr (s : State) : (get16Op s).iptr = s.iptr + 2 := rfl
@[simp] theorem get16Op_w (s : State) : (get16Op s).w = s.w := rfl
@[simp] theorem get16Op_ent (s : State) : (get16Op s).ent = s.ent := rfl
@[simp] theorem get16Op_out (s : State) : (get16Op s).out = s.out := rfl
@[simp] theorem get16Op_ibuf (s : State) : (get16Op s).ibuf = s.ibuf := rfl
@[simp] theorem get16Op_obuf (s : State) : (get16Op s).obuf = s.obuf := rfl
@[simp] theorem get16Op_k (s : State) : (get16Op s).k = s.inCode := rfl
@[simp] theorem get16Op_script (s : State) : (get16Op s).script = s.script := rfl
@[simp] theorem get16Op_replies (s : State) : (get16Op s).replies = s.replies := rfl
@[simp] theorem get16Op_turns (s : State) : (get16Op s).turns = s.turns := rfl
@[simp] theorem get16Op_resets (s : State) : (get16Op s).resets = s.resets := rfl
@[simp] theorem get16Op_epoch (s : State) : (get16Op s).epoch = s.epoch := rfl
@[simp] theorem get16Op_busyReads (s : State) : (get16Op s).busyReads = s.busyReads := rfl

/-! ### `commitState` -/

@[simp] theorem commitState_params (s : State) : (commitState s).params = s.params := rfl
@[simp] theorem commitState_err (s : State) : (commitState s).err = s.err := rfl
@[simp] theorem commitState_cause (s : State) : (commitState s).cause = s.cause := rfl
@[simp] theorem commitState_maxsize (s : State) : (commitState s).maxsize = s.maxsize := rfl
@[simp] theorem commitState_ilen (s : State) : (commitState s).ilen = s.ilen := rfl
@[simp] theorem commitState_olen (s : State) : (commitState s).olen = BitVec.ofNat 32 s.out.length := rfl
@[simp] theorem commitState_phase (s : State) : (commitState s).phase = .done := rfl
@[simp] theorem commitState_iptr (s : State) : (commitState s).iptr = s.iptr := rfl
@[simp] theorem commitState_w (s : State) : (commitState s).w = s.w := rfl
@[simp] theorem commitState_ent (s : State) : (commitState s).ent = s.ent := rfl
@[simp] theorem commitState_out (s : State) : (commitState s).out = s.out := rfl
@[simp] theorem commitState_ibuf (s : State) : (commitState s).ibuf = s.ibuf := rfl
@[simp] theorem commitState_obuf (s : State) : (commitState s).obuf = s.obuf.writeBytes 0 s.out := rfl
@[simp] theorem commitState_k (s : State) : (commitState s).k = s.k := rfl
@[simp] theorem commitState_script (s : State) : (commitState s).script = s.script := rfl
@[simp] theorem commitState_replies (s : State) : (commitState s).replies = s.replies := rfl
@[simp] theorem commitState_turns (s : State) : (commitState s).turns = s.turns := rfl
@[simp] theorem commitState_resets (s : State) : (commitState s).resets = s.resets := rfl
@[simp] theorem commitState_epoch (s : State) : (commitState s).epoch = s.epoch + 1 := rfl
@[simp] theorem commitState_busyReads (s : State) : (commitState s).busyReads = s.busyReads := rfl

/-! ### `raiseOp` -/

@[simp] theorem raiseOp_params (e : ErrKind) (c : Cause) (s : State) : (raiseOp e c s).params = s.params := rfl
@[simp] theorem raiseOp_err (e : ErrKind) (c : Cause) (s : State) : (raiseOp e c s).err = e := rfl
@[simp] theorem raiseOp_cause (e : ErrKind) (c : Cause) (s : State) : (raiseOp e c s).cause = c := rfl
@[simp] theorem raiseOp_maxsize (e : ErrKind) (c : Cause) (s : State) : (raiseOp e c s).maxsize = s.maxsize := rfl
@[simp] theorem raiseOp_ilen (e : ErrKind) (c : Cause) (s : State) : (raiseOp e c s).ilen = s.ilen := rfl
@[simp] theorem raiseOp_olen (e : ErrKind) (c : Cause) (s : State) : (raiseOp e c s).olen = 0 := rfl
@[simp] theorem raiseOp_phase (e : ErrKind) (c : Cause) (s : State) : (raiseOp e c s).phase = .fail := rfl
@[simp] theorem raiseOp_iptr (e : ErrKind) (c : Cause) (s : State) : (raiseOp e c s).iptr = s.iptr := rfl
@[simp] theorem raiseOp_w (e : ErrKind) (c : Cause) (s : State) : (raiseOp e c s).w = s.w := rfl
@[simp] theorem raiseOp_ent (e : ErrKind) (c : Cause) (s : State) : (raiseOp e c s).ent = s.ent := rfl
@[simp] theorem raiseOp_out (e : ErrKind) (c : Cause) (s : State) : (raiseOp e c s).out = [] := rfl
@[simp] theorem raiseOp_ibuf (e : ErrKind) (c : Cause) (s : State) : (raiseOp e c s).ibuf = s.ibuf := rfl
@[simp] theorem raiseOp_obuf (e : ErrKind) (c : Cause) (s : State) : (raiseOp e c s).obuf = s.obuf := rfl
@[simp] theorem raiseOp_k (e : ErrKind) (c : Cause) (s : State) : (raiseOp e c s).k = s.k := rfl
@[simp] theorem raiseOp_script (e : ErrKind) (c : Cause) (s : State) : (raiseOp e c s).script = s.script := rfl
@[simp] theorem raiseOp_replies (e : ErrKind) (c : Cause) (s : State) : (raiseOp e c s).replies = s.replies := rfl
@[simp] theorem raiseOp_turns (e : ErrKind) (c : Cause) (s : State) : (raiseOp e c s).turns = s.turns := rfl
@[simp] theorem raiseOp_resets (e : ErrKind) (c : Cause) (s : State) : (raiseOp e c s).resets = s.resets := rfl
@[simp] theorem raiseOp_epoch (e : ErrKind) (c : Cause) (s : State) : (raiseOp e c s).epoch = s.epoch + 1 := rfl
@[simp] theorem raiseOp_busyReads (e : ErrKind) (c : Cause) (s : State) : (raiseOp e c s).busyReads = s.busyReads := rfl

/-! ### `clearStatus` -/

@[simp] theorem clearStatus_params (s : State) : (clearStatus s).params = s.params := rfl
@[simp] theorem clearStatus_err (s : State) : (clearStatus s).err = .none := rfl
@[simp] theorem clearStatus_cause (s : State) : (clearStatus s).cause = .none := rfl
@[simp] theorem clearStatus_maxsize (s : State) : (clearStatus s).maxsize = s.maxsize := rfl
@[simp] theorem clearStatus_ilen (s : State) : (clearStatus s).ilen = s.ilen := rfl
@[simp] theorem clearStatus_olen (s : State) : (clearStatus s).olen = 0 := rfl
@[simp] theorem clearStatus_phase (s : State) : (clearStatus s).phase = s.phase := rfl
@[simp] theorem clearStatus_iptr (s : State) : (clearStatus s).iptr = s.iptr := rfl
@[simp] theorem clearStatus_w (s : State) : (clearStatus s).w = s.w := rfl
@[simp] theorem clearStatus_ent (s : State) : (clearStatus s).ent = s.ent := rfl
@[simp] theorem clearStatus_out (s : State) : (clearStatus s).out = s.out := rfl
@[simp] theorem clearStatus_ibuf (s : State) : (clearStatus s).ibuf = s.ibuf := rfl
@[simp] theorem clearStatus_obuf (s : State) : (clearStatus s).obuf = s.obuf := rfl
@[simp] theorem clearStatus_k (s : State) : (clearStatus s).k = s.k := rfl
@[simp] theorem clearStatus_script (s : State) : (clearStatus s).script = s.script := rfl
@[simp] theorem clearStatus_replies (s : State) : (clearStatus s).replies = s.replies := rfl
@[simp] theorem clearStatus_turns (s : State) : (clearStatus s).turns = s.turns := rfl
@[simp] theorem clearStatus_resets (s : State) : (clearStatus s).resets = s.resets := rfl
@[simp] theorem clearStatus_epoch (s : State) : (clearStatus s).epoch = s.epoch := rfl
@[simp] theorem clearStatus_busyReads (s : State) : (clearStatus s).busyReads = s.busyReads := rfl

/-! ### `startRun` -/

@[simp] theorem startRun_params (p : Phase) (s : State) : (startRun p s).params = s.params := rfl
@[simp] theorem startRun_err (p : Phase) (s : State) : (startRun p s).err = s.err := rfl
@[simp] theorem startRun_cause (p : Phase) (s : State) : (startRun p s).cause = s.cause := rfl
@[simp] theorem startRun_maxsize (p : Phase) (s : State) : (startRun p s).maxsize = s.maxsize := rfl
@[simp] theorem startRun_ilen (p : Phase) (s : State) : (startRun p s).ilen = s.ilen := rfl
@[simp] theorem startRun_olen (p : Phase) (s : State) : (startRun p s).olen = s.olen := rfl
@[simp] theorem startRun_phase (p : Phase) (s : State) : (startRun p s).phase = p := rfl
@[simp] theorem startRun_iptr (p : Phase) (s : State) : (startRun p s).iptr = 0 := rfl
@[simp] theorem startRun_w (p : Phase) (s : State) : (startRun p s).w = [] := rfl
@[simp] theorem startRun_ent (p : Phase) (s : State) : (startRun p s).ent = seedEntries := rfl
@[simp] theorem startRun_out (p : Phase) (s : State) : (startRun p s).out = [] := rfl
@[simp] theorem startRun_ibuf (p : Phase) (s : State) : (startRun p s).ibuf = s.ibuf := rfl
@[simp] theorem startRun_obuf (p : Phase) (s : State) : (startRun p s).obuf = s.obuf := rfl
@[simp] theorem startRun_k (p : Phase) (s : State) : (startRun p s).k = s.k := rfl
@[simp] theorem startRun_script (p : Phase) (s : State) : (startRun p s).script = s.script := rfl
@[simp] theorem startRun_replies (p : Phase) (s : State) : (startRun p s).replies = s.replies := rfl
@[simp] theorem startRun_turns (p : Phase) (s : State) : (startRun p s).turns = s.turns := rfl
@[simp] theorem startRun_resets (p : Phase) (s : State) : (startRun p s).resets = s.resets := rfl
@[simp] theorem startRun_epoch (p : Phase) (s : State) : (startRun p s).epoch = s.epoch := rfl
@[simp] theorem startRun_busyReads (p : Phase) (s : State) : (startRun p s).busyReads = s.busyReads := rfl

/-! ### `encInitOp` -/

@[simp] theorem encInitOp_params (s : State) : (encInitOp s).params = s.params := rfl
@[simp] theorem encInitOp_err (s : State) : (encInitOp s).err = s.err := rfl
@[simp] theorem encInitOp_cause (s : State) : (encInitOp s).cause = s.cause := rfl
@[simp] theorem encInitOp_maxsize (s : State) : (encInitOp s).maxsize = s.maxsize := rfl
@[simp] theorem encInitOp_ilen (s : State) : (encInitOp s).ilen = s.ilen := rfl
@[simp] theorem encInitOp_olen (s : State) : (encInitOp s).olen = s.olen := rfl
@[simp] theorem encInitOp_phase (s : State) : (encInitOp s).phase = .enc := rfl
@[simp] theorem encInitOp_iptr (s : State) : (encInitOp s).iptr = 0 := rfl
@[simp] theorem encInitOp_w (s : State) : (encInitOp s).w = [] := rfl
@[simp] theorem encInitOp_ent (s : State) : (encInitOp s).ent = seedEntries := rfl
@[simp] theorem encInitOp_out (s : State) : (encInitOp s).out = [] := rfl
@[simp] theorem encInitOp_ibuf (s : State) : (encInitOp s).ibuf = s.ibuf := rfl
@[simp] theorem encInitOp_obuf (s : State) : (encInitOp s).obuf = s.obuf := rfl
@[simp] theorem encInitOp_k (s : State) : (encInitOp s).k = s.k := rfl
@[simp] theorem encInitOp_script (s : State) : (encInitOp s).script = s.script := rfl
@[simp] theorem encInitOp_replies (s : State) : (encInitOp s).replies = s.replies := rfl
@[simp] theorem encInitOp_turns (s : State) : (encInitOp s).turns = s.turns := rfl
@[simp] theorem encInitOp_resets (s : State) : (encInitOp s).resets = s.resets := rfl
@[simp] theorem encInitOp_epoch (s : State) : (encInitOp s).epoch = s.epoch := rfl
@[simp] theorem encInitOp_busyReads (s : State) : (encInitOp s).busyReads = s.busyReads := rfl

/-! ### `reply` -/

@[simp] theorem reply_params (x : Reply) (s : State) : (reply x s).params = s.params := rfl
@[simp] theorem reply_err (x : Reply) (s : State) : (reply x s).err = s.err := rfl
@[simp] theorem reply_cause (x : Reply) (s : State) : (reply x s).cause = s.cause := rfl
@[simp] theorem reply_maxsize (x : Reply) (s : State) : (reply x s).maxsize = s.maxsize := rfl
@[simp] theorem reply_ilen (x : Reply) (s : State) : (reply x s).ilen = s.ilen := rfl
@[simp] theorem reply_olen (x : Reply) (s : State) : (reply x s).olen = s.olen := rfl
@[simp] theorem reply_phase (x : Reply) (s : State) : (reply x s).phase = s.phase := rfl
@[simp] theorem reply_iptr (x : Reply) (s : State) : (reply x s).iptr = s.iptr := rfl
@[simp] theorem reply_w (x : Reply) (s : State) : (reply x s).w = s.w := rfl
@[simp] theorem reply_ent (x : Reply) (s : State) : (reply x s).ent = s.ent := rfl
@[simp] theorem reply_out (x : Reply) (s : State) : (reply x s).out = s.out := rfl
@[simp] theorem reply_ibuf (x : Reply) (s : State) : (reply x s).ibuf = s.ibuf := rfl
@[simp] theorem reply_obuf (x : Reply) (s : State) : (reply x s).obuf = s.obuf := rfl
@[simp] theorem reply_k (x : Reply) (s : State) : (reply x s).k = s.k := rfl
@[simp] theorem reply_script (x : Reply) (s : State) : (reply x s).script = s.script := rfl
@[simp] theorem reply_replies (x : Reply) (s : State) : (reply x s).replies = s.replies ++ [x] := rfl
@[simp] theorem reply_turns (x : Reply) (s : State) : (reply x s).turns = s.turns := rfl
@[simp] theorem reply_resets (x : Reply) (s : State) : (reply x s).resets = s.resets := rfl
@[simp] theorem reply_epoch (x : Reply) (s : State) : (reply x s).epoch = s.epoch := rfl
@[simp] theorem reply_busyReads (x : Reply) (s : State) : (reply x s).busyReads = s.busyReads := rfl

/-! ### `resetOp` -/

@[simp] theorem resetOp_params (s : State) : (resetOp s).params = s.params := rfl
@[simp] theorem resetOp_err (s : State) : (resetOp s).err = .none := rfl
@[simp] theorem resetOp_cause (s : State) : (resetOp s).cause = .none := rfl
@[simp] theorem resetOp_maxsize (s : State) : (resetOp s).maxsize = BitVec.ofNat 17 Config.defaultMaxsize := rfl
@[simp] theorem resetOp_ilen (s : State) : (resetOp s).ilen = 0 := rfl
@[simp] theorem resetOp_olen (s : State) : (resetOp s).olen = 0 := rfl
@[simp] theorem resetOp_phase (s : State) : (resetOp s).phase = .idle := rfl
@[simp] theorem resetOp_iptr (s : State) : (resetOp s).iptr = 0 := rfl
@[simp] theorem resetOp_w (s : State) : (resetOp s).w = [] := rfl
@[simp] theorem resetOp_ent (s : State) : (resetOp s).ent = [] := rfl
@[simp] theorem resetOp_out (s : State) : (resetOp s).out = [] := rfl
@[simp] theorem resetOp_ibuf (s : State) : (resetOp s).ibuf = [] := rfl
@[simp] theorem resetOp_obuf (s : State) : (resetOp s).obuf = [] := rfl
@[simp] theorem resetOp_k (s : State) : (resetOp s).k = 0 := rfl
@[simp] theorem resetOp_script (s : State) : (resetOp s).script = s.script := rfl
@[simp] theorem resetOp_replies (s : State) : (resetOp s).replies = s.replies := rfl
@[simp] theorem resetOp_turns (s : State) : (resetOp s).turns = s.turns := rfl
@[simp] theorem resetOp_resets (s : State) : (resetOp s).resets = s.resets + 1 := rfl
@[simp] theorem resetOp_epoch (s : State) : (resetOp s).epoch = s.epoch + 1 := rfl
@[simp] theorem resetOp_busyReads (s : State) : (resetOp s).busyReads = s.busyReads := rfl

/-! ### `memWrite` of `ibuf` -/

@[simp] theorem memWrite_ibuf_params (s : State) (a : Nat) (bs : Bytes) : (s.memWrite .ibuf a bs).params = s.params := rfl
@[simp] theorem memWrite_ibuf_err (s : State) (a : Nat) (bs : Bytes) : (s.memWrite .ibuf a bs).err = s.err := rfl
@[simp] theorem memWrite_ibuf_cause (s : State) (a : Nat) (bs : Bytes) : (s.memWrite .ibuf a bs).cause = s.cause := rfl
@[simp] theorem memWrite_ibuf_maxsize (s : State) (a : Nat) (bs : Bytes) : (s.memWrite .ibuf a bs).maxsize = s.maxsize := rfl
@[simp] theorem memWrite_ibuf_ilen (s : State) (a : Nat) (bs : Bytes) : (s.memWrite .ibuf a bs).ilen = s.ilen := rfl
@[simp] theorem memWrite_ibuf_olen (s : State) (a : Nat) (bs : Bytes) : (s.memWrite .ibuf a bs).olen = s.olen := rfl
@[simp] theorem memWrite_ibuf_phase (s : State) (a : Nat) (bs : Bytes) : (s.memWrite .ibuf a bs).phase = s.phase := rfl
@[simp] theorem memWrite_ibuf_iptr (s : State) (a : Nat) (bs : Bytes) : (s.memWrite .ibuf a bs).iptr = s.iptr := rfl
@[simp] theorem memWrite_ibuf_w (s : State) (a : Nat) (bs : Bytes) : (s.memWrite .ibuf a bs).w = s.w := rfl
@[simp] theorem memWrite_ibuf_ent (s : State) (a : Nat) (bs : Bytes) : (s.memWrite .ibuf a bs).ent = s.ent := rfl
@[simp] theorem memWrite_ibuf_out (s : State) (a : Nat) (bs : Bytes) : (s.memWrite .ibuf a bs).out = s.out := rfl
@[simp] theorem memWrite_ibuf_ibuf (s : State) (a : Nat) (bs : Bytes) : (s.memWrite .ibuf a bs).ibuf = s.ibuf.writeBytes a bs := rfl
@[simp] theorem memWrite_ibuf_obuf (s : State) (a : Nat) (bs : Bytes) : (s.memWrite .ibuf a bs).obuf = s.obuf := rfl
@[simp] theorem memWrite_ibuf_k (s : State) (a : Nat) (bs : Bytes) : (s.memWrite .ibuf a bs).k = s.k := rfl
@[simp] theorem memWrite_ibuf_script (s : State) (a : Nat) (bs : Bytes) : (s.memWrite .ibuf a bs).script = s.script := rfl
@[simp] theorem memWrite_ibuf_replies (s : State) (a : Nat) (bs : Bytes) : (s.memWrite .ibuf a bs).replies = s.replies := rfl
@[simp] theorem memWrite_ibuf_turns (s : State) (a : Nat) (bs : Bytes) : (s.memWrite .ibuf a bs).turns = s.turns := rfl
@[simp] theorem memWrite_ibuf_resets (s : State) (a : Nat) (bs : Bytes) : (s.memWrite .ibuf a bs).resets = s.resets := rfl
@[simp] theorem memWrite_ibuf_epoch (s : State) (a : Nat) (bs : Bytes) : (s.memWrite .ibuf a bs).epoch = s.epoch := rfl
@[simp] theorem memWrite_ibuf_busyReads (s : State) (a : Nat) (bs : Bytes) : (s.memWrite .ibuf a bs).busyReads = s.busyReads := rfl

/-! ### `memWrite` of `obuf` -/

@[simp] theorem memWrite_obuf_params (s : State) (a : Nat) (bs : Bytes) : (s.memWrite .obuf a bs).params = s.params := rfl
@[simp] theorem memWrite_obuf_err (s : State) (a : Nat) (bs : Bytes) : (s.memWrite .obuf a bs).err = s.err := rfl
@[simp] theorem memWrite_obuf_cause (s : State) (a : Nat) (bs : Bytes) : (s.memWrite .obuf a bs).cause = s.cause := rfl
@[simp] theorem memWrite_obuf_maxsize (s : State) (a : Nat) (bs : Bytes) : (s.memWrite .obuf a bs).maxsize = s.maxsize := rfl
@[simp] theorem memWrite_obuf_ilen (s : State) (a : Nat) (bs : Bytes) : (s.memWrite .obuf a bs).ilen = s.ilen := rfl
@[simp] theorem memWrite_obuf_olen (s : State) (a : Nat) (bs : Bytes) : (s.memWrite .obuf a bs).olen = s.olen := rfl
@[simp] theorem memWrite_obuf_phase (s : State) (a : Nat) (bs : Bytes) : (s.memWrite .obuf a bs).phase = s.phase := rfl
@[simp] theorem memWrite_obuf_iptr (s : State) (a : Nat) (bs : Bytes) : (s.memWrite .obuf a bs).iptr = s.iptr := rfl
@[simp] theorem memWrite_obuf_w (s : State) (a : Nat) (bs : Bytes) : (s.memWrite .obuf a bs).w = s.w := rfl
@[simp] theorem memWrite_obuf_ent (s : State) (a : Nat) (bs : Bytes) : (s.memWrite .obuf a bs).ent = s.ent := rfl
@[simp] theorem memWrite_obuf_out (s : State) (a : Nat) (bs : Bytes) : (s.memWrite .obuf a bs).out = s.out := rfl
@[simp] theorem memWrite_obuf_ibuf (s : State) (a : Nat) (bs : Bytes) : (s.memWrite .obuf a bs).ibuf = s.ibuf := rfl
@[simp] theorem memWrite_obuf_obuf (s : State) (a : Nat) (bs : Bytes) : (s.memWrite .obuf a bs).obuf = s.obuf.writeBytes a bs := rfl
@[simp] theorem memWrite_obuf_k (s : State) (a : Nat) (bs : Bytes) : (s.memWrite .obuf a bs).k = s.k := rfl
@[simp] theorem memWrite_obuf_script (s : State) (a : Nat) (bs : Bytes) : (s.memWrite .obuf a bs).script = s.script := rfl
@[simp] theorem memWrite_obuf_replies (s : State) (a : Nat) (bs : Bytes) : (s.memWrite .obuf a bs).replies = s.replies := rfl
@[simp] theorem memWrite_obuf_turns (s : State) (a : Nat) (bs : Bytes) : (s.memWrite .obuf a bs).turns = s.turns := rfl
@[simp] theorem memWrite_obuf_resets (s : State) (a : Nat) (bs : Bytes) : (s.memWrite .obuf a bs).resets = s.resets := rfl
@[simp] theorem memWrite_obuf_epoch (s : State) (a : Nat) (bs : Bytes) : (s.memWrite .obuf a bs).epoch = s.epoch := rfl
@[simp] theorem memWrite_obuf_busyReads (s : State) (a : Nat) (bs : Bytes) : (s.memWrite .obuf a bs).busyReads = s.busyReads := rfl

end Sys2Proof.Machine
end

