-- ==== Sys2Proof/Laws/Memory.lean ====
section
/-! SUPPORT. The byte buffers: a read after a write, the other bytes, and the canonical form. -/

namespace Sys2Proof.Machine

namespace Memory

@[simp] theorem read_nil (a : Nat) : Memory.read [] a = none := rfl

theorem read_cons (x : Host.Cell) (m : Memory) (a : Nat) :
    Memory.read (x :: m) a = if x.1 = a then some x.2 else Memory.read m a := rfl

theorem read_write_same (m : Memory) (a : Nat) (b : Byte) : (Memory.write m a b).read a = some b := by
  induction m with
  | nil => simp [Memory.write, read_cons]
  | cons x m ih =>
    obtain ⟨c, v⟩ := x
    simp only [Memory.write]
    split
    · simp [read_cons]
    · split
      · simp [read_cons]
      · rw [read_cons]
        rw [if_neg (by simpa using Ne.symm ‹¬a = c›)]
        exact ih

theorem read_write_other (m : Memory) (a a' : Nat) (b : Byte) (h : a' ≠ a) :
    (Memory.write m a b).read a' = m.read a' := by
  induction m with
  | nil => simp [Memory.write, read_cons, Ne.symm h]
  | cons x m ih =>
    obtain ⟨c, v⟩ := x
    simp only [Memory.write]
    split
    · simp [read_cons, Ne.symm h]
    · split
      · subst_vars
        simp [read_cons, Ne.symm h]
      · rw [read_cons, read_cons, ih]

theorem read_writeBytes_below (bs : Bytes) (m : Memory) (off a : Nat) (h : a < off) :
    (Memory.writeBytes m off bs).read a = m.read a := by
  induction bs generalizing m off with
  | nil => rfl
  | cons b bs ih =>
    rw [Memory.writeBytes, ih _ _ (by omega), read_write_other _ _ _ _ (by omega)]

theorem read_writeBytes_above (bs : Bytes) (m : Memory) (off a : Nat) (h : off + bs.length ≤ a) :
    (Memory.writeBytes m off bs).read a = m.read a := by
  induction bs generalizing m off with
  | nil => rfl
  | cons b bs ih =>
    simp only [List.length_cons] at h
    rw [Memory.writeBytes, ih _ _ (by omega), read_write_other _ _ _ _ (by omega)]

theorem read_writeBytes_inside (bs : Bytes) (m : Memory) (off i : Nat) (h : i < bs.length) :
    (Memory.writeBytes m off bs).read (off + i) = bs[i]? := by
  induction bs generalizing m off i with
  | nil => simp at h
  | cons b bs ih =>
    rw [Memory.writeBytes]
    cases i with
    | zero =>
      exact (read_writeBytes_below bs _ (off + 1) off (by omega)).trans (read_write_same m off b)
    | succ i =>
      have := ih (Memory.write m off b) (off + 1) i (by simpa using h)
      rw [show off + (i + 1) = off + 1 + i by omega, this]
      rfl

/-- The offsets of a canonical buffer lie at or above its first one. -/
theorem wf_cons_iff (x : Host.Cell) (m : Memory) :
    Memory.wf (x :: m) = true ↔ (∀ y ∈ m.head?, x.1 < y.1) ∧ Memory.wf m = true := by
  cases m with
  | nil => simp [Memory.wf]
  | cons y m =>
    obtain ⟨a, b⟩ := x
    obtain ⟨a', b'⟩ := y
    simp [Memory.wf]

theorem write_head (m : Memory) (off : Nat) (b : Byte) :
    ∀ y ∈ (Memory.write m off b).head?, y.1 = off ∨ ∃ z ∈ m.head?, y.1 = z.1 := by
  cases m with
  | nil => simp [Memory.write]
  | cons x m =>
    obtain ⟨a, c⟩ := x
    simp only [Memory.write]
    split
    · simp
    · split
      · simp
      · simp

theorem write_wf (m : Memory) (off : Nat) (b : Byte) (h : m.wf = true) :
    (Memory.write m off b).wf = true := by
  induction m with
  | nil => rfl
  | cons x m ih =>
    obtain ⟨a, c⟩ := x
    have h' := (wf_cons_iff (a, c) m).1 h
    simp only [Memory.write]
    split
    · refine (wf_cons_iff _ _).2 ⟨?_, h⟩
      simpa using ‹off < a›
    · split
      · subst_vars
        exact (wf_cons_iff _ _).2 h'
      · refine (wf_cons_iff _ _).2 ⟨?_, ih h'.2⟩
        intro y hy
        rcases write_head m off b y hy with hy | ⟨z, hz, hy⟩
        · simp only [hy]; omega
        · simpa [hy] using h'.1 z hz

theorem writeBytes_wf (bs : Bytes) (m : Memory) (off : Nat) (h : m.wf = true) :
    (Memory.writeBytes m off bs).wf = true := by
  induction bs generalizing m off with
  | nil => exact h
  | cons b bs ih => exact ih _ _ (write_wf m off b h)

end Memory

@[simp] theorem memRead_length (s : State) (sp : Space) (a n : Nat) :
    (s.memRead sp a n).length = n := by
  cases sp <;> simp [State.memRead]

theorem memRead_obuf_getElem? (s : State) (a n i : Nat) (h : i < n) :
    (s.memRead .obuf a n)[i]? = some (s.obufByte (a + i)) := by
  simp [State.memRead, h]

theorem memRead_ibuf_getElem? (s : State) (a n i : Nat) (h : i < n) :
    (s.memRead .ibuf a n)[i]? = some (s.ibufByte (a + i)) := by
  simp [State.memRead, h]

/-- The committed output is what was committed (R66). -/
theorem commitState_output (s : State) (h : s.out.length < 2 ^ 32) : (commitState s).output = s.out := by
  have hl : (commitState s).olen.toNat = s.out.length := by
    simp only [commitState_olen, BitVec.toNat_ofNat]
    exact Nat.mod_eq_of_lt h
  apply List.ext_getElem?
  intro i
  unfold State.output
  rw [hl]
  by_cases hi : i < s.out.length
  · rw [memRead_obuf_getElem? _ _ _ _ hi]
    have := Memory.read_writeBytes_inside s.out s.obuf 0 i hi
    simp only [Nat.zero_add] at this ⊢
    simp only [State.obufByte, hl, hi, if_true, commitState_obuf, this]
    simp [hi]
  · rw [List.getElem?_eq_none (by rw [memRead_length]; omega), List.getElem?_eq_none (by omega)]

end Sys2Proof.Machine
end

