-- ==== Sys2Proof/Laws/Select.lean ====
section
/-! SUPPORT. When each step is selected (42_encoder.md R111, 43_decoder.md R131), one lemma per row of the
two tables, and what a meaning does in a state that selects it. -/

namespace Sys2Proof.Machine

/-- A step's meaning in a state that selects it. -/
theorem whenSelected_eq {i : Instr} {s : State} {body : Result} (h : seqSelect s = some i) :
    whenSelected i s body = body := by simp [whenSelected, h]

/-- A step answers a next state only in a state that selects it, and then by its body. -/
theorem whenSelected_next {i : Instr} {s t : State} {body : Result}
    (h : whenSelected i s body = .next t) : seqSelect s = some i ∧ body = .next t := by
  unfold whenSelected at h
  split at h
  · exact ⟨‹_›, h⟩
  · cases h

theorem seqSelect_encRaw {s : State} (hp : s.phase = .enc) (hi : s.iptr < s.ilen.toNat) :
    seqSelect s = some (decodeRaw s.ent s.w s.maxsize.toNat s.inByte) := by
  simp [seqSelect, hp, hi, decode, Except.toOption]

theorem seqSelect_encClose {s : State} (hp : s.phase = .enc) (hi : s.iptr = s.ilen.toNat) :
    seqSelect s = some (encClose s) := by
  simp [seqSelect, hp, hi]

theorem seqSelect_dec0 {s : State} (hp : s.phase = .dec0) :
    seqSelect s = some (decodeFirstCode s.dlen s.inCode) := by
  simp [seqSelect, hp, decode, Except.toOption, State.inCode]

theorem seqSelect_dec {s : State} (hp : s.phase = .dec) (hi : s.iptr < s.ilen.toNat) :
    seqSelect s = some (decodeLaterCode s.dlen s.inCode) := by
  simp [seqSelect, hp, hi, decode, Except.toOption, State.inCode]

theorem seqSelect_decEnd {s : State} (hp : s.phase = .dec) (hi : s.iptr = s.ilen.toNat) :
    seqSelect s = some .decEnd := by
  simp [seqSelect, hp, hi]

theorem seqSelect_notBusy {s : State} (h : s.busy = false) : seqSelect s = none := by
  cases hp : s.phase <;> simp [State.busy, Phase.isBusy, hp, seqSelect] at h ⊢

/-- A state that selects a step is busy. -/
theorem busy_of_seqSelect {s : State} {i : Instr} (h : seqSelect s = some i) : s.busy = true := by
  cases hb : s.busy
  · rw [seqSelect_notBusy hb] at h; cases h
  · rfl

theorem encByte_cases {s : State} {i : Instr}
    (h : decodeRaw s.ent s.w s.maxsize.toNat s.inByte = i) :
    (i = .encExtend s.inByte ∧ (s.find (s.w ++ [s.inByte])).isSome = true) ∨
    (i = .encFault ∧ s.find (s.w ++ [s.inByte]) = none ∧ s.find s.w = none) ∨
    (i = .encEmitIns s.inByte ∧ s.find (s.w ++ [s.inByte]) = none ∧
      (s.find s.w).isSome = true ∧ s.dlen < s.maxsize.toNat) ∨
    (i = .encEmitFrz s.inByte ∧ s.find (s.w ++ [s.inByte]) = none ∧
      (s.find s.w).isSome = true ∧ s.maxsize.toNat ≤ s.dlen) := by
  unfold decodeRaw at h
  simp only [State.find, State.dlen]
  split at h
  · simp_all
  · split at h
    · simp_all
    · have hw : (find s.ent s.w).isSome = true := by
        simpa [Option.isSome_iff_ne_none] using ‹¬(find s.ent s.w).isNone = true›
      split at h <;> simp_all

theorem seqSelect_encExtend {s : State} {k : Byte} (hp : s.phase = .enc)
    (hi : s.iptr < s.ilen.toNat) (hk : s.ibufByte s.iptr = k)
    (hf : (s.find (s.w ++ [k])).isSome = true) : seqSelect s = some (.encExtend k) := by
  rw [seqSelect_encRaw hp hi]
  subst hk
  simp only [State.find] at hf
  simp [decodeRaw, State.inByte, hf]

theorem seqSelect_encEmitIns {s : State} {k : Byte} {c : Nat} (hp : s.phase = .enc)
    (hi : s.iptr < s.ilen.toNat) (hk : s.ibufByte s.iptr = k) (hf : s.find (s.w ++ [k]) = none)
    (hw : s.find s.w = some c) (hd : s.dlen < s.maxsize.toNat) :
    seqSelect s = some (.encEmitIns k) := by
  rw [seqSelect_encRaw hp hi]
  subst hk
  simp only [State.find, State.dlen] at hf hw hd
  simp [decodeRaw, State.inByte, hf, hw, hd]

/-- `FULL` is `DLEN >= MAXSIZE` (R16). -/
theorem full_iff {s : State} : s.full = true ↔ s.maxsize.toNat ≤ s.dlen := by
  simp only [State.full, Bool.not_eq_true', decide_eq_false_iff_not, Nat.not_lt]

theorem seqSelect_encEmitFrz {s : State} {k : Byte} {c : Nat} (hp : s.phase = .enc)
    (hi : s.iptr < s.ilen.toNat) (hk : s.ibufByte s.iptr = k) (hf : s.find (s.w ++ [k]) = none)
    (hw : s.find s.w = some c) (hd : s.full = true) : seqSelect s = some (.encEmitFrz k) := by
  rw [seqSelect_encRaw hp hi]
  subst hk
  have hd' : ¬ s.ent.length < s.maxsize.toNat := Nat.not_lt.2 (full_iff.1 hd)
  simp only [State.find] at hf hw
  simp [decodeRaw, State.inByte, hf, hw, hd']

theorem encClose_cases (s : State) :
    (encClose s = .encEnd0 ∧ s.w = []) ∨
    (encClose s = .encFlush ∧ s.w ≠ [] ∧ (s.find s.w).isSome = true) ∨
    (encClose s = .encFault ∧ s.w ≠ [] ∧ s.find s.w = none) := by
  unfold encClose
  by_cases hw : s.w = []
  · simp [hw]
  · cases hf : s.find s.w <;> simp [hw]

theorem firstCode_cases {d : Nat} {c : Code} {i : Instr} (h : decodeFirstCode d c = i) :
    (i = .decFirst c ∧ c.toNat < d) ∨ (i = .decBadfirst c ∧ d ≤ c.toNat) := by
  unfold decodeFirstCode at h
  split at h
  · exact .inl ⟨h.symm, ‹_›⟩
  · exact .inr ⟨h.symm, by omega⟩

theorem laterCode_cases {d : Nat} {c : Code} {i : Instr} (h : decodeLaterCode d c = i) :
    (i = .decKnown c ∧ c.toNat < d) ∨ (i = .decNext c ∧ c.toNat = d) ∨
    (i = .decBad c ∧ d < c.toNat) := by
  unfold decodeLaterCode at h
  split at h
  · exact .inl ⟨h.symm, ‹_›⟩
  · split at h
    · exact .inr (.inl ⟨h.symm, ‹_›⟩)
    · exact .inr (.inr ⟨h.symm, by omega⟩)

/-- The code at `IPTR` as a number (R101). -/
theorem inCode_toNat (s : State) :
    s.inCode.toNat = 256 * (s.ibufByte s.iptr).toNat + (s.ibufByte (s.iptr + 1)).toNat := by
  have h0 := (s.ibufByte s.iptr).isLt
  have h1 := (s.ibufByte (s.iptr + 1)).isLt
  simp only [State.inCode, codeOfBytes, BitVec.toNat_ofNat]
  omega

theorem inCode_eq_of_toNat {s : State} {c : Code}
    (h : c.toNat = 256 * (s.ibufByte s.iptr).toNat + (s.ibufByte (s.iptr + 1)).toNat) :
    s.inCode = c := BitVec.eq_of_toNat_eq (by rw [inCode_toNat, h])

end Sys2Proof.Machine
end

