-- ==== Sys2Proof/Laws/Ops.lean ====
section
/-! SUPPORT. One lemma for each shared operation that says everything it can answer. -/

namespace Sys2Proof.Machine

theorem commit_of_fits {s : State} (h : s.outputFits = true) : commit s = .next (commitState s) := by
  simp [commit, h]

/-- Commit (R66) answers a next state only where the output fits, and then the commit's effect. -/
theorem commit_next {s t : State} (h : commit s = .next t) :
    s.outputFits = true ∧ t = commitState s := by
  unfold commit at h
  split at h
  · cases h; exact ⟨‹_›, rfl⟩
  · cases h

theorem commit_of_not_fits {s : State} (h : s.outputFits = false) :
    commit s = .refused .outputBeyondCapacity := by simp [commit, h]

/-- The whole of the commit: its effect where the output fits, a refusal where it does not (U5, U18). -/
theorem commit_cases (s : State) :
    s.outputFits = true ∧ commit s = .next (commitState s) ∨
    s.outputFits = false ∧ commit s = .refused .outputBeyondCapacity := by
  cases h : s.outputFits
  · exact .inr ⟨rfl, commit_of_not_fits h⟩
  · exact .inl ⟨rfl, commit_of_fits h⟩

/-- The whole of `DEC.TAIL` (R137). -/
theorem decTailOp_cons (b : Byte) (bs : Bytes) (s : State) :
    decTailOp (b :: bs) s = .next { s with
      out := s.out ++ (b :: bs), ent := insertBelow s.maxsize.toNat s.ent (s.w ++ [b]),
      w := b :: bs } := rfl

theorem decTailOp_next {entry : Bytes} {s t : State} (h : decTailOp entry s = .next t) :
    ∃ b bs, entry = b :: bs ∧ t = { s with
      out := s.out ++ entry, ent := insertBelow s.maxsize.toNat s.ent (s.w ++ [b]), w := entry } := by
  cases entry with
  | nil => cases h
  | cons b bs =>
    rw [decTailOp_cons] at h
    cases h
    exact ⟨b, bs, rfl, rfl⟩

theorem emitMatch_of_find {s : State} {c : Nat} (h : s.find s.w = some c) :
    emitMatch s = .next (put16Op (BitVec.ofNat 16 c) s) := by simp [emitMatch, h]

theorem emitMatch_next {s t : State} (h : emitMatch s = .next t) :
    ∃ c, s.find s.w = some c ∧ t = put16Op (BitVec.ofNat 16 c) s := by
  unfold emitMatch at h
  split at h
  · cases h; exact ⟨_, ‹_›, rfl⟩
  · cases h

/-- A command is accepted in the states R153, R154 and R156 name. -/
theorem whenCommandLegal_of {s body : State} (hb : s.busy = false) (hm : s.maxsizeLegal = true)
    (hi : withinCap s.params.ibufCap s.ilen.toNat = true) : whenCommandLegal s body = .next body := by
  simp [whenCommandLegal, hb, hm, hi]

theorem whenCommandLegal_next {s body t : State} (h : whenCommandLegal s body = .next t) :
    s.busy = false ∧ s.maxsizeLegal = true ∧ withinCap s.params.ibufCap s.ilen.toNat = true ∧
      t = body := by
  unfold whenCommandLegal at h
  split at h
  · cases h
  · split at h
    · cases h
    · split at h
      · cases h
      · cases h; simp_all

theorem whenCommandLegal_busy {s body : State} (hb : s.busy = true) :
    whenCommandLegal s body = .refused .writeWhileBusy := by simp [whenCommandLegal, hb]

theorem whenNotBusy_of {s : State} {body : Result} (h : s.busy = false) :
    whenNotBusy s body = body := by simp [whenNotBusy, h]

theorem whenNotBusy_busy {s : State} {body : Result} (h : s.busy = true) :
    whenNotBusy s body = .refused .writeWhileBusy := by simp [whenNotBusy, h]

theorem whenNotBusy_next {s t : State} {body : Result} (h : whenNotBusy s body = .next t) :
    s.busy = false ∧ body = .next t := by
  unfold whenNotBusy at h
  split at h
  · cases h
  · exact ⟨by simpa using ‹¬s.busy = true›, h⟩

/-- `DEC.INIT` (R130): the two failures, or the start. -/
theorem decInitOp_cases (s : State) :
    (s.ilen.toNat = 0 ∧ decInitOp s = raiseOp .decompression .decEmpty s) ∨
    (s.ilen.toNat % 2 = 1 ∧ decInitOp s = raiseOp .decompression .decOddLength s) ∨
    (s.ilen.toNat ≠ 0 ∧ s.ilen.toNat % 2 = 0 ∧ decInitOp s = startRun .dec0 s) := by
  unfold decInitOp
  split
  · simp [‹s.ilen.toNat = 0›]
  · split
    · simp [‹s.ilen.toNat % 2 = 1›]
    · exact .inr (.inr ⟨‹_›, by omega, rfl⟩)

theorem loadInput_next {a : Nat} {bs : Bytes} {s t : State} (h : loadInput a bs s = .next t) :
    s.busy = false ∧ withinCap s.params.ibufCap (a + bs.length) = true ∧ t = s.memWrite .ibuf a bs := by
  obtain ⟨hb, h⟩ := whenNotBusy_next h
  split at h
  · cases h; exact ⟨hb, ‹_›, rfl⟩
  · cases h

/-- A buffer read changes nothing but the host's record (R56, R152). -/
theorem readBuffer_next {sp : Space} {cap : Option Nat} {a n : Nat} {s t : State}
    (h : readBuffer sp cap a n s = .next t) :
    t = { s with replies := t.replies, busyReads := t.busyReads } := by
  unfold readBuffer at h
  split at h
  · cases h
  · split at h
    · cases h; rfl
    · cases h; rfl

theorem readOutput_busy {s : State} (h : s.busy = true) :
    readOutput s = .next (busyBytesReply (Config.freeBusyWord s.busyReads).toNat s) := by
  simp [readOutput, h]

theorem readOutput_notBusy {s : State} (h : s.busy = false) :
    readOutput s = readBuffer .obuf s.params.obufCap 0 s.olen.toNat s := by
  simp [readOutput, h]

theorem readOutput_next {s t : State} (h : readOutput s = .next t) :
    t = { s with replies := t.replies, busyReads := t.busyReads } := by
  unfold readOutput at h
  split at h
  · cases h; rfl
  · exact readBuffer_next h

/-- What a buffer read answers, in its three cases (R152, U3; logs 9 and 15). -/
theorem readBuffer_beyond {sp : Space} {cap : Option Nat} {a n : Nat} {s : State}
    (h : withinCap cap (a + n) = false) :
    readBuffer sp cap a n s = .fault (.noSuchOffset sp (a + n - 1)) := by simp [readBuffer, h]

theorem readBuffer_busy {sp : Space} {cap : Option Nat} {a n : Nat} {s : State}
    (h : withinCap cap (a + n) = true) (hb : s.busy = true) :
    readBuffer sp cap a n s = .next (busyBytesReply n s) := by simp [readBuffer, h, hb]

theorem readBuffer_notBusy {sp : Space} {cap : Option Nat} {a n : Nat} {s : State}
    (h : withinCap cap (a + n) = true) (hb : s.busy = false) :
    readBuffer sp cap a n s = .next (reply (.bytes (s.memRead sp a n)) s) := by
  simp [readBuffer, h, hb]

theorem busyBytesReply_eq (n : Nat) (s : State) : ∃ bs : Bytes, bs.length = n ∧
    busyBytesReply n s =
      { s with replies := s.replies ++ [.bytes bs], busyReads := s.busyReads + 1 } :=
  ⟨_, by simp, rfl⟩

theorem expandScript_of {cmd : Word} {b : Bytes} (s : State) (h : lengthOk b = true) :
    expandScript cmd b s = .next { s with script := expansion cmd b ++ s.script } := by
  simp [expandScript, h]

theorem expandScript_tooLong {cmd : Word} {b : Bytes} (s : State) (h : lengthOk b = false) :
    expandScript cmd b s = .refused .lengthBeyondRegister := by simp [expandScript, h]

theorem expandScript_next {cmd : Word} {b : Bytes} {s t : State} (h : expandScript cmd b s = .next t) :
    lengthOk b = true ∧ t = { s with script := expansion cmd b ++ s.script } := by
  unfold expandScript at h
  split at h
  · cases h; exact ⟨‹_›, rfl⟩
  · cases h

theorem outputFits_put16Op {c : Code} {s : State} :
    (put16Op c s).outputFits =
      (withinCap s.params.obufCap (s.out ++ codeBytes c).length &&
        decide ((s.out ++ codeBytes c).length < 2 ^ Config.lenWidth)) := rfl

end Sys2Proof.Machine
end

