-- ==== Sys2Proof/Laws/Step.lean ====
section
/-! SUPPORT. What a step can do, said once: every effect of a sequencer's move and of a host's move, with
its guard. Invariants are derived from these two lemmas. -/

namespace Sys2Proof.Machine

/-- Everything a sequencer step that answers a next state can have done (R111, R131). -/
inductive SeqEffect (s : State) : State → Prop
  | extend (hp : s.phase = .enc) (hi : s.iptr < s.ilen.toNat)
      (hf : (s.find (s.w ++ [s.inByte])).isSome = true) :
      SeqEffect s { s with w := s.w ++ [s.inByte], iptr := s.iptr + 1 }
  | emitIns (hp : s.phase = .enc) (hi : s.iptr < s.ilen.toNat) (c : Nat)
      (hf : s.find (s.w ++ [s.inByte]) = none) (hw : s.find s.w = some c)
      (hd : s.dlen < s.maxsize.toNat) :
      SeqEffect s { s with
        out := s.out ++ codeBytes (BitVec.ofNat 16 c), ent := s.ent ++ [s.w ++ [s.inByte]],
        w := [s.inByte], iptr := s.iptr + 1 }
  | emitFrz (hp : s.phase = .enc) (hi : s.iptr < s.ilen.toNat) (c : Nat)
      (hf : s.find (s.w ++ [s.inByte]) = none) (hw : s.find s.w = some c)
      (hd : s.maxsize.toNat ≤ s.dlen) :
      SeqEffect s { s with
        out := s.out ++ codeBytes (BitVec.ofNat 16 c), w := [s.inByte], iptr := s.iptr + 1 }
  | flush (hp : s.phase = .enc) (hi : s.iptr = s.ilen.toNat) (c : Nat) (hne : s.w ≠ [])
      (hw : s.find s.w = some c) (ho : (put16Op (BitVec.ofNat 16 c) s).outputFits = true) :
      SeqEffect s (commitState (put16Op (BitVec.ofNat 16 c) s))
  | end0 (hp : s.phase = .enc) (hi : s.iptr = s.ilen.toNat) (he : s.w = [])
      (ho : s.outputFits = true) : SeqEffect s (commitState s)
  | fault (hp : s.phase = .enc) (hw : s.find s.w = none)
      (hc : s.iptr = s.ilen.toNat ∧ s.w ≠ [] ∨
        s.iptr < s.ilen.toNat ∧ s.find (s.w ++ [s.inByte]) = none) :
      SeqEffect s (raiseOp .compression .encLookupMiss s)
  | first (hp : s.phase = .dec0) (hk : s.inCode.toNat < s.dlen) (entry : Bytes)
      (he : s.entry s.inCode.toNat = some entry) :
      SeqEffect s { s with
        k := s.inCode, iptr := s.iptr + 2, out := s.out ++ entry, w := entry, phase := .dec }
  | badFirst (hp : s.phase = .dec0) (hk : s.dlen ≤ s.inCode.toNat) :
      SeqEffect s (raiseOp .decompression .decBadFirstCode (get16Op s))
  | known (hp : s.phase = .dec) (hi : s.iptr < s.ilen.toNat) (hk : s.inCode.toNat < s.dlen)
      (b : Byte) (bs : Bytes) (he : s.entry s.inCode.toNat = some (b :: bs)) :
      SeqEffect s { s with
        k := s.inCode, iptr := s.iptr + 2, out := s.out ++ (b :: bs), w := b :: bs,
        ent := insertBelow s.maxsize.toNat s.ent (s.w ++ [b]) }
  | next (hp : s.phase = .dec) (hi : s.iptr < s.ilen.toNat) (hk : s.inCode.toNat = s.dlen)
      (b : Byte) (bs : Bytes) (hw : s.w = b :: bs) :
      SeqEffect s { s with
        k := s.inCode, iptr := s.iptr + 2, out := s.out ++ (s.w ++ [b]), w := s.w ++ [b],
        ent := insertBelow s.maxsize.toNat s.ent (s.w ++ [b]) }
  | bad (hp : s.phase = .dec) (hi : s.iptr < s.ilen.toNat) (hk : s.dlen < s.inCode.toNat) :
      SeqEffect s (raiseOp .decompression .decBadCode (get16Op s))
  | decEnd (hp : s.phase = .dec) (hi : s.iptr = s.ilen.toNat) (ho : s.outputFits = true) :
      SeqEffect s (commitState s)

theorem exec_selected_next {s t : State} {i : Instr} (hs : seqSelect s = some i)
    (h : exec i s = .next t) : SeqEffect s t := by
  have hb := busy_of_seqSelect hs
  cases hp : s.phase with
  | idle => simp [seqSelect, hp] at hs
  | done => simp [seqSelect, hp] at hs
  | fail => simp [seqSelect, hp] at hs
  | enc =>
    rcases Nat.lt_trichotomy s.iptr s.ilen.toNat with hi | hi | hi
    · have hs' := hs
      rw [seqSelect_encRaw hp hi] at hs'
      rcases encByte_cases (Option.some.inj hs') with ⟨rfl, hf⟩ | ⟨rfl, hf, hw⟩ | ⟨rfl, hf, hw, hd⟩ |
        ⟨rfl, hf, hw, hd⟩
      · simp only [exec, execEncExtend, whenSelected_eq hs] at h
        cases h
        exact .extend hp hi hf
      · simp only [exec, execEncFault, whenSelected_eq hs] at h
        cases h
        exact .fault hp hw (.inr ⟨hi, hf⟩)
      · obtain ⟨c, hc⟩ := Option.isSome_iff_exists.1 hw
        simp only [exec, execEncEmitIns, whenSelected_eq hs, emitMatch_of_find hc] at h
        cases h
        exact .emitIns hp hi c hf hc hd
      · obtain ⟨c, hc⟩ := Option.isSome_iff_exists.1 hw
        simp only [exec, execEncEmitFrz, whenSelected_eq hs, emitMatch_of_find hc] at h
        cases h
        exact .emitFrz hp hi c hf hc hd
    · have hs' := hs
      rw [seqSelect_encClose hp hi] at hs'
      obtain rfl := Option.some.inj hs'
      rcases encClose_cases s with ⟨he, hw⟩ | ⟨he, hne, hw⟩ | ⟨he, hne, hw⟩ <;> rw [he] at h hs
      · simp only [exec, execEncEnd0, whenSelected_eq hs] at h
        obtain ⟨ho, rfl⟩ := commit_next h
        exact .end0 hp hi hw ho
      · obtain ⟨c, hc⟩ := Option.isSome_iff_exists.1 hw
        simp only [exec, execEncFlush, whenSelected_eq hs, emitMatch_of_find hc] at h
        obtain ⟨ho, rfl⟩ := commit_next h
        exact .flush hp hi c hne hc ho
      · simp only [exec, execEncFault, whenSelected_eq hs] at h
        cases h
        exact .fault hp hw (.inl ⟨hi, hne⟩)
    · simp [seqSelect, hp, show ¬ s.iptr < s.ilen.toNat by omega, show ¬ s.iptr = s.ilen.toNat by omega]
        at hs
  | dec0 =>
    have hs' := hs
    rw [seqSelect_dec0 hp] at hs'
    rcases firstCode_cases (Option.some.inj hs') with ⟨rfl, hk⟩ | ⟨rfl, hk⟩
    · simp only [exec, execDecFirst, whenSelected_eq hs] at h
      split at h
      · cases h
        exact .first hp hk _ ‹_›
      · cases h
    · simp only [exec, execDecBadfirst, whenSelected_eq hs] at h
      cases h
      exact .badFirst hp hk
  | dec =>
    rcases Nat.lt_trichotomy s.iptr s.ilen.toNat with hi | hi | hi
    · have hs' := hs
      rw [seqSelect_dec hp hi] at hs'
      rcases laterCode_cases (Option.some.inj hs') with ⟨rfl, hk⟩ | ⟨rfl, hk⟩ | ⟨rfl, hk⟩
      · simp only [exec, execDecKnown, whenSelected_eq hs] at h
        split at h
        · obtain ⟨b, bs, rfl, rfl⟩ := decTailOp_next h
          exact .known hp hi hk b bs ‹_›
        · cases h
      · simp only [exec, execDecNext, whenSelected_eq hs] at h
        split at h
        · cases h
        · have hw : s.w = _ := ‹(get16Op s).w = _›
          obtain ⟨b, bs, hb, rfl⟩ := decTailOp_next h
          obtain rfl : _ = b := (List.cons.inj hb).1
          have := SeqEffect.next hp hi hk _ _ hw
          simpa [hw] using this
      · simp only [exec, execDecBad, whenSelected_eq hs] at h
        cases h
        exact .bad hp hi hk
    · have hs' := hs
      rw [seqSelect_decEnd hp hi] at hs'
      obtain rfl := Option.some.inj hs'
      simp only [exec, execDecEnd, whenSelected_eq hs] at h
      obtain ⟨ho, rfl⟩ := commit_next h
      exact .decEnd hp hi ho
    · simp [seqSelect, hp, show ¬ s.iptr < s.ilen.toNat by omega, show ¬ s.iptr = s.ilen.toNat by omega]
        at hs

/-- A sequencer's move that answers a next state is a selected step, or nothing where no run is in
progress. -/
theorem sequencerMove_next {s t : State} (h : sequencerMove s = .next t) :
    s.busy = true ∧ SeqEffect s t ∨ s.busy = false ∧ t = s := by
  unfold sequencerMove at h
  split at h
  · split at h
    · exact .inl ⟨‹_›, exec_selected_next ‹_› h⟩
    · cases h
  · cases h
    exact .inr ⟨by simpa using ‹¬s.busy = true›, rfl⟩

/-- Everything a host's move that answers a next state can have done, on the state `s` whose script has
already lost its line (R150 to R157, R83). -/
inductive HostEffect (s : State) : State → Prop
  | record (rs : List Reply) (n : Nat) (ops : List HostOp) :
      HostEffect s { s with replies := rs, busyReads := n, script := ops }
  | setMaxsize (hb : s.busy = false) (v : BitVec 17) : HostEffect s { s with maxsize := v }
  | setIlen (hb : s.busy = false) (v : Word) : HostEffect s { s with ilen := v }
  | load (hb : s.busy = false) (a : Nat) (bs : Bytes) : HostEffect s (s.memWrite .ibuf a bs)
  | encode (hb : s.busy = false) (hm : s.maxsizeLegal = true)
      (hi : withinCap s.params.ibufCap s.ilen.toNat = true) :
      HostEffect s (encInitOp (clearStatus s))
  | decode (hb : s.busy = false) (hm : s.maxsizeLegal = true)
      (hi : withinCap s.params.ibufCap s.ilen.toNat = true) :
      HostEffect s (decInitOp (clearStatus s))

theorem HostEffect.same (s : State) : HostEffect s s := .record s.replies s.busyReads s.script

theorem startEncode_next {s t : State} (h : startEncode s = .next t) : HostEffect s t := by
  obtain ⟨hb, hm, hi, rfl⟩ := whenCommandLegal_next h
  exact .encode hb hm hi

theorem startDecode_next {s t : State} (h : startDecode s = .next t) : HostEffect s t := by
  obtain ⟨hb, hm, hi, rfl⟩ := whenCommandLegal_next h
  exact .decode hb hm hi

theorem readBuffer_effect {sp : Space} {cap : Option Nat} {a n : Nat} {s t : State}
    (h : readBuffer sp cap a n s = .next t) : HostEffect s t := by
  rw [readBuffer_next h]
  exact .record _ _ s.script

theorem readOutput_effect {s t : State} (h : readOutput s = .next t) : HostEffect s t := by
  rw [readOutput_next h]
  exact .record _ _ s.script

theorem execRd_next {r : Nat} {s t : State} (h : execRd r s = .next t) : HostEffect s t := by
  unfold execRd at h
  split at h
  · cases h
  · split at h
    · cases h; exact .record _ _ s.script
    · cases h; exact .record _ _ s.script

theorem execWr_next {r : Nat} {v : Word} {s t : State} (h : execWr r v s = .next t) :
    HostEffect s t := by
  obtain ⟨hb, h⟩ := whenNotBusy_next h
  split at h
  · split at h
    · exact startEncode_next h
    · exact startDecode_next h
    · cases h
  · cases h; exact .same s
  · split at h
    · cases h; exact .setMaxsize hb _
    · cases h
  · cases h; exact .setIlen hb v
  · cases h; exact .same s
  · cases h

theorem execHostOp_next {op : HostOp} {s t : State} (h : exec (decodeHostOp op) s = .next t) :
    HostEffect s t := by
  cases op with
  | rd r => exact execRd_next h
  | wr r v =>
    simp only [decodeHostOp] at h
    split at h
    · unfold decodeCmd at h
      split at h
      · exact startEncode_next h
      · split at h
        · exact startDecode_next h
        · cases (whenNotBusy_next h).2
    · exact execWr_next h
  | ldin f =>
    cases f with
    | block bs =>
      obtain ⟨hb, -, rfl⟩ := loadInput_next h
      exact .load hb _ _
    | byteAt off b =>
      obtain ⟨hb, -, rfl⟩ := loadInput_next h
      exact .load hb _ _
  | rdout f =>
    cases f with
    | block n => exact readBuffer_effect h
    | olen => exact readOutput_effect h
    | outByte a => exact readBuffer_effect h
    | inByte a => exact readBuffer_effect h
  | wait =>
    cases h
    exact .record _ _ _
  | encodeB b =>
    obtain ⟨-, rfl⟩ := expandScript_next h
    exact .record _ _ _
  | decodeB b =>
    obtain ⟨-, rfl⟩ := expandScript_next h
    exact .record _ _ _

/-- A host's move that answers a next state. -/
theorem hostMove_next {s t : State} (h : hostMove s = .next t) :
    ∃ ops, HostEffect { s with script := ops } t := by
  unfold hostMove at h
  split at h
  · cases h; exact ⟨s.script, .same s⟩
  · exact ⟨_, execHostOp_next h⟩

/-- A step is a reset, a host's move or a sequencer's move, on the state without the turn taken. -/
theorem step_next {s t : State} (h : step s = .next t) :
    ∃ ts, t = resetOp { s with turns := ts } ∨ hostMove { s with turns := ts } = .next t ∨
      sequencerMove { s with turns := ts } = .next t := by
  unfold step move at h
  split at h
  · cases h; exact ⟨_, .inl rfl⟩
  · exact ⟨_, .inr (.inl h)⟩
  · exact ⟨_, .inr (.inr h)⟩
  · split at h
    · exact ⟨s.turns, .inr (.inr h)⟩
    · exact ⟨s.turns, .inr (.inl h)⟩

/-! ### Runs of several steps -/

theorem run_succ {s t : State} (n : Nat) (h : step s = .next t) :
    Host.Core.run Sys2Proof.core (n + 1) s = Host.Core.run Sys2Proof.core n t := by
  have h' : Sys2Proof.core.step s = .next t := h
  simp only [Host.Core.run]
  rw [h']

theorem run_succ_next {s t : State} {n : Nat} (h : Host.Core.run Sys2Proof.core (n + 1) s = .next t) :
    ∃ u : State, step s = .next u ∧ Host.Core.run Sys2Proof.core n u = .next t := by
  have hs : Sys2Proof.core.step s = step s := rfl
  simp only [Host.Core.run] at h
  rw [hs] at h
  cases hu : step s with
  | next u => rw [hu] at h; exact ⟨u, rfl, h⟩
  | fault r => rw [hu] at h; cases h
  | refused r => rw [hu] at h; cases h

/-- Runs compose. -/
theorem run_add (a b : Nat) {s t : State} (h : Host.Core.run Sys2Proof.core a s = .next t) :
    Host.Core.run Sys2Proof.core (a + b) s = Host.Core.run Sys2Proof.core b t := by
  induction a generalizing s with
  | zero => cases h; simp
  | succ a ih =>
    obtain ⟨u, hu, h⟩ := run_succ_next h
    rw [show a + 1 + b = (a + b) + 1 by omega, run_succ _ hu]
    exact ih h

/-- With no turn listed, a selected step is the machine's step. -/
theorem step_of_seqSelect {s : State} (ht : s.turns = []) {i : Instr} (hs : seqSelect s = some i) :
    step s = exec i s := by
  simp [step, move, ht, busy_of_seqSelect hs, sequencerMove, hs]

end Sys2Proof.Machine
end

