-- ==== Sys2Proof/Laws/Stream.lean ====
section
/-! SUPPORT. Lemmas about the input of a run, about what the commit and the fault entry deliver, and
about the code stream seen as a list of codes. -/

namespace Sys2Proof.Machine

theorem input_length (s : State) : s.input.length = s.ilen.toNat := memRead_length _ _ _ _

/-- The bytes not yet consumed start with the byte at `IPTR`. -/
theorem input_drop {s : State} (h : s.iptr < s.ilen.toNat) :
    s.input.drop s.iptr = s.inByte :: s.input.drop (s.iptr + 1) := by
  have hl : s.iptr < s.input.length := by rw [input_length]; exact h
  rw [List.drop_eq_getElem_cons hl]
  congr 1
  have hg := memRead_ibuf_getElem? s 0 s.ilen.toNat s.iptr h
  rw [List.getElem?_eq_some_iff] at hg
  obtain ⟨_, hg⟩ := hg
  simpa [State.inByte, State.input] using hg

/-- Consuming a byte moves it to the consumed part. -/
theorem input_take_succ {s : State} (h : s.iptr < s.ilen.toNat) :
    s.input.take (s.iptr + 1) = s.input.take s.iptr ++ [s.inByte] := by
  rw [List.take_add_one]
  congr 1
  rw [State.input, memRead_ibuf_getElem? _ _ _ _ h]
  simp [State.inByte]

/-- The codes not yet read start with the code at `IPTR` (R103). -/
theorem des_input_drop {s : State} (h : s.iptr + 1 < s.ilen.toNat) :
    des (s.input.drop s.iptr) = s.inCode :: des (s.input.drop (s.iptr + 2)) := by
  rw [input_drop (by omega)]
  have hn : s.input.drop (s.iptr + 1) = s.ibufByte (s.iptr + 1) :: s.input.drop (s.iptr + 2) :=
    input_drop (s := { s with iptr := s.iptr + 1 }) h
  rw [hn]
  rfl

theorem ibufByte_memWrite_inside (s : State) (off : Nat) (bs : Bytes) {i : Nat} (h : i < bs.length) :
    some ((s.memWrite .ibuf off bs).ibufByte (off + i)) = bs[i]? := by
  simp only [State.ibufByte, memWrite_ibuf_ibuf, Memory.read_writeBytes_inside bs s.ibuf off i h]
  simp [h]

theorem ibufByte_memWrite_outside (s : State) (off : Nat) (bs : Bytes) {a : Nat}
    (h : a < off ∨ off + bs.length ≤ a) :
    (s.memWrite .ibuf off bs).ibufByte a = s.ibufByte a := by
  rcases h with h | h
  · simp only [State.ibufByte, memWrite_ibuf_ibuf, Memory.read_writeBytes_below bs s.ibuf off a h,
      memWrite_ibuf_resets]
  · simp only [State.ibufByte, memWrite_ibuf_ibuf, Memory.read_writeBytes_above bs s.ibuf off a h,
      memWrite_ibuf_resets]

/-- Below `OLEN` an `OBUF` byte that was written reads as written (R14, R38). -/
theorem obufByte_memWrite_inside (s : State) (off : Nat) (bs : Bytes) {i : Nat} (h : i < bs.length)
    (ho : off + i < s.olen.toNat) :
    some ((s.memWrite .obuf off bs).obufByte (off + i)) = bs[i]? := by
  simp only [State.obufByte, memWrite_obuf_obuf, memWrite_obuf_olen, ho, if_true,
    Memory.read_writeBytes_inside bs s.obuf off i h]
  simp [h]

theorem obufByte_memWrite_outside (s : State) (off : Nat) (bs : Bytes) {a : Nat}
    (h : a < off ∨ off + bs.length ≤ a) :
    (s.memWrite .obuf off bs).obufByte a = s.obufByte a := by
  rcases h with h | h
  · simp only [State.obufByte, memWrite_obuf_obuf, Memory.read_writeBytes_below bs s.obuf off a h,
      memWrite_obuf_olen, memWrite_obuf_epoch]
  · simp only [State.obufByte, memWrite_obuf_obuf, Memory.read_writeBytes_above bs s.obuf off a h,
      memWrite_obuf_olen, memWrite_obuf_epoch]

theorem commitState_olen_toNat {s : State} (h : s.out.length < 2 ^ 32) :
    (commitState s).olen.toNat = s.out.length := by
  simp only [commitState_olen, BitVec.toNat_ofNat]
  exact Nat.mod_eq_of_lt h

/-- The result of a run that ends with a commit (R17, R66). -/
theorem commitState_result {s : State} (h : s.out.length < 2 ^ 32) :
    (commitState s).result = some (s.err, BitVec.ofNat 32 s.out.length, s.out) := by
  simp [State.result, commitState_output _ h]

/-- The result of a run that ends with a fault: no byte of output (R179). -/
theorem raiseOp_result (kind : ErrKind) (c : Cause) (s : State) :
    (raiseOp kind c s).result = some (kind, 0, []) := by
  simp [State.result, raiseOp, State.output, State.memRead]

theorem des_append : ∀ a b : Bytes, a.length % 2 = 0 → des (a ++ b) = des a ++ des b
  | [], _, _ => rfl
  | [_], _, h => by simp at h
  | x :: y :: a, b, h => by
    have ih := des_append a b (by simp at h; omega)
    simp [des, ih]

theorem des_length : ∀ a : Bytes, (des a).length = a.length / 2
  | [] => rfl
  | [_] => by simp [des]
  | _ :: _ :: a => by simp [des, des_length a]; omega

/-- A code below `MAX_CODES` keeps its value in 16 bits (R19). -/
theorem ofNat16_toNat {c : Nat} (h : c < 65536) : (BitVec.ofNat 16 c).toNat = c := by
  rw [BitVec.toNat_ofNat]
  exact Nat.mod_eq_of_lt h

theorem maxsizeLegal_iff {s : State} :
    s.maxsizeLegal = true ↔ 256 ≤ s.maxsize.toNat ∧ s.maxsize.toNat ≤ 65536 := by
  simp [State.maxsizeLegal]

end Sys2Proof.Machine
end

