-- ==== Sys2Proof/Laws/Invariant.lean ====
section
/-! SUPPORT. What the dictionary's invariant rests on: the seed has it and the one kind of insertion keeps
it (10_state.md R32 to R35), and old codes keep their meaning when an entry is added (R33). -/

namespace Sys2Proof.Machine

/-- The seed meets the dictionary's invariant (R90). -/
theorem dictInv_seedEntries {m : Nat} (h : 256 ≤ m) : DictInv m seedEntries where
  literals := fun _ hi => seedEntries_getElem? hi
  lower := by simp
  upper := by simpa using h
  nonempty := fun e he => by obtain ⟨b, rfl⟩ := mem_seedEntries.1 he; simp
  prefixed := fun i h1 h2 => by simp [Config.seedSize] at h1 h2; omega

/-- Inserting an entry of the dictionary plus one byte, below the cap, keeps the invariant (R33 to R35). -/
theorem dictInv_insertBelow {m : Nat} {ent : List Bytes} {w : Bytes} {b : Byte} (h : DictInv m ent)
    (hw : ent.length < m → w ∈ ent) : DictInv m (insertBelow m ent (w ++ [b])) := by
  unfold insertBelow
  split
  case isFalse => exact h
  case isTrue hlt =>
    have hlow := h.lower
    refine ⟨fun i hi => ?_, by simp; omega, by simp; omega, fun e he => ?_, fun i h1 h2 => ?_⟩
    · rw [List.getElem?_append_left (by omega)]
      exact h.literals i hi
    · rcases List.mem_append.1 he with he | he
      · exact h.nonempty e he
      · simp at he
        simp [he]
    · simp at h2
      by_cases hi : i < ent.length
      · obtain ⟨p, e, b', hp, he, hi'⟩ := h.prefixed i h1 hi
        refine ⟨p, e, b', hp, ?_, ?_⟩
        · rw [List.getElem?_append_left (by omega)]; exact he
        · rw [List.getElem?_append_left (by omega)]; exact hi'
      · obtain ⟨p, hp⟩ := List.mem_iff_getElem?.1 (hw hlt)
        have hpl := (List.getElem?_eq_some_iff.1 hp).1
        refine ⟨p, w, b, by omega, ?_, ?_⟩
        · rw [List.getElem?_append_left (by omega)]; exact hp
        · obtain rfl : i = ent.length := by omega
          simp

/-- An added entry does not change what earlier codes stand for (R33). -/
theorem expandCodes_insert (ent : List Bytes) (x : Bytes) (cs : List Code)
    (h : ∀ c ∈ cs, c.toNat < ent.length) : expandCodes (ent ++ [x]) cs = expandCodes ent cs := by
  unfold expandCodes
  induction cs with
  | nil => rfl
  | cons c cs ih =>
    simp only [List.flatMap_cons]
    rw [ih (fun c hc => h c (by simp [hc])), List.getElem?_append_left (h c (by simp))]

theorem expandCodes_append (ent : List Bytes) (a b : List Code) :
    expandCodes ent (a ++ b) = expandCodes ent a ++ expandCodes ent b := by
  simp [expandCodes]

end Sys2Proof.Machine
end

