-- ==== Sys2Proof/Laws/PerInstr.lean ====
section
/-! SUPPORT. The per-instruction family `FormatAgrees`: the encoder gives an operation a word of the
format its row of the opcode table names, and gives it none exactly where the table says NONE
(30_encoding.md R70). -/

namespace Sys2Proof.Laws.FormatAgrees

/-- The encoder and the table's column "format" agree (R70, R71, R72, R78). -/
def Statement (i : Instr) : Prop :=
  ((encode i).map Encoded.format).getD .none = i.format ∧ ((encode i).isNone ↔ i.format = .none)

theorem encode : Statement (.encode) :=
  ⟨rfl, ⟨fun h => (nomatch h), fun h => (nomatch h)⟩⟩

theorem decode : Statement (.decode) :=
  ⟨rfl, ⟨fun h => (nomatch h), fun h => (nomatch h)⟩⟩

theorem cmdReserved (v : Word) : Statement (.cmdReserved v) :=
  ⟨rfl, ⟨fun h => (nomatch h), fun h => (nomatch h)⟩⟩

theorem decFirst (c : Code) : Statement (.decFirst c) :=
  ⟨rfl, ⟨fun h => (nomatch h), fun h => (nomatch h)⟩⟩

theorem decBadfirst (c : Code) : Statement (.decBadfirst c) :=
  ⟨rfl, ⟨fun h => (nomatch h), fun h => (nomatch h)⟩⟩

theorem decKnown (c : Code) : Statement (.decKnown c) :=
  ⟨rfl, ⟨fun h => (nomatch h), fun h => (nomatch h)⟩⟩

theorem decNext (c : Code) : Statement (.decNext c) :=
  ⟨rfl, ⟨fun h => (nomatch h), fun h => (nomatch h)⟩⟩

theorem decBad (c : Code) : Statement (.decBad c) :=
  ⟨rfl, ⟨fun h => (nomatch h), fun h => (nomatch h)⟩⟩

theorem encExtend (k : Byte) : Statement (.encExtend k) :=
  ⟨rfl, ⟨fun h => (nomatch h), fun h => (nomatch h)⟩⟩

theorem encEmitIns (k : Byte) : Statement (.encEmitIns k) :=
  ⟨rfl, ⟨fun h => (nomatch h), fun h => (nomatch h)⟩⟩

theorem encEmitFrz (k : Byte) : Statement (.encEmitFrz k) :=
  ⟨rfl, ⟨fun h => (nomatch h), fun h => (nomatch h)⟩⟩

theorem encInit : Statement (.encInit) :=
  ⟨rfl, ⟨fun _ => rfl, fun _ => rfl⟩⟩

theorem encFlush : Statement (.encFlush) :=
  ⟨rfl, ⟨fun _ => rfl, fun _ => rfl⟩⟩

theorem encEnd0 : Statement (.encEnd0) :=
  ⟨rfl, ⟨fun _ => rfl, fun _ => rfl⟩⟩

theorem encFault : Statement (.encFault) :=
  ⟨rfl, ⟨fun _ => rfl, fun _ => rfl⟩⟩

theorem decInit : Statement (.decInit) :=
  ⟨rfl, ⟨fun _ => rfl, fun _ => rfl⟩⟩

theorem decTail (e : Bytes) : Statement (.decTail e) :=
  ⟨rfl, ⟨fun _ => rfl, fun _ => rfl⟩⟩

theorem decEnd : Statement (.decEnd) :=
  ⟨rfl, ⟨fun _ => rfl, fun _ => rfl⟩⟩

theorem seed : Statement (.seed) :=
  ⟨rfl, ⟨fun _ => rfl, fun _ => rfl⟩⟩

theorem put16 (c : Code) : Statement (.put16 c) :=
  ⟨rfl, ⟨fun _ => rfl, fun _ => rfl⟩⟩

theorem get16 : Statement (.get16) :=
  ⟨rfl, ⟨fun _ => rfl, fun _ => rfl⟩⟩

theorem rd (r : Nat) : Statement (.rd r) :=
  ⟨rfl, ⟨fun _ => rfl, fun _ => rfl⟩⟩

theorem wr (r : Nat) (v : Word) : Statement (.wr r v) :=
  ⟨rfl, ⟨fun _ => rfl, fun _ => rfl⟩⟩

theorem ldin (f : LdinForm) : Statement (.ldin f) :=
  ⟨rfl, ⟨fun _ => rfl, fun _ => rfl⟩⟩

theorem rdout (f : RdoutForm) : Statement (.rdout f) :=
  ⟨rfl, ⟨fun _ => rfl, fun _ => rfl⟩⟩

theorem wait : Statement (.wait) :=
  ⟨rfl, ⟨fun _ => rfl, fun _ => rfl⟩⟩

theorem encodeB (b : Bytes) : Statement (.encodeB b) :=
  ⟨rfl, ⟨fun _ => rfl, fun _ => rfl⟩⟩

theorem decodeB (b : Bytes) : Statement (.decodeB b) :=
  ⟨rfl, ⟨fun _ => rfl, fun _ => rfl⟩⟩

end Sys2Proof.Laws.FormatAgrees
end

