-- ==== Sys2Proof/Tests/Slice0.lean ====
section
/-! SUPPORT. The model's own tests: ill-formed terms the checks refuse, words written out from
30_encoding.md, one step each of the spec's own examples, and a witness for the hypotheses of every
obligation that has some. -/

namespace Sys2Proof.Tests

open Sys2Proof Sys2Proof.Machine

set_option Elab.async false

/-! ## Helpers -/

/-- The next state, if there is one. -/
def after : Result → Option State
  | .next t => some t
  | .fault _ => none
  | .refused _ => none

/-- The refusal, if there is one. -/
def refusal : Result → Option Refusal
  | .next _ => none
  | .fault _ => none
  | .refused r => some r

/-- The fault, if there is one. -/
def faultOf : Result → Option Fault
  | .next _ => none
  | .fault r => some r
  | .refused _ => none

theorem exists_next {r : Result} (h : (after r).isSome = true) : ∃ t, r = .next t := by
  cases r with
  | next t => exact ⟨t, rfl⟩
  | fault f => cases h
  | refused f => cases h

/-- An idle block with `bs` in `IBUF` and in `ILEN`. -/
def loaded (bs : Bytes) : State :=
  { State.reset with ibuf := Memory.writeBytes [] 0 bs, ilen := BitVec.ofNat 32 bs.length }

/-- An encode run over `bs` that has consumed `i` bytes. -/
def encAt (bs : Bytes) (i : Nat) (w : Bytes) (more : List Bytes) (m : BitVec 17) : State :=
  { loaded bs with phase := .enc, iptr := i, w := w, ent := seedEntries ++ more, maxsize := m }

/-- A decode run over `bs` that has consumed `i` bytes. -/
def decAt (bs : Bytes) (i : Nat) (w : Bytes) (more : List Bytes) (m : BitVec 17) : State :=
  { loaded bs with phase := .dec, iptr := i, w := w, ent := seedEntries ++ more, maxsize := m }

/-- A decode run over `bs` that has just started. -/
def dec0At (bs : Bytes) : State := { loaded bs with phase := .dec0, ent := seedEntries }

/-! ## WellFormed: a term each check refuses -/

theorem test_wf_reserved_is_not_encode : (Instr.cmdReserved 1).wf = false := by decide
theorem test_wf_reserved_is_not_decode : (Instr.cmdReserved 2).wf = false := by decide
theorem test_wf_first_code_is_literal : (Instr.decFirst 256).wf = false := by decide
theorem test_wf_bad_first_code_is_no_literal : (Instr.decBadfirst 255).wf = false := by decide
theorem test_wf_tail_entry_not_empty : (Instr.decTail []).wf = false := by decide
theorem test_wf_read_register_exists : (Instr.rd 5).wf = false := by decide
theorem test_wf_write_register_exists : (Instr.wr 5 0).wf = false := by decide
theorem test_wf_maxsize_word : (Instr.wr 2 0x20000).wf = false := by decide

/-- A sequence of `2^32` bytes, whose length no length register holds. -/
theorem exists_too_long : ∃ bs : Bytes, lengthOk bs = false := by
  have key : ∀ n, n = 2 ^ 32 → ∃ bs : Bytes, lengthOk bs = false := fun n hn =>
    ⟨List.replicate n 0, by rw [lengthOk, List.length_replicate, hn]; decide⟩
  exact key _ rfl

theorem test_wf_encode_length : ∃ bs, (Instr.encodeB bs).wf = false := exists_too_long
theorem test_wf_decode_length : ∃ bs, (Instr.decodeB bs).wf = false := exists_too_long

/-! ## Decoding: words written out from 30_encoding.md -/

/-- R73, R78: `op` in bits 7 to 0, zeros above. -/
theorem test_decode_commands :
    decodeTableWord 32 0x00000001 = some .encode ∧ decodeTableWord 32 0x00000002 = some .decode ∧
    decodeTableWord 32 0x00000101 = some (.cmdReserved 0x101) ∧
    decodeTableWord 32 0x00000000 = some (.cmdReserved 0) := by decide +kernel

/-- R71, R76: the first code, `00 FF` and `01 00` in stream order. -/
theorem test_decode_first_codes :
    decode (.firstCode 256) (.code16 0x00 0xFF) = .ok (.decFirst 0x00FF) ∧
    decode (.firstCode 256) (.code16 0x01 0x00) = .ok (.decBadfirst 0x0100) ∧
    decodeTableWord 16 0x00FF = some (.decFirst 0x00FF) ∧
    decodeTableWord 16 0x0100 = some (.decBadfirst 0x0100) := by decide +kernel

/-- R52, R75: code 258 is the bytes `01 02`; the classes at `DLEN` 259, 258 and 257. -/
theorem test_decode_later_codes :
    decode (.laterCode 259) (.code16 0x01 0x02) = .ok (.decKnown 258) ∧
    decode (.laterCode 258) (.code16 0x01 0x02) = .ok (.decNext 258) ∧
    decode (.laterCode 257) (.code16 0x01 0x02) = .ok (.decBad 258) := by decide +kernel

/-- R72, R111: the byte `41` after nothing, after "A" with room, and after "A" in a full dictionary. -/
theorem test_decode_raw_bytes :
    decode (.raw seedEntries [] 4096) (.byte8 0x41) = .ok (.encExtend 0x41) ∧
    decode (.raw seedEntries [0x41] 4096) (.byte8 0x41) = .ok (.encEmitIns 0x41) ∧
    decode (.raw seedEntries [0x41] 256) (.byte8 0x41) = .ok (.encEmitFrz 0x41) ∧
    decode (.raw seedEntries [0x5A, 0x5A] 256) (.byte8 0x41) = .ok .encFault := by decide +kernel

theorem test_decode_rejects_by_name :
    decode .cmd (.byte8 1) = .error .wrongFormat ∧
    decodeBytes (.laterCode 300) [0x01] = .error .truncated ∧
    decodeBytes .cmd [0x01, 0x00, 0x00, 0x00] = .error .noByteForm := by decide

/-! ## One step of each operation: the spec's own examples -/

/-- R153: the status reads `BUSY` right after the command. -/
theorem test_encode :
    (after (exec .encode (loaded [0x41, 0x41, 0x41]))).map
      (fun t => (t.statusWord, t.phase, t.dlen, t.iptr)) = some (1, .enc, 256, 0) := by
  decide +kernel

/-- R150, R154: an odd-length stream gives `0x0000003B` in the command step. -/
theorem test_decode_odd :
    (after (exec .decode (loaded [0x00, 0x41, 0x01]))).map
      (fun t => (t.statusWord, t.olen)) = some (0x3B, 0) := by decide +kernel

/-- R171: the empty stream is cause 2. -/
theorem test_decode_empty :
    (after (exec .decode (loaded []))).map (fun t => t.statusWord) = some 0x2B := by decide +kernel

theorem test_cmdReserved :
    refusal (exec (.cmdReserved 3) State.reset) = some (.reservedCommand 3) := by decide

/-- While `STATE = BUSY` a reserved word is a write while busy, as a script line and as `WR 0` (U2). -/
theorem test_cmdReserved_busy :
    refusal (hostMove { encAt [65] 0 [] [] 4096 with script := [.wr 0 3] }) = some .writeWhileBusy ∧
    refusal (exec (.wr 0 3) (encAt [65] 0 [] [] 4096)) = some .writeWhileBusy := by decide +kernel

/-- R132's example. -/
theorem test_decFirst :
    (after (exec (.decFirst 65) (dec0At [0x00, 0x41]))).map
      (fun t => (t.out, t.w, t.dlen, t.iptr, t.phase)) = some ([0x41], [0x41], 256, 2, .dec) := by
  decide +kernel

/-- R133's example. -/
theorem test_decBadfirst :
    (after (exec (.decBadfirst 256) (dec0At [0x01, 0x00]))).map
      (fun t => (t.statusWord, t.olen)) = some (0x4B, 0) := by decide +kernel

/-- R135's example. -/
theorem test_decKnown :
    (after (exec (.decKnown 66) (decAt [0x00, 0x41, 0x00, 0x42] 2 [0x41] [] 4096))).map
      (fun t => (t.out, t.w, t.entry 256, t.dlen)) =
      some ([0x42], [0x42], some [0x41, 0x42], 257) := by decide +kernel

/-- R136's example. -/
theorem test_decNext :
    (after (exec (.decNext 256) (decAt [0x00, 0x41, 0x01, 0x00] 2 [0x41] [] 4096))).map
      (fun t => (t.out, t.w, t.entry 256, t.dlen)) =
      some ([0x41, 0x41], [0x41, 0x41], some [0x41, 0x41], 257) := by decide +kernel

/-- R136 (b): the code `DLEN` with a full dictionary is accepted and nothing is inserted. -/
theorem test_decNext_full :
    (after (exec (.decNext 256) (decAt [0x00, 0x41, 0x01, 0x00] 2 [0x41] [] 256))).map
      (fun t => (t.out, t.w, t.dlen)) = some ([0x41, 0x41], [0x41, 0x41], 256) := by decide +kernel

/-- R138's example. -/
theorem test_decBad :
    (after (exec (.decBad 257) (decAt [0x00, 0x41, 0x01, 0x01] 2 [0x41] [] 4096))).map
      (fun t => (t.statusWord, t.olen)) = some (0x5B, 0) := by decide +kernel

/-- R112's example. -/
theorem test_encExtend :
    (after (exec (.encExtend 0x41)
      (encAt [0x41, 0x41, 0x41] 2 [0x41] [[0x41, 0x41]] 4096))).map
      (fun t => (t.w, t.iptr, t.out, t.dlen)) = some ([0x41, 0x41], 3, [], 257) := by decide +kernel

/-- R113's example. -/
theorem test_encEmitIns :
    (after (exec (.encEmitIns 0x41) (encAt [0x41, 0x41, 0x41] 1 [0x41] [] 4096))).map
      (fun t => (t.out, t.entry 256, t.dlen, t.w)) =
      some ([0x00, 0x41], some [0x41, 0x41], 257, [0x41]) := by decide +kernel

/-- R114's example. -/
theorem test_encEmitFrz :
    (after (exec (.encEmitFrz 0x41)
      (encAt [0x41, 0x42, 0x41, 0x42, 0x41] 4 [0x41, 0x42] [[0x41, 0x42], [0x42, 0x41]] 258))).map
      (fun t => (t.out, t.dlen, t.w)) = some ([0x01, 0x00], 258, [0x41]) := by decide +kernel

/-- R110's example. -/
theorem test_encInit :
    (after (exec .encInit (loaded [0x41]))).map
      (fun t => (t.w, t.dlen, t.iptr, t.out, t.statusWord)) = some ([], 256, 0, [], 1) := by
  decide +kernel

/-- R115's example. -/
theorem test_encFlush :
    (after (exec .encFlush (encAt [0x41] 1 [0x41] [] 4096))).map
      (fun t => (t.olen, t.output, t.statusWord)) = some (2, [0x00, 0x41], 2) := by decide +kernel

/-- R116's example. -/
theorem test_encEnd0 :
    (after (exec .encEnd0 (encAt [] 0 [] [] 4096))).map
      (fun t => (t.olen, t.statusWord)) = some (0, 2) := by decide +kernel

/-- R117's hand-built state. -/
theorem test_encFault :
    (after (exec .encFault (encAt [0x5A, 0x5A] 2 [0x5A, 0x5A] [] 4096))).map
      (fun t => (t.statusWord, t.olen)) = some (0x17, 0) := by decide +kernel

/-- R130's example. -/
theorem test_decInit :
    (after (exec .decInit (loaded [0x00, 0x41, 0x01]))).map
      (fun t => (t.phase, t.err, t.cause)) = some (.fail, .decompression, .decOddLength) := by
  decide +kernel

/-- R137: the inserted entry is the OLD match and one byte. -/
theorem test_decTail :
    (after (exec (.decTail [0x42, 0x43]) (decAt [] 0 [0x41] [] 4096))).map
      (fun t => (t.out, t.entry 256, t.w)) =
      some ([0x42, 0x43], some [0x41, 0x42], [0x42, 0x43]) := by decide +kernel

/-- R139's example, before its last step. -/
theorem test_decEnd :
    (after (exec .decEnd { decAt [0x00, 0x41] 2 [0x41] [] 4096 with out := [0x41] })).map
      (fun t => (t.olen, t.output, t.statusWord)) = some (1, [0x41], 2) := by decide +kernel

/-- R90's example. -/
theorem test_seed :
    (after (exec .seed { State.reset with ent := [[0x00], [0x01, 0x02]] })).map
      (fun t => (t.entry 0x41, t.entry 255, t.dlen, t.find [0x41], t.find [0x41, 0x41])) =
      some (some [0x41], some [0xFF], 256, some 65, none) := by decide +kernel

/-- R100's example. -/
theorem test_put16 :
    (after (exec (.put16 258) State.reset)).map (fun t => t.out) = some [0x01, 0x02] := by
  decide +kernel

/-- R101's example. -/
theorem test_get16 :
    (after (exec .get16 { loaded [0x00, 0x41, 0x01, 0x00] with iptr := 2 })).map
      (fun t => (t.k, t.iptr)) = some (256, 4) := by decide +kernel

/-- R150's example. -/
theorem test_rd :
    (after (exec (.rd 2) State.reset)).map (fun t => t.replies) = some [.word 2 4096] ∧
    (after (exec (.rd 1) State.reset)).map (fun t => t.replies) = some [.word 1 0] := by
  decide +kernel

/-- R151's example, and R25: 65536 fits the 17-bit field. -/
theorem test_wr :
    (after (exec (.wr 2 256) State.reset)).map (fun t => t.maxsize) = some 256 ∧
    (after (exec (.wr 2 65536) State.reset)).map (fun t => t.maxsize.toNat) = some 65536 := by
  decide +kernel

/-- R152: bytes at offsets at and above `|bs|` keep their values; `ILEN` is not set. -/
theorem test_ldin :
    (after (exec (.ldin (.block [0x61, 0x62])) (loaded [0x41, 0x42, 0x43]))).map
      (fun t => (t.input, t.ilen)) = some ([0x61, 0x62, 0x43], 3) := by decide +kernel

/-- R152: reading the output buffer after a commit. -/
theorem test_rdout :
    (after (exec (.rdout .olen) { commitState { State.reset with out := [0x00, 0x41] } with script := [] })).map
      (fun t => t.replies) = some [.bytes [0x00, 0x41]] := by decide +kernel

/-- R50: an offset at the capacity does not exist. -/
theorem test_ldin_beyond_capacity :
    faultOf (exec (.ldin (.byteAt 2 0)) (State.resetWith ⟨some 2, none⟩)) =
      some (.noSuchOffset .ibuf 2) := by decide +kernel

/-- R82: the line is repeated while `STATE = BUSY`. -/
theorem test_wait :
    (after (exec .wait (encAt [0x41] 0 [] [] 4096))).map (fun t => (t.script, t.replies)) =
      some ([.wait], [.word 1 1]) ∧
    (after (exec .wait State.reset)).map (fun t => (t.script, t.replies)) =
      some ([], [.word 1 0]) := by decide +kernel

/-- R83's first expansion. -/
theorem test_encodeB :
    (after (exec (.encodeB [0x41]) State.reset)).map (fun t => t.script) =
      some [.ldin (.block [0x41]), .wr 3 1, .wr 0 1, .wait, .rd 1, .rd 4, .rdout .olen] := by
  decide +kernel

/-- R83's second expansion. -/
theorem test_decodeB :
    (after (exec (.decodeB [0x00, 0x41]) State.reset)).map (fun t => t.script) =
      some [.ldin (.block [0x00, 0x41]), .wr 3 2, .wr 0 2, .wait, .rd 1, .rd 4, .rdout .olen] := by
  decide +kernel

/-- The host's fetch: each format's word placed after reset is what the next step runs. -/
theorem test_fetch :
    (after (step (State.reset.withFetchWord 32 1))).map (fun t => t.phase) = some .enc ∧
    (after (step (State.reset.withFetchWord 16 0x0041))).map (fun t => (t.out, t.phase)) =
      some ([0x41], .dec) ∧
    (after (step (State.reset.withFetchWord 8 0x41))).map (fun t => (t.w, t.iptr)) =
      some ([0x41], 1) := by decide +kernel

/-! ## Witnesses: states and operands that meet the hypotheses of each obligation -/

theorem witness_DecodeOfEncodeIsIdentity :
    ((Instr.cmdReserved 0xFFFFFFFF).wf = true ∧ Ctx.cmd.fits (.cmdReserved 0xFFFFFFFF) = true) ∧
    ((Instr.decFirst 255).wf = true ∧ (Ctx.firstCode 256).fits (.decFirst 255) = true) ∧
    ((Instr.decNext 0xFFFF).wf = true ∧ (Ctx.laterCode 65535).fits (.decNext 0xFFFF) = true) ∧
    ((Instr.encEmitFrz 0).wf = true ∧ (Ctx.raw seedEntries [0] 256).fits (.encEmitFrz 0) = true) ∧
    encode (.encEmitFrz 0) = some (.byte8 0) := by decide +kernel

theorem witness_EncodeOfDecodeIsIdentity :
    decode (.laterCode 256) (.code16 0xFF 0xFF) = .ok (.decBad 0xFFFF) ∧
    Instr.decBad 0xFFFF ≠ .encFault ∧
    decode .cmd (.cmd32 0) = .ok (.cmdReserved 0) ∧
    decode (.firstCode 256) (.code16 0x01 0x00) = .ok (.decBadfirst 256) := by decide

theorem witness_CommandWordsAreTwo : (0 : Word) ≠ 0x00000001#32 ∧ (0 : Word) ≠ 0x00000002#32 := by
  decide

/-- The classes at the boundary: code 256 below, at and above `DLEN`, and the largest code below 65536. -/
theorem witness_LaterCodesAreClassedByTableLength :
    (codeOfBytes 1 0).toNat < 257 ∧ (codeOfBytes 1 0).toNat = 256 ∧ 255 < (codeOfBytes 1 0).toNat ∧
    (codeOfBytes 0xFF 0xFF).toNat < 65536 := by decide

theorem witness_FirstCodeIsLiteralOrBad : (0 : Byte) = 0 ∧ (1 : Byte) ≠ 0 := by decide

theorem witness_CodeBytesAreInverse : ([0xFF, 0xFF] : Bytes).length % 2 = 0 := by decide

theorem witness_StreamFunctionsAreInverse : ([0x00, 0x41, 0x01, 0x00] : Bytes).length % 2 = 0 := by
  decide

/-- A script with and without a turn; the seven ways a sequencer's step is chosen. -/
theorem witness_StepRunsTheDecodedOperation :
    ({ State.reset with script := [.wait], turns := [.host] }.turns = .host :: []) ∧
    State.reset.busy = false ∧
    (decode (.raw seedEntries [] 4096) (.byte8 (encAt [0x41] 0 [] [] 4096).inByte) =
      .ok (.encExtend 0x41)) ∧
    (decode (.firstCode (dec0At [0x00, 0x41]).dlen)
      (.code16 ((dec0At [0x00, 0x41]).ibufByte 0) ((dec0At [0x00, 0x41]).ibufByte 1)) =
      .ok (.decFirst 65)) ∧
    (decode (.laterCode (decAt [0, 65, 1, 0] 2 [65] [] 4096).dlen)
      (.code16 ((decAt [0, 65, 1, 0] 2 [65] [] 4096).ibufByte 2)
        ((decAt [0, 65, 1, 0] 2 [65] [] 4096).ibufByte 3)) = .ok (.decNext 256)) ∧
    ((encAt [] 0 [] [] 4096).iptr = (encAt [] 0 [] [] 4096).ilen.toNat) ∧
    ((encAt [65] 1 [65] [] 4096).find [65]).isSome = true ∧
    (encAt [90, 90] 2 [90, 90] [] 4096).find [90, 90] = none ∧
    ((decAt [0, 65] 2 [65] [] 4096).iptr = (decAt [0, 65] 2 [65] [] 4096).ilen.toNat) := by
  decide +kernel

/-- A word of each length, and the lowest `IBUF` offset above the placed bytes. -/
theorem witness_FetchedWordIsRun :
    decodeTableWord 32 2 = some .decode ∧ decodeTableWord 16 0xFFFF = some (.decBadfirst 0xFFFF) ∧
    decodeTableWord 8 0xFF = some (.encExtend 0xFF) ∧
    (8 = 8 ∧ 1 ≤ 1) ∧ 2 ≤ 2 := by decide +kernel

theorem witness_IdleMachineStaysAsItIs :
    State.reset.busy = false ∧ State.reset.turns = [] ∧ State.reset.script = [] ∧
    ({ State.reset with turns := [.sequencer] } : State).busy = false := by decide

/-- A reset in the middle of a run. -/
theorem witness_ResetEndsARunWithoutResult :
    ({ encAt [65] 0 [] [] 4096 with turns := [.reset] } : State).turns = .reset :: [] ∧
    ({ encAt [65] 0 [] [] 4096 with turns := [.reset] } : State).busy = true := by decide +kernel

theorem witness_SeedGivesTheLiterals : (255 : Nat) < 256 ∧ ([] : Bytes).length ≠ 1 := by decide

theorem witness_Get16ReadsHighByteFirst :
    (loaded [0xFF, 0xFF]).iptr + 1 < (loaded [0xFF, 0xFF]).ilen.toNat := by decide

theorem witness_DecInitChecksTheLength :
    (loaded []).ilen.toNat = 0 ∧ (loaded [0]).ilen.toNat % 2 = 1 ∧
    (loaded [0, 0]).ilen.toNat ≠ 0 ∧ (loaded [0, 0]).ilen.toNat % 2 = 0 := by decide

/-- The two ways into `ENC.EXTEND`: an entry, and an empty match before a literal. -/
theorem witness_EncExtendGrowsTheMatch :
    ((encAt [65, 65] 1 [65] [[65, 65]] 4096).phase = .enc ∧
      (encAt [65, 65] 1 [65] [[65, 65]] 4096).iptr <
        (encAt [65, 65] 1 [65] [[65, 65]] 4096).ilen.toNat ∧
      (encAt [65, 65] 1 [65] [[65, 65]] 4096).ibufByte 1 = 65 ∧
      ((encAt [65, 65] 1 [65] [[65, 65]] 4096).find ([65] ++ [65])).isSome = true) ∧
    ((encAt [255] 0 [] [] 4096).w = [] ∧ (encAt [255] 0 [] [] 4096).entry 255 = some [255] ∧
      (encAt [255] 0 [] [] 4096).ibufByte 0 = 255) := by decide +kernel

/-- One entry below the cap. -/
theorem witness_EncEmitInsEmitsThenInserts :
    (encAt [65, 66] 1 [65] [] 257).phase = .enc ∧
    (encAt [65, 66] 1 [65] [] 257).iptr < (encAt [65, 66] 1 [65] [] 257).ilen.toNat ∧
    (encAt [65, 66] 1 [65] [] 257).ibufByte 1 = 66 ∧
    (encAt [65, 66] 1 [65] [] 257).find ([65] ++ [66]) = none ∧
    (encAt [65, 66] 1 [65] [] 257).find [65] = some 65 ∧
    (encAt [65, 66] 1 [65] [] 257).dlen < (encAt [65, 66] 1 [65] [] 257).maxsize.toNat := by
  decide +kernel

/-- Exactly at the cap. -/
theorem witness_EncEmitFrzEmitsWithoutInserting :
    (encAt [65, 66] 1 [65] [] 256).phase = .enc ∧
    (encAt [65, 66] 1 [65] [] 256).iptr < (encAt [65, 66] 1 [65] [] 256).ilen.toNat ∧
    (encAt [65, 66] 1 [65] [] 256).ibufByte 1 = 66 ∧
    (encAt [65, 66] 1 [65] [] 256).find ([65] ++ [66]) = none ∧
    (encAt [65, 66] 1 [65] [] 256).find [65] = some 65 ∧
    (encAt [65, 66] 1 [65] [] 256).full = true := by decide +kernel

theorem witness_EncFlushEmitsAndCommits :
    (encAt [65] 1 [65] [] 4096).phase = .enc ∧
    (encAt [65] 1 [65] [] 4096).iptr = (encAt [65] 1 [65] [] 4096).ilen.toNat ∧
    (encAt [65] 1 [65] [] 4096).w ≠ [] ∧ (encAt [65] 1 [65] [] 4096).find [65] = some 65 ∧
    (encAt [65] 1 [65] [] 4096).canDeliver ([] ++ codeBytes 65) = true ∧
    (State.canDeliver { encAt [65] 1 [65] [] 4096 with params := ⟨none, some 2⟩ }
      ([] ++ codeBytes 65) = true ∧
    State.canDeliver { encAt [65] 1 [65] [] 4096 with params := ⟨none, some 1⟩ }
      ([] ++ codeBytes 65) = false) := by decide +kernel

theorem witness_ClosingStepsCommit :
    ((encAt [] 0 [] [] 4096).iptr = (encAt [] 0 [] [] 4096).ilen.toNat ∧
      (encAt [] 0 [] [] 4096).canDeliver [] = true ∧ (encAt [] 0 [] [] 4096).phase = .enc ∧
      (encAt [] 0 [] [] 4096).w = []) ∧
    ((decAt [0, 65] 2 [65] [] 4096).iptr = (decAt [0, 65] 2 [65] [] 4096).ilen.toNat ∧
      (decAt [0, 65] 2 [65] [] 4096).canDeliver (decAt [0, 65] 2 [65] [] 4096).out = true ∧
      (decAt [0, 65] 2 [65] [] 4096).phase = .dec) ∧
    State.canDeliver { encAt [] 0 [] [] 4096 with params := ⟨none, some 0⟩, out := [65] } [65] =
      false ∧
    State.canDeliver { decAt [0, 65] 2 [65] [] 4096 with params := ⟨none, some 0⟩, out := [65] } [65] =
      false := by decide +kernel

/-- R117's hand-built state, and one with a byte still to come. -/
theorem witness_EncFaultRaisesCompression :
    ((encAt [90, 90] 2 [90, 90] [] 4096).find [90, 90] = none ∧
      (encAt [90, 90] 2 [90, 90] [] 4096).iptr = (encAt [90, 90] 2 [90, 90] [] 4096).ilen.toNat ∧
      (encAt [90, 90] 2 [90, 90] [] 4096).w ≠ []) ∧
    ((encAt [90, 90, 90] 2 [90, 90] [] 4096).iptr <
        (encAt [90, 90, 90] 2 [90, 90] [] 4096).ilen.toNat ∧
      (encAt [90, 90, 90] 2 [90, 90] [] 4096).find ([90, 90] ++ [90]) = none) := by decide +kernel

theorem witness_DecFirstEmitsTheEntry :
    (dec0At [0, 255]).phase = .dec0 ∧
    (255 : Code).toNat = 256 * ((dec0At [0, 255]).ibufByte 0).toNat +
      ((dec0At [0, 255]).ibufByte 1).toNat ∧
    (dec0At [0, 255]).entry 255 = some [255] := by decide +kernel

theorem witness_BadCodesRaiseDecompression :
    ((dec0At [1, 0]).phase = .dec0 ∧ (dec0At [1, 0]).dlen ≤ (256 : Code).toNat ∧
      (256 : Code).toNat = 256 * ((dec0At [1, 0]).ibufByte 0).toNat +
        ((dec0At [1, 0]).ibufByte 1).toNat) ∧
    ((decAt [0, 65, 1, 1] 2 [65] [] 4096).phase = .dec ∧
      (decAt [0, 65, 1, 1] 2 [65] [] 4096).iptr < (decAt [0, 65, 1, 1] 2 [65] [] 4096).ilen.toNat ∧
      (decAt [0, 65, 1, 1] 2 [65] [] 4096).dlen < (257 : Code).toNat ∧
      (257 : Code).toNat = 256 * ((decAt [0, 65, 1, 1] 2 [65] [] 4096).ibufByte 2).toNat +
        ((decAt [0, 65, 1, 1] 2 [65] [] 4096).ibufByte 3).toNat) := by decide +kernel

/-- The last entry of the dictionary. -/
theorem witness_DecKnownEmitsTheEntry :
    (decAt [0, 65, 0, 255] 2 [65] [] 4096).phase = .dec ∧
    (decAt [0, 65, 0, 255] 2 [65] [] 4096).iptr < (decAt [0, 65, 0, 255] 2 [65] [] 4096).ilen.toNat ∧
    (255 : Code).toNat = 256 * ((decAt [0, 65, 0, 255] 2 [65] [] 4096).ibufByte 2).toNat +
      ((decAt [0, 65, 0, 255] 2 [65] [] 4096).ibufByte 3).toNat ∧
    (decAt [0, 65, 0, 255] 2 [65] [] 4096).entry 255 = some (255 :: []) := by decide +kernel

/-- Below the cap; `test_decNext_full` is the case at the cap. -/
theorem witness_DecNextRebuildsTheEntry :
    (decAt [0, 65, 1, 0] 2 [65] [] 4096).phase = .dec ∧
    (decAt [0, 65, 1, 0] 2 [65] [] 4096).iptr < (decAt [0, 65, 1, 0] 2 [65] [] 4096).ilen.toNat ∧
    (256 : Code).toNat = 256 * ((decAt [0, 65, 1, 0] 2 [65] [] 4096).ibufByte 2).toNat +
      ((decAt [0, 65, 1, 0] 2 [65] [] 4096).ibufByte 3).toNat ∧
    (256 : Code).toNat = (decAt [0, 65, 1, 0] 2 [65] [] 4096).dlen ∧
    (decAt [0, 65, 1, 0] 2 [65] [] 4096).w = 65 :: [] ∧
    (decAt [0, 65, 1, 0] 2 [65] [] 4096).dlen <
      (decAt [0, 65, 1, 0] 2 [65] [] 4096).maxsize.toNat := by decide +kernel

/-- The commands' premise, with `MAXSIZE` at both ends of its range and at a full capacity. -/
theorem witness_commandLegal :
    CommandLegal { loaded [65] with maxsize := 256 } ∧
    CommandLegal { loaded [] with maxsize := 65536 } ∧
    CommandLegal { loaded [65, 66] with params := ⟨some 2, some 0⟩ } :=
  ⟨⟨by decide, by decide, by decide⟩, ⟨by decide, by decide, by decide⟩,
    ⟨by decide, by decide, by decide⟩⟩

theorem witness_EncodeCommandStartsARun : CommandLegal (loaded [65]) :=
  ⟨by decide, by decide, by decide⟩

/-- A stream of each of the three lengths `DEC.INIT` tells apart. -/
theorem witness_DecodeCommandStartsOrFails :
    (CommandLegal (loaded []) ∧ (loaded []).ilen.toNat = 0) ∧
    (CommandLegal (loaded [0]) ∧ (loaded [0]).ilen.toNat % 2 = 1) ∧
    (CommandLegal (loaded [0, 65]) ∧ (loaded [0, 65]).ilen.toNat ≠ 0 ∧
      (loaded [0, 65]).ilen.toNat % 2 = 0) :=
  ⟨⟨⟨by decide, by decide, by decide⟩, by decide⟩, ⟨⟨by decide, by decide, by decide⟩, by decide⟩,
    ⟨⟨by decide, by decide, by decide⟩, by decide, by decide⟩⟩

/-- A reserved word, and each of the three ways a command is not accepted. -/
theorem witness_CommandsWithoutMeaningAreRefused :
    ((3 : Word) ≠ 1 ∧ (3 : Word) ≠ 2 ∧ State.reset.busy = false ∧
      (encAt [65] 0 [] [] 4096).busy = true) ∧
    refusal (exec .encode { loaded [65] with maxsize := 255 }) = some .illegalMaxsize ∧
    refusal (exec .decode { loaded [65] with maxsize := 65537 }) = some .illegalMaxsize ∧
    refusal (exec .encode { loaded [65] with params := ⟨some 0, none⟩ }) =
      some .inputBeyondCapacity ∧
    refusal (exec .decode (encAt [65] 0 [] [] 4096)) = some .writeWhileBusy := by decide +kernel

theorem witness_RegisterReadsReturnTheRegisters :
    State.reset.busy = false ∧ (encAt [65] 0 [] [] 4096).busy = true ∧ 5 ≤ 5 := by decide +kernel

theorem witness_RegisterWritesStoreOrAreIgnored :
    State.reset.busy = false ∧ (encAt [65] 0 [] [] 4096).busy = true ∧
    (131071 : Word).toNat < 131072 ∧ 131072 ≤ (131072 : Word).toNat := by decide +kernel

/-- Exactly at the capacity, and one byte beyond it; both forms. -/
theorem witness_LdinStoresItsBytesOnly :
    (State.resetWith ⟨some 2, none⟩).busy = false ∧
    withinCap (State.resetWith ⟨some 2, none⟩).params.ibufCap (0 + ([65, 66] : Bytes).length) = true ∧
    withinCap (State.resetWith ⟨some 2, none⟩).params.ibufCap (1 + ([65] : Bytes).length) = true ∧
    withinCap (State.resetWith ⟨some 2, none⟩).params.ibufCap (2 + ([65] : Bytes).length) = false ∧
    (State.resetWith ⟨some 2, none⟩).ibuf.wf = true := by decide

/-- Exactly at the capacity and one byte beyond it, in every form, busy and not. -/
theorem witness_RdoutReturnsTheBytes :
    (State.resetWith ⟨none, some 2⟩).busy = false ∧
    withinCap (State.resetWith ⟨none, some 2⟩).params.obufCap 2 = true ∧
    withinCap (State.resetWith ⟨none, some 2⟩).params.obufCap (1 + 1) = true ∧
    withinCap (State.resetWith ⟨none, some 2⟩).params.obufCap 3 = false ∧
    withinCap (State.resetWith ⟨none, some 2⟩).params.obufCap
      (State.resetWith ⟨none, some 2⟩).olen.toNat = true ∧
    withinCap (State.resetWith ⟨none, some 2⟩).params.obufCap (2 + 1) = false ∧
    withinCap (State.resetWith ⟨some 2, none⟩).params.ibufCap (1 + 1) = true ∧
    withinCap (State.resetWith ⟨some 2, none⟩).params.ibufCap (2 + 1) = false ∧
    (State.busy { State.resetWith ⟨none, some 2⟩ with olen := 3 } = false ∧
      withinCap (some 2) (3 : Word).toNat = false) ∧
    (encAt [65] 0 [] [] 4096).busy = true ∧
    withinCap (encAt [65] 0 [] [] 4096).params.obufCap (0 + 1) = true ∧
    withinCap (encAt [65] 0 [] [] 4096).params.ibufCap (0 + 1) = true := by decide +kernel

theorem witness_WaitPollsUntilNotBusy :
    (encAt [65] 0 [] [] 4096).busy = true ∧ State.reset.busy = false := by decide +kernel

theorem witness_PseudoOperationsExpand :
    ([65] : Bytes).length < 2 ^ 32 ∧ ∃ b : Bytes, 2 ^ 32 ≤ b.length := by
  obtain ⟨b, hb⟩ := exists_too_long
  exact ⟨by decide, b, Nat.not_lt.1 (of_decide_eq_false hb)⟩

theorem witness_WritesWhileBusyAreRefused : (decAt [0, 65] 2 [65] [] 4096).busy = true := by
  decide +kernel

/-- A byte at offset 1: the bytes below and above it, and the last byte below `OLEN`. -/
theorem witness_MemWriteThenMemRead :
    0 + 1 ≤ 1 ∧ 1 + ([65] : Bytes).length ≤ 2 ∧ State.reset.ibuf.wf = true ∧
    State.reset.obuf.wf = true ∧
    1 + ([65] : Bytes).length ≤ (State.olen { State.reset with olen := 2 }).toNat := by decide

theorem witness_CanonicalBuffersAreDeterminedByReads :
    Memory.wf [(0, 65), (7, 66)] = true ∧
    Memory.writeBytes (Memory.write [] 7 66) 0 [65] = [(0, 65), (7, 66)] := by decide

/-! ## Witnesses of the invariant -/

/-- What every state right after a command's start shares. -/
theorem inv_of_start {s : State} (hb : s.ibuf.wf = true) (ho : s.obuf = []) (he : s.err = .none)
    (hc : s.cause = .none) (hol : s.olen = 0) (hd : s.phase ≠ .done) (hf : s.phase ≠ .fail)
    (hm : s.maxsize = 4096)
    (hp : withinCap s.params.ibufCap s.ilen.toNat = true)
    (hdict : DictInv 4096 s.ent) (h1 : s.phase = .enc → EncInv s) (h2 : s.phase = .dec0 → Dec0Inv s)
    (h3 : s.phase = .dec → DecInv s) : Inv s where
  ibuf := hb
  obuf := by rw [ho]; rfl
  status := ⟨by rw [he, hc]; decide, ⟨fun h => absurd h hf, fun h => absurd he h⟩⟩
  output := ⟨fun _ => hol, fun h => absurd h hd, fun h => absurd h hd⟩
  launch := fun _ => ⟨by rw [maxsizeLegal_iff, hm]; decide, hp⟩
  dict := fun _ => by rw [hm]; exact hdict
  encRun := h1
  dec0Run := h2
  decRun := h3

theorem dictInv_run : DictInv 4096 (seedEntries ++ []) := by
  rw [List.append_nil]
  exact dictInv_seedEntries (by decide)

/-- An encode run over "A", right after the command. -/
theorem inv_encAt : Inv (encAt [65] 0 [] [] 4096) := by
  refine inv_of_start (by decide) rfl rfl rfl rfl (by decide) (by decide) rfl rfl
    dictInv_run (fun _ => ?_) (fun h => nomatch h) (fun h => nomatch h)
  refine ⟨by decide, by decide, fun h => absurd rfl h, ?_, rfl, fun c h => (nomatch h), rfl, ?_,
    by decide⟩
  · show (seedEntries ++ []).Nodup
    rw [List.append_nil]
    exact seedEntries_nodup
  · decide +kernel

/-- A decode run over `00 41`, right after the command. -/
theorem inv_dec0At : Inv (dec0At [0, 65]) :=
  inv_of_start (by decide) rfl rfl rfl rfl (by decide) (by decide) rfl rfl
    (dictInv_seedEntries (by decide)) (fun h => nomatch h)
    (fun _ => ⟨rfl, by decide, by decide, rfl, rfl, rfl⟩) (fun h => nomatch h)

/-- The same run after its first code. -/
theorem inv_decAt : Inv { decAt [0, 65] 2 [65] [] 4096 with out := [65] } := by
  refine inv_of_start (by decide) rfl rfl rfl rfl (by decide) (by decide) rfl rfl
    dictInv_run (fun h => nomatch h) (fun h => nomatch h) (fun _ => ?_)
  refine ⟨by decide, by decide, by decide, by decide, by decide, by decide +kernel, fun _ => ?_,
    by decide, fun e he => ?_, by decide, by decide⟩
  · exact List.mem_append_left _ (mem_seedEntries.2 ⟨65, rfl⟩)
  · have he : e ∈ seedEntries ++ [] := he
    rw [List.append_nil] at he
    obtain ⟨b, rfl⟩ := mem_seedEntries.1 he
    exact Nat.le_refl 1

/-- The same state of an instance with no room for output: a decode run's invariant does not mention it. -/
theorem inv_decAt_noRoom :
    Inv { decAt [0, 65] 2 [65] [] 4096 with out := [65], params := ⟨none, some 0⟩ } :=
  have d : DecInv _ := inv_decAt.decRun rfl
  inv_of_start (by decide) rfl rfl rfl rfl (by decide) (by decide) rfl rfl
    dictInv_run (fun h => nomatch h) (fun h => nomatch h) fun _ =>
    ⟨d.matchNonempty, d.ptrEven, d.ptrLow, d.ptr, d.lenEven, d.growth, d.matchEntry, d.matchLength,
      d.entryLength, d.outLow, d.outHigh⟩

theorem witness_StepKeepsTheInvariant :
    Inv (encAt [65] 0 [] [] 4096) ∧ ∃ t, step (encAt [65] 0 [] [] 4096) = .next t :=
  ⟨inv_encAt, exists_next (by decide +kernel)⟩

theorem witness_CompressionErrorIsUnreachable :
    Inv (encAt [65] 0 [] [] 4096) ∧ (encAt [65] 0 [] [] 4096).phase = .enc ∧
    ∃ t, sequencerMove (encAt [65] 0 [] [] 4096) = .next t :=
  ⟨inv_encAt, rfl, exists_next (by decide +kernel)⟩

/-- A busy state of each phase, and one whose closing step has nowhere to put its output. -/
theorem witness_BusySequencerAlwaysSteps :
    (Inv (encAt [65] 0 [] [] 4096) ∧ (encAt [65] 0 [] [] 4096).busy = true) ∧
    (Inv (dec0At [0, 65]) ∧ (dec0At [0, 65]).busy = true) ∧
    (Inv { decAt [0, 65] 2 [65] [] 4096 with out := [65] } ∧
      (decAt [0, 65] 2 [65] [] 4096).busy = true) ∧
    (Inv { decAt [0, 65] 2 [65] [] 4096 with out := [65], params := ⟨none, some 0⟩ } ∧
      refusal (sequencerMove { decAt [0, 65] 2 [65] [] 4096 with
        out := [65], params := ⟨none, some 0⟩ }) = some .outputBeyondCapacity) :=
  ⟨⟨inv_encAt, rfl⟩, ⟨inv_dec0At, rfl⟩, ⟨inv_decAt, rfl⟩, inv_decAt_noRoom, by decide +kernel⟩

/-- A step that adds an entry, and one that ends the run. -/
theorem witness_SequencerOnlyAppendsEntries :
    ((encAt [65, 66] 1 [65] [] 257).busy = true ∧
      ∃ t, sequencerMove (encAt [65, 66] 1 [65] [] 257) = .next t) ∧
    ((decAt [0, 65] 2 [65] [] 4096).busy = true ∧
      ∃ t, sequencerMove (decAt [0, 65] 2 [65] [] 4096) = .next t) :=
  ⟨⟨rfl, exists_next (by decide +kernel)⟩, ⟨rfl, exists_next (by decide +kernel)⟩⟩

theorem witness_HostCannotDisturbARun :
    ({ encAt [65] 0 [] [] 4096 with script := [.rd 2] } : State).busy = true ∧
    ∃ t, hostMove { encAt [65] 0 [] [] 4096 with script := [.rd 2] } = .next t :=
  ⟨rfl, ⟨_, rfl⟩⟩

/-- A host that writes `MAXSIZE` after a run, and one that waits after a failed run. -/
theorem witness_EndedRunsStayUntilACommand :
    (({ loaded [65] with phase := .done, script := [.wr 2 300] } : State).phase = .done ∧
      (∀ ts, ({ loaded [65] with phase := .done, script := [.wr 2 300] } : State).turns ≠
        .reset :: ts) ∧
      (∀ v ops, ({ loaded [65] with phase := .done, script := [.wr 2 300] } : State).script ≠
        .wr 0 v :: ops) ∧
      ∃ t, step { loaded [65] with phase := .done, script := [.wr 2 300] } = .next t) ∧
    (({ loaded [65] with phase := .fail, script := [.wait] } : State).phase = .fail ∧
      ∃ t, step { loaded [65] with phase := .fail, script := [.wait] } = .next t) :=
  ⟨⟨rfl, fun _ h => (nomatch h), fun _ _ h => by simp at h, ⟨_, rfl⟩⟩, ⟨rfl, ⟨_, rfl⟩⟩⟩

/-- Two blocks with different pasts and the same input, two steps into the run. -/
theorem witness_RunDependsOnItsInputsOnly :
    (∃ t₁ u₁ : State, exec .encode (loaded [65]) = .next t₁ ∧
      Host.Core.run Sys2Proof.core 2 t₁ = .next u₁) ∧
    (∃ t₂ u₂ : State, exec .encode { loaded [65] with phase := .fail, w := [1, 2], resets := 5 } =
      .next t₂ ∧ Host.Core.run Sys2Proof.core 2 t₂ = .next u₂) ∧
    (loaded [65]).turns = [] ∧ (loaded [65]).script = [] ∧
    (loaded [65]).input = ({ loaded [65] with phase := .fail, w := [1, 2], resets := 5 } : State).input := by
  have h₁ : ∃ u : State, Host.Core.run Sys2Proof.core 2
      (encInitOp (clearStatus (loaded [65]))) = .next u := exists_next (by decide +kernel)
  have h₂ : ∃ u : State, Host.Core.run Sys2Proof.core 2 (encInitOp (clearStatus
      { loaded [65] with phase := .fail, w := [1, 2], resets := 5 })) = .next u :=
    exists_next (by decide +kernel)
  obtain ⟨u₁, h₁⟩ := h₁
  obtain ⟨u₂, h₂⟩ := h₂
  exact ⟨⟨_, u₁, rfl, h₁⟩, ⟨_, u₂, rfl, h₂⟩, rfl, rfl, by decide +kernel⟩

theorem witness_EncodeRunComputesEncode :
    CommandLegal (loaded [65, 65, 65]) ∧ (loaded [65, 65, 65]).turns = [] ∧
    encodeFn (loaded [65, 65, 65]).maxsize.toNat (loaded [65, 65, 65]).input = some [0, 65, 1, 0] ∧
    (loaded [65, 65, 65]).canDeliver [0, 65, 1, 0] = true :=
  ⟨⟨by decide, by decide, by decide⟩, rfl, by decide +kernel, by decide⟩

/-- A stream with a value (R154's example) and one without (R138's example). -/
theorem witness_DecodeRunComputesDecode :
    (CommandLegal (loaded [0, 65, 1, 0]) ∧
      decodeFn (loaded [0, 65, 1, 0]).maxsize.toNat (loaded [0, 65, 1, 0]).input =
        some [65, 65, 65] ∧ (loaded [0, 65, 1, 0]).canDeliver [65, 65, 65] = true) ∧
    (CommandLegal (loaded [0, 65, 1, 1]) ∧
      decodeFn (loaded [0, 65, 1, 1]).maxsize.toNat (loaded [0, 65, 1, 1]).input = none) :=
  ⟨⟨⟨by decide, by decide, by decide⟩, by decide +kernel, by decide⟩,
    ⟨⟨by decide, by decide, by decide⟩, by decide +kernel⟩⟩

theorem witness_DecodeOfEncodedStreamIsTheInput :
    256 ≤ 256 ∧ 65536 ≤ 65536 ∧ ([65] : Bytes) ≠ [] := by decide

theorem witness_EncoderHasNoReachableError :
    256 ≤ 65536 ∧ 65536 ≤ 65536 ∧ ([0] : Bytes) ≠ [] := by decide

theorem witness_DecodedLengthIsBounded :
    256 ≤ 256 ∧ 256 ≤ 65536 ∧ decodeFn 256 [0, 65, 1, 0, 1, 0] = some [65, 65, 65, 65, 65, 65] := by
  decide +kernel

theorem witness_CompressScriptReturnsTheStream :
    ({ State.reset with script := [.encodeB [65]] } : State).busy = false ∧
    ({ State.reset with script := [.encodeB [65]] } : State).turns = [] ∧
    ({ State.reset with script := [.encodeB [65]] } : State).script = .encodeB [65] :: [] ∧
    State.reset.maxsizeLegal = true ∧ ([65] : Bytes).length < 2 ^ 32 ∧
    withinCap State.reset.params.ibufCap 1 = true ∧
    encodeFn State.reset.maxsize.toNat [65] = some [0, 65] ∧
    State.reset.canDeliver [0, 65] = true := by decide +kernel

theorem witness_DecompressScriptReturnsBytesOrError :
    ({ State.reset with script := [.decodeB [0, 65]] } : State).busy = false ∧
    ({ State.reset with script := [.decodeB [0, 65]] } : State).turns = [] ∧
    ({ State.reset with script := [.decodeB [0, 65]] } : State).script = .decodeB [0, 65] :: [] ∧
    State.reset.maxsizeLegal = true ∧ ([0, 65] : Bytes).length < 2 ^ 32 ∧
    withinCap State.reset.params.ibufCap 2 = true ∧
    decodeFn State.reset.maxsize.toNat [0, 65] = some [65] ∧ State.reset.canDeliver [65] = true ∧
    decodeFn State.reset.maxsize.toNat [0] = none := by decide +kernel

end Sys2Proof.Tests
end

section
/-! PROOFS. Reading a buffer back after `MemWrite`: the bytes written, the bytes of the same buffer outside
them, and the other buffer (R14, R50), each stated once for both buffers. -/

namespace Sys2Proof.Machine

/-- One byte of a buffer, the buffer being a parameter: `MemRead` is this byte by byte (`memRead_eq_map`). -/
def State.bufferByte (s : State) : Space → Nat → Byte
  | .ibuf => s.ibufByte
  | .obuf => s.obufByte

theorem memRead_eq_map (s : State) (sp : Space) (a n : Nat) :
    s.memRead sp a n = (List.range n).map fun i => s.bufferByte sp (a + i) := by
  cases sp <;> rfl

/-- `MemRead` depends on the bytes of its range only. -/
theorem memRead_congr {s t : State} {sp : Space} {a n : Nat}
    (h : ∀ i < n, t.bufferByte sp (a + i) = s.bufferByte sp (a + i)) :
    t.memRead sp a n = s.memRead sp a n := by
  rw [memRead_eq_map, memRead_eq_map]
  exact List.map_congr_left fun i hi => h i (List.mem_range.1 hi)

theorem bufferByte_memWrite_outside (s : State) (sp : Space) (off : Nat) (bs : Bytes) {a : Nat}
    (h : a < off ∨ off + bs.length ≤ a) :
    (s.memWrite sp off bs).bufferByte sp a = s.bufferByte sp a := by
  cases sp with
  | ibuf => exact ibufByte_memWrite_outside s off bs h
  | obuf => exact obufByte_memWrite_outside s off bs h

theorem bufferByte_memWrite_inside (s : State) (sp : Space) (off : Nat) (bs : Bytes) {i : Nat}
    (h : i < bs.length) (ho : sp = .obuf → off + bs.length ≤ s.olen.toNat) :
    some ((s.memWrite sp off bs).bufferByte sp (off + i)) = bs[i]? := by
  cases sp with
  | ibuf => exact ibufByte_memWrite_inside s off bs h
  | obuf =>
    have hlow : off + i < s.olen.toNat := by have := ho rfl; omega
    exact obufByte_memWrite_inside s off bs h hlow

/-- The two buffers do not overlap (R50). -/
theorem bufferByte_memWrite_otherSpace (s : State) {sp sp' : Space} (hne : sp' ≠ sp) (off a : Nat)
    (bs : Bytes) : (s.memWrite sp off bs).bufferByte sp' a = s.bufferByte sp' a := by
  cases sp with
  | ibuf => cases sp' with
    | ibuf => exact absurd rfl hne
    | obuf => rfl
  | obuf => cases sp' with
    | ibuf => rfl
    | obuf => exact absurd rfl hne

theorem memRead_memWrite_same (s : State) (sp : Space) (addr : Nat) (bs : Bytes)
    (ho : sp = .obuf → addr + bs.length ≤ s.olen.toNat) :
    (s.memWrite sp addr bs).memRead sp addr bs.length = bs := by
  apply List.ext_getElem?
  intro i
  by_cases hi : i < bs.length
  · rw [memRead_eq_map, ← bufferByte_memWrite_inside s sp addr bs hi ho]
    simp [hi]
  · rw [List.getElem?_eq_none (by rw [memRead_length]; omega), List.getElem?_eq_none (by omega)]

theorem memRead_memWrite_outside (s : State) (sp : Space) (addr : Nat) (bs : Bytes) (a n : Nat)
    (h : a + n ≤ addr ∨ addr + bs.length ≤ a) :
    (s.memWrite sp addr bs).memRead sp a n = s.memRead sp a n :=
  memRead_congr fun i hi => bufferByte_memWrite_outside s sp addr bs (by omega)

theorem memRead_memWrite_otherSpace (s : State) {sp sp' : Space} (hne : sp' ≠ sp) (addr : Nat)
    (bs : Bytes) (a n : Nat) : (s.memWrite sp addr bs).memRead sp' a n = s.memRead sp' a n :=
  memRead_congr fun i _ => bufferByte_memWrite_otherSpace s hne addr (a + i) bs

/-- Settles O41: what one byte of a buffer reads as after `MemWrite`, lifted to every range, for each of the
two buffers; the canonical form is kept by `Memory.writeBytes_wf`. -/
theorem memWriteThenMemRead : Obligations.MemWriteThenMemRead := by
  unfold Obligations.MemWriteThenMemRead
  intro s addr bs
  constructor
  · exact ⟨s.memWrite .ibuf addr bs, rfl, rfl,
      memRead_memWrite_same s .ibuf addr bs (fun h => nomatch h),
      memRead_memWrite_outside s .ibuf addr bs,
      memRead_memWrite_otherSpace s (by decide) addr bs,
      Memory.writeBytes_wf bs s.ibuf addr⟩
  · exact ⟨s.memWrite .obuf addr bs, rfl, rfl,
      fun ho => memRead_memWrite_same s .obuf addr bs (fun _ => ho),
      memRead_memWrite_outside s .obuf addr bs,
      memRead_memWrite_otherSpace s (by decide) addr bs,
      Memory.writeBytes_wf bs s.obuf addr⟩

end Sys2Proof.Machine
end

section
/-! PROOFS. What a sequencer step leaves alone (10_state.md R30, R33; 20_memory.md R65), read off the list of
a step's effects, and the block that does nothing. -/

namespace Sys2Proof.Machine

theorem insertBelow_of_lt {m : Nat} {ent : List Bytes} (x : Bytes) (h : ent.length < m) :
    insertBelow m ent x = ent ++ [x] := if_pos h

theorem insertBelow_of_le {m : Nat} {ent : List Bytes} (x : Bytes) (h : m ≤ ent.length) :
    insertBelow m ent x = ent := if_neg (Nat.not_lt.2 h)

/-- An insertion of a non-empty sequence adds that one entry below the cap, or nothing. -/
theorem insertBelow_appends (m : Nat) (ent : List Bytes) {x : Bytes} (hx : x ≠ []) :
    insertBelow m ent x = ent ∨ ent.length < m ∧ ∃ e, e ≠ [] ∧ insertBelow m ent x = ent ++ [e] := by
  rcases Nat.lt_or_ge ent.length m with h | h
  · exact .inr ⟨h, x, hx, insertBelow_of_lt x h⟩
  · exact .inl (insertBelow_of_le x h)

namespace SeqEffect

/-- R33: a step adds at most one entry, never empty, and only below the cap. -/
theorem ent_appends {s t : State} (h : SeqEffect s t) :
    t.ent = s.ent ∨ s.dlen < s.maxsize.toNat ∧ ∃ e, e ≠ [] ∧ t.ent = s.ent ++ [e] := by
  cases h with
  | emitIns _ _ _ _ _ hd => exact .inr ⟨hd, s.w ++ [s.inByte], by simp, rfl⟩
  | known => exact insertBelow_appends _ _ (by simp)
  | next => exact insertBelow_appends _ _ (by simp)
  | extend | emitFrz | flush | end0 | fault | first | badFirst | bad | decEnd => exact .inl rfl

/-- R30: what is the host's stays as it is. -/
theorem frame {s t : State} (h : SeqEffect s t) :
    t.maxsize = s.maxsize ∧ t.ilen = s.ilen ∧ t.ibuf = s.ibuf ∧ t.params = s.params ∧
      t.script = s.script ∧ t.replies = s.replies := by
  cases h <;> exact ⟨rfl, rfl, rfl, rfl, rfl, rfl⟩

/-- R65: while the run goes on, no output is delivered and no flag set, and input has been consumed. -/
theorem frame_of_busy {s t : State} (h : SeqEffect s t) (hb : t.busy = true) :
    t.obuf = s.obuf ∧ t.olen = s.olen ∧ t.err = s.err ∧ t.cause = s.cause ∧ s.iptr < t.iptr := by
  cases h with
  | extend | emitIns | emitFrz => exact ⟨rfl, rfl, rfl, rfl, Nat.lt_succ_self _⟩
  | first | known | next => exact ⟨rfl, rfl, rfl, rfl, Nat.lt_add_of_pos_right (by decide)⟩
  | flush | end0 | decEnd | fault | badFirst | bad => cases hb

end SeqEffect

/-- Settles O47: each of its three parts is read off the effects of a sequencer step. -/
theorem sequencerOnlyAppendsEntries : Obligations.SequencerOnlyAppendsEntries := by
  unfold Obligations.SequencerOnlyAppendsEntries
  intro s t hb h
  rcases sequencerMove_next h with ⟨-, he⟩ | ⟨hb', -⟩
  · obtain ⟨hm, hl, hi, hp, hs, hr⟩ := he.frame
    exact ⟨he.ent_appends, hm, hl, hi, hp, hs, hr, he.frame_of_busy⟩
  · rw [hb] at hb'; cases hb'

theorem sequencerMove_of_notBusy {s : State} (h : s.busy = false) : sequencerMove s = .next s := by
  simp [sequencerMove, h]

theorem hostMove_of_noScript {s : State} (h : s.script = []) : hostMove s = .next s := by
  simp [hostMove, h]

theorem step_of_noTurn_notBusy {s : State} (ht : s.turns = []) (hb : s.busy = false) :
    step s = hostMove s := by
  simp [step, move, ht, hb]

theorem step_of_sequencerTurn {s : State} {ts : List Turn} (h : s.turns = .sequencer :: ts) :
    step s = sequencerMove { s with turns := ts } := by
  simp [step, move, h]

/-- Settles O11: neither agent has anything to do. -/
theorem idleMachineStaysAsItIs : Obligations.IdleMachineStaysAsItIs := by
  unfold Obligations.IdleMachineStaysAsItIs
  intro s hb
  constructor
  · intro ht hs
    rw [step_of_noTurn_notBusy ht hb, hostMove_of_noScript hs]
  · intro ts ht
    rw [step_of_sequencerTurn ht]
    exact sequencerMove_of_notBusy hb

/-- Settles O12: R40's table is `State.resetWith` field by field, and its phase is not busy. -/
theorem resetGivesTheTablesValues : Obligations.ResetGivesTheTablesValues := by
  unfold Obligations.ResetGivesTheTablesValues
  intro p
  have hstatus : (State.resetWith p).statusWord = 0 :=
    show statusOf .idle .none .none = 0 by decide
  exact ⟨State.resetWith p, rfl, rfl, hstatus, rfl, rfl, rfl, rfl, rfl, rfl, rfl, rfl,
    sequencerMove_of_notBusy rfl, rfl⟩

end Sys2Proof.Machine
end

section
/-! PROOFS. The word of `STATUS` as a number, whose digits are its fields (10_state.md R29). -/

namespace Sys2Proof.Machine

theorem Phase.stateCode_lt (p : Phase) : p.stateCode < 4 := by cases p <;> decide

theorem ErrKind.code_lt (e : ErrKind) : e.code < 4 := by cases e <;> decide

theorem Cause.code_lt (c : Cause) : c.code < 16 := by cases c <;> decide

/-- Numbers below `2 ^ i` and multiples of `2 ^ i` have no bit in common. -/
theorem or_shiftLeft_eq_add {a i : Nat} (h : a < 2 ^ i) (b : Nat) : a ||| b <<< i = a + b * 2 ^ i := by
  rw [Nat.or_comm, ← Nat.shiftLeft_add_eq_or_of_lt h, Nat.shiftLeft_eq, Nat.add_comm]

theorem statusOf_toNat (p : Phase) (e : ErrKind) (c : Cause) :
    (statusOf p e c).toNat = p.stateCode + 4 * e.code + 16 * c.code := by
  have hp := p.stateCode_lt
  have he := e.code_lt
  have hc := c.code_lt
  have h2 := or_shiftLeft_eq_add (i := 2) hp e.code
  have h4 := or_shiftLeft_eq_add (i := 4) (show p.stateCode + e.code * 2 ^ 2 < 2 ^ 4 by omega) c.code
  simp only [statusOf, BitVec.toNat_or, BitVec.toNat_shiftLeft, BitVec.toNat_ofNat]
  rw [Nat.mod_eq_of_lt (a := p.stateCode) (by omega), Nat.mod_eq_of_lt (a := e.code) (by omega),
    Nat.mod_eq_of_lt (a := c.code) (by omega),
    Nat.mod_eq_of_lt (a := e.code <<< 2) (by rw [Nat.shiftLeft_eq]; omega),
    Nat.mod_eq_of_lt (a := c.code <<< 4) (by rw [Nat.shiftLeft_eq]; omega), h2, h4]
  omega

/-- A field of a word, read off the word as a number. -/
theorem extractLsb'_eq_ofNat {v : Word} {i n k : Nat} (h : v.toNat / 2 ^ i % 2 ^ n = k % 2 ^ n) :
    v.extractLsb' i n = BitVec.ofNat n k :=
  BitVec.eq_of_toNat_eq (by rw [BitVec.extractLsb'_toNat, Nat.shiftRight_eq_div_pow, h, BitVec.toNat_ofNat])

/-- Settles O34: the four fields are the digits of the number `STATE + 4 * ERR + 16 * CAUSE`. -/
theorem statusWordHasItsFields : Obligations.StatusWordHasItsFields := by
  unfold Obligations.StatusWordHasItsFields
  intro s
  have hw : s.statusWord.toNat = _ := statusOf_toNat s.phase s.err s.cause
  have hp := s.phase.stateCode_lt
  have he := s.err.code_lt
  have hc := s.cause.code_lt
  exact ⟨extractLsb'_eq_ofNat (k := s.phase.stateCode) (by omega),
    extractLsb'_eq_ofNat (k := s.err.code) (by omega),
    extractLsb'_eq_ofNat (k := s.cause.code) (by omega),
    extractLsb'_eq_ofNat (k := 0) (by omega)⟩

end Sys2Proof.Machine
end

section
/-! PROOFS. The machine's invariant where no run is in progress: reset, the end of a run, and what the host
does (10_state.md R29, R40; 20_memory.md R66; 44_host_interface.md R150 to R154). -/

namespace Sys2Proof.Machine

theorem phase_ne_of_notBusy {s : State} {p : Phase} (hs : s.busy = false) (hp : p.isBusy = true) :
    s.phase ≠ p := by
  rintro rfl
  exact absurd hp (Bool.eq_false_iff.1 hs)

theorem phase_ne_of_busy {s : State} {p : Phase} (hs : s.busy = true) (hp : p.isBusy = false) :
    s.phase ≠ p := by
  rintro rfl
  exact absurd hs (Bool.eq_false_iff.1 hp)

/-- Where no run is in progress the laws of a run say nothing. -/
theorem Inv.of_notBusy {s : State} (hb : s.busy = false) (hi : s.ibuf.wf = true) (ho : s.obuf.wf = true)
    (hs : StatusInv s) (hd : OutputInv s) : Inv s where
  ibuf := hi
  obuf := ho
  status := hs
  output := hd
  launch h := absurd h (Bool.eq_false_iff.1 hb)
  dict h := absurd h (Bool.eq_false_iff.1 hb)
  encRun h := absurd h (phase_ne_of_notBusy hb rfl)
  dec0Run h := absurd h (phase_ne_of_notBusy hb rfl)
  decRun h := absurd h (phase_ne_of_notBusy hb rfl)

/-- No run and no result: the flags are clear, `OLEN` is 0. -/
theorem Inv.of_idle {s : State} (hp : s.phase = .idle) (hi : s.ibuf.wf = true) (ho : s.obuf.wf = true)
    (he : s.err = .none) (hc : s.cause = .none) (hl : s.olen = 0) : Inv s := by
  have hb : s.busy = false := by simp [State.busy, hp, Phase.isBusy]
  exact .of_notBusy hb hi ho ⟨by simp [he, hc, errCausePairs], by simp [hp, he]⟩
    ⟨fun _ => hl, by simp [hp], by simp [hp]⟩

theorem inv_resetWith (p : Params) : Inv (State.resetWith p) := .of_idle rfl rfl rfl rfl rfl rfl

theorem inv_resetOp (s : State) : Inv (resetOp s) := .of_idle rfl rfl rfl rfl rfl rfl

/-- Settles O43: after reset no run is in progress, so only the clear flags and `OLEN = 0` are left to say. -/
theorem resetMeetsTheInvariant : Obligations.ResetMeetsTheInvariant := inv_resetWith

/-- The fault entry (R180) ends in a state that meets the invariant, whatever run it ends. -/
theorem inv_raiseOp {s : State} {e : ErrKind} {c : Cause} (hi : s.ibuf.wf = true) (ho : s.obuf.wf = true)
    (hp : (e, c) ∈ errCausePairs) (he : e ≠ .none) : Inv (raiseOp e c s) :=
  .of_notBusy rfl hi ho ⟨hp, by simp [he]⟩ ⟨fun _ => rfl, by simp, by simp⟩

/-- The commit (R66) puts `OUT` at the start of `OBUF` and its length in `OLEN`. -/
theorem inv_commitState {s : State} (hi : s.ibuf.wf = true) (ho : s.obuf.wf = true)
    (hp : (s.err, s.cause) ∈ errCausePairs) (he : s.err = .none) (hf : s.outputFits = true) :
    Inv (commitState s) := by
  have hlen : s.out.length < 2 ^ 32 := by simp [State.outputFits] at hf; exact hf.2
  refine .of_notBusy rfl hi (Memory.writeBytes_wf _ _ _ ho) ⟨hp, by simp [he]⟩
    ⟨by simp, fun _ => commitState_olen_toNat hlen, fun _ i h => ?_⟩
  have hread := Memory.read_writeBytes_inside s.out s.obuf 0 i h
  rwa [Nat.zero_add] at hread

/-- The fields that are the host's and the outside world's own take no part in the invariant. -/
theorem Inv.withHostRecord {s : State} (h : Inv s) (rs : List Reply) (n : Nat) (ops : List HostOp)
    (ts : List Turn) : Inv { s with replies := rs, busyReads := n, script := ops, turns := ts } where
  ibuf := h.ibuf
  obuf := h.obuf
  status := { h.status with }
  output := { h.output with }
  launch hb := { h.launch hb with }
  dict hb := h.dict hb
  encRun hp := { h.encRun hp with }
  dec0Run hp := { h.dec0Run hp with }
  decRun hp := { h.decRun hp with }

/-- `ENC.INIT` after the status is cleared (R153). -/
theorem inv_encInitOp_clearStatus {s : State} (h : Inv s) (hl : LaunchInv s) :
    Inv (encInitOp (clearStatus s)) where
  ibuf := h.ibuf
  obuf := h.obuf
  status := ⟨by simp [errCausePairs], by simp⟩
  output := ⟨fun _ => rfl, by simp, by simp⟩
  launch _ := { hl with }
  dict _ := dictInv_seedEntries (maxsizeLegal_iff.1 hl.maxsize).1
  encRun _ := {
    ptr := Nat.zero_le _
    emptyIff := by simp
    matched := by simp
    distinct := seedEntries_nodup
    outEven := rfl
    codesKnown := by simp [des]
    consumed := by simp [des, expandCodes]
    growth := by
      have hm := (maxsizeLegal_iff.1 hl.maxsize).1
      simp only [State.dlen, encInitOp_ent, seedEntries_length, encInitOp_maxsize, clearStatus_maxsize,
        encInitOp_out, List.length_nil, Config.seedSize]
      omega
    codeCount := Nat.zero_le _ }
  dec0Run hp := by cases hp
  decRun hp := by cases hp

/-- `DEC.INIT` after the status is cleared (R154): the start, or the fault entry on a bad length. -/
theorem inv_decInitOp_clearStatus {s : State} (h : Inv s) (hl : LaunchInv s) :
    Inv (decInitOp (clearStatus s)) := by
  rcases decInitOp_cases (clearStatus s) with ⟨-, he⟩ | ⟨-, he⟩ | ⟨hpos, heven, he⟩ <;> rw [he]
  · exact inv_raiseOp h.ibuf h.obuf (by decide) (by decide)
  · exact inv_raiseOp h.ibuf h.obuf (by decide) (by decide)
  · exact {
      ibuf := h.ibuf
      obuf := h.obuf
      status := ⟨by simp [errCausePairs], by simp⟩
      output := ⟨fun _ => rfl, by simp, by simp⟩
      launch := fun _ => { hl with }
      dict := fun _ => dictInv_seedEntries (maxsizeLegal_iff.1 hl.maxsize).1
      encRun := fun hp => by cases hp
      dec0Run := fun _ => ⟨rfl, Nat.pos_of_ne_zero hpos, heven, rfl, rfl, rfl⟩
      decRun := fun hp => by cases hp }

/-- Whatever the host does keeps the invariant. -/
theorem HostEffect.keeps_inv {s t : State} (he : HostEffect s t) (h : Inv s) : Inv t := by
  cases he with
  | record rs n ops => exact h.withHostRecord rs n ops s.turns
  | setMaxsize hb v => exact .of_notBusy hb h.ibuf h.obuf { h.status with } { h.output with }
  | setIlen hb v => exact .of_notBusy hb h.ibuf h.obuf { h.status with } { h.output with }
  | load hb a bs =>
    exact .of_notBusy hb (Memory.writeBytes_wf bs s.ibuf a h.ibuf) h.obuf { h.status with }
      { h.output with }
  | encode hb hm hi => exact inv_encInitOp_clearStatus h ⟨hm, hi⟩
  | decode hb hm hi => exact inv_decInitOp_clearStatus h ⟨hm, hi⟩

end Sys2Proof.Machine
end

section
/-! PROOFS. The machine's invariant over the sequencer's steps (42_encoder.md R123 to R125, 43_decoder.md R141,
R144): the laws of each run, one lemma per way a step moves the run on, and then every step of the machine. -/

namespace Sys2Proof.Machine

theorem codeOfBytes_codeBytes (c : Code) : codeOfBytes (codeHi c) (codeLo c) = c := by
  have hc := c.isLt
  apply BitVec.eq_of_toNat_eq
  simp only [codeOfBytes, codeHi, codeLo, BitVec.toNat_ofNat]
  omega

/-- Appending a code's bytes to an even stream appends the code (R103). -/
theorem des_append_codeBytes {bs : Bytes} (h : bs.length % 2 = 0) (c : Code) :
    des (bs ++ codeBytes c) = des bs ++ [c] := by
  rw [des_append _ _ h]
  simp [codeBytes, des, codeOfBytes_codeBytes]

/-- Every one-byte sequence is an entry (R32). -/
theorem DictInv.literal_mem {m : Nat} {ent : List Bytes} (h : DictInv m ent) (k : Byte) : [k] ∈ ent := by
  have hk := h.literals k.toNat k.isLt
  rw [BitVec.ofNat_toNat, BitVec.setWidth_eq] at hk
  exact List.mem_of_getElem? hk

theorem mem_insertBelow_of_mem {m : Nat} {ent : List Bytes} {x y : Bytes} (h : y ∈ ent) :
    y ∈ insertBelow m ent x := mem_insertBelow.2 (.inl h)

theorem insertBelow_nodup {m : Nat} {ent : List Bytes} {x : Bytes} (h : ent.Nodup) (hx : x ∉ ent) :
    (insertBelow m ent x).Nodup := by
  unfold insertBelow
  split
  · exact List.nodup_append.2 ⟨h, by simp, by rintro a ha b hb rfl; simp at hb; exact hx (hb ▸ ha)⟩
  · exact h

theorem length_le_insertBelow (m : Nat) (ent : List Bytes) (x : Bytes) :
    ent.length ≤ (insertBelow m ent x).length := by
  rw [insertBelow_length]
  split <;> omega

/-- R125 and R141: `DLEN` counts the insertions tried, up to the cap. -/
theorem insertBelow_growth {m n : Nat} {ent : List Bytes} (x : Bytes) (h : ent.length = min m n) :
    (insertBelow m ent x).length = min m (n + 1) := by
  rw [insertBelow_length]
  split <;> omega

/-- An insertion does not change what earlier codes stand for (R33). -/
theorem expandCodes_insertBelow (m : Nat) (ent : List Bytes) (x : Bytes) (cs : List Code)
    (h : ∀ c ∈ cs, c.toNat < ent.length) : expandCodes (insertBelow m ent x) cs = expandCodes ent cs := by
  unfold insertBelow
  split
  · exact expandCodes_insert ent x cs h
  · rfl

/-! ### The encoder -/

/-- The consumed part of a run's input grows by the byte at `IPTR`. -/
theorem EncInv.consumed_succ {s : State} (h : EncInv s) (hi : s.iptr < s.ilen.toNat) :
    expandCodes s.ent (des s.out) ++ (s.w ++ [s.inByte]) = s.input.take (s.iptr + 1) := by
  rw [← List.append_assoc, h.consumed, input_take_succ hi]

theorem EncInv.extend {s : State} (h : EncInv s) (hi : s.iptr < s.ilen.toNat)
    (hf : (s.find (s.w ++ [s.inByte])).isSome = true) :
    EncInv { s with w := s.w ++ [s.inByte], iptr := s.iptr + 1 } where
  ptr := hi
  emptyIff := by simp
  matched _ := hf
  distinct := h.distinct
  outEven := h.outEven
  codesKnown := h.codesKnown
  consumed := h.consumed_succ hi
  growth := h.growth
  codeCount := by
    have := h.codeCount
    dsimp only
    omega

/-- A code is emitted only after a byte has been consumed: the empty match is extended by every byte. -/
theorem EncInv.iptr_pos_of_miss {s : State} (h : EncInv s) (hd : DictInv s.maxsize.toNat s.ent)
    (hf : s.find (s.w ++ [s.inByte]) = none) : 0 < s.iptr := by
  refine Nat.pos_of_ne_zero fun h0 => find_eq_none_iff.1 hf ?_
  rw [h.emptyIff.2 h0]
  exact hd.literal_mem s.inByte

/-- The step that emits the code of `W` (R113, R114), with the insertion where `DLEN` is below the cap. -/
theorem EncInv.emit {s : State} (h : EncInv s) (hd : DictInv s.maxsize.toNat s.ent)
    (hl : LaunchInv s) (hi : s.iptr < s.ilen.toNat) {c : Nat}
    (hf : s.find (s.w ++ [s.inByte]) = none) (hw : s.find s.w = some c) :
    EncInv { s with
      out := s.out ++ codeBytes (BitVec.ofNat 16 c)
      ent := insertBelow s.maxsize.toNat s.ent (s.w ++ [s.inByte])
      w := [s.inByte]
      iptr := s.iptr + 1 } := by
  have hc : c < s.ent.length := find_lt hw
  have hcode : (BitVec.ofNat 16 c).toNat = c := by
    have hcap := (maxsizeLegal_iff.1 hl.maxsize).2
    have hup := hd.upper
    exact ofNat16_toNat (by omega)
  have hdes := des_append_codeBytes h.outEven (BitVec.ofNat 16 c)
  have hknown : ∀ d ∈ des s.out ++ [BitVec.ofNat 16 c], d.toNat < s.ent.length := by
    intro d hd
    rcases List.mem_append.1 hd with hd | hd
    · exact h.codesKnown d hd
    · rw [List.mem_singleton.1 hd, hcode]; exact hc
  have hpos := h.iptr_pos_of_miss hd hf
  have hout : (s.out ++ codeBytes (BitVec.ofNat 16 c)).length = s.out.length + 2 := by simp [codeBytes]
  have heven := h.outEven
  constructor
  case ptr => exact hi
  case emptyIff => simp
  case matched => exact fun _ => find_isSome_iff.2 (mem_insertBelow_of_mem (hd.literal_mem s.inByte))
  case distinct => exact insertBelow_nodup h.distinct (find_eq_none_iff.1 hf)
  case outEven => dsimp only; omega
  case codesKnown =>
    intro d hmem
    exact (hknown d (hdes ▸ hmem)).trans_le (length_le_insertBelow _ _ _)
  case consumed =>
    have hmatch : expandCodes s.ent [BitVec.ofNat 16 c] = s.w := by
      simp [expandCodes, hcode, find_getElem? hw]
    calc expandCodes (insertBelow _ s.ent _) (des (s.out ++ codeBytes (BitVec.ofNat 16 c))) ++ [s.inByte]
        = expandCodes s.ent (des s.out ++ [BitVec.ofNat 16 c]) ++ [s.inByte] := by
          rw [hdes, expandCodes_insertBelow _ _ _ _ hknown]
      _ = expandCodes s.ent (des s.out) ++ (s.w ++ [s.inByte]) := by
          rw [expandCodes_append, hmatch, List.append_assoc]
      _ = s.input.take (s.iptr + 1) := h.consumed_succ hi
  case growth =>
    have hcodes : Config.seedSize + s.out.length / 2 + 1 =
        Config.seedSize + (s.out ++ codeBytes (BitVec.ofNat 16 c)).length / 2 := by omega
    exact (insertBelow_growth _ h.growth).trans (congrArg (min _) hcodes)
  case codeCount =>
    have hcount := h.codeCount
    dsimp only
    omega

/-! ### The decoder -/

/-- The first code of a stream names a literal (R132). -/
theorem Dec0Inv.first {s : State} (h : Dec0Inv s) (hl : LaunchInv s) {entry : Bytes}
    (he : s.entry s.inCode.toNat = some entry) :
    DecInv { s with
      k := s.inCode, iptr := s.iptr + 2, out := s.out ++ entry, w := entry, phase := .dec } := by
  have hlit : ∀ e ∈ s.ent, e.length = 1 := by
    intro e hmem
    rw [h.seeded] at hmem
    obtain ⟨b, rfl⟩ := mem_seedEntries.1 hmem
    rfl
  have hmem : entry ∈ s.ent := List.mem_of_getElem? he
  have hlen := hlit entry hmem
  have hptr := h.ptr
  have hpos := h.lenPos
  have heven := h.lenEven
  have hm := (maxsizeLegal_iff.1 hl.maxsize).1
  have hhalf : (s.iptr + 2) / 2 = 1 := by omega
  constructor
  case matchNonempty => exact List.ne_nil_of_length_eq_add_one hlen
  case ptrEven => dsimp only; omega
  case ptrLow => dsimp only; omega
  case ptr => dsimp only; omega
  case lenEven => exact heven
  case growth =>
    dsimp only [State.dlen]
    rw [h.seeded, seedEntries_length, hhalf]
    exact (Nat.min_eq_right hm).symm
  case matchEntry => exact fun _ => hmem
  case matchLength => dsimp only; omega
  case entryLength =>
    intro e hmem
    have := hlit e hmem
    dsimp only
    omega
  case outLow => simp [h.out0, hlen, hhalf]
  case outHigh => simp [h.out0, hlen, hhalf]

/-- A later code that names `entry` (R135 to R137): all a run's laws need of `entry` is its length, and that it
stands in the dictionary where the next insertion takes it from. -/
theorem DecInv.tail {s : State} (h : DecInv s) (hi : s.iptr < s.ilen.toNat) {entry : Bytes} {b : Byte}
    (hne : entry ≠ []) (hlen : entry.length ≤ s.iptr / 2 + 1)
    (hmem : s.dlen < s.maxsize.toNat →
      entry ∈ insertBelow s.maxsize.toNat s.ent (s.w ++ [b])) :
    DecInv { s with
      k := s.inCode
      iptr := s.iptr + 2
      out := s.out ++ entry
      w := entry
      ent := insertBelow s.maxsize.toNat s.ent (s.w ++ [b]) } := by
  have hhalf : (s.iptr + 2) / 2 = s.iptr / 2 + 1 := by omega
  have heven := h.ptrEven
  have hlow := h.ptrLow
  have hilen := h.lenEven
  have hpos := List.length_pos_of_ne_nil hne
  constructor
  case matchNonempty => exact hne
  case ptrEven => dsimp only; omega
  case ptrLow => dsimp only; omega
  case ptr => dsimp only; omega
  case lenEven => exact hilen
  case growth =>
    have hcodes : Config.seedSize + (s.iptr / 2 - 1) + 1 =
        Config.seedSize + ((s.iptr + 2) / 2 - 1) := by omega
    exact (insertBelow_growth _ h.growth).trans (congrArg (min _) hcodes)
  case matchEntry =>
    exact fun hlt => hmem ((length_le_insertBelow _ _ _).trans_lt hlt)
  case matchLength => simpa only [hhalf] using hlen
  case entryLength =>
    intro e he
    have hw := h.matchLength
    dsimp only
    rcases mem_insertBelow.1 he with he | ⟨-, rfl⟩
    · have := h.entryLength e he
      omega
    · rw [List.length_append, List.length_singleton]
      omega
  case outLow =>
    have hout := h.outLow
    simp only [List.length_append, hhalf]
    omega
  case outHigh =>
    have hout := h.outHigh
    simp only [List.length_append, hhalf]
    linarith

/-! ### Every step -/

theorem Inv.err_none {s : State} (h : Inv s) (hb : s.busy = true) : s.err = .none := by
  by_contra he
  exact phase_ne_of_busy hb rfl (h.status.failIff.2 he)

/-- A step with which the run goes on owes the laws of its run only: the rest is the step's frame. -/
theorem Inv.of_runGoesOn {s t : State} (h : Inv s) (he : SeqEffect s t) (hs : s.busy = true)
    (ht : t.busy = true) (hdict : DictInv t.maxsize.toNat t.ent) (henc : t.phase = .enc → EncInv t)
    (hdec0 : t.phase ≠ .dec0) (hdec : t.phase = .dec → DecInv t) : Inv t := by
  obtain ⟨hm, hl, hi, hp, -, -⟩ := he.frame
  obtain ⟨ho, hol, herr, hcause, -⟩ := he.frame_of_busy ht
  have hnone := h.err_none hs
  have hlaunch := h.launch hs
  constructor
  case ibuf => rw [hi]; exact h.ibuf
  case obuf => rw [ho]; exact h.obuf
  case status =>
    exact ⟨by rw [herr, hcause]; exact h.status.pair,
      by simp [herr, hnone, phase_ne_of_busy ht (p := .fail) rfl]⟩
  case output =>
    have hdone := phase_ne_of_busy ht (p := .done) rfl
    exact ⟨fun _ => by rw [hol, h.output.olenZero (phase_ne_of_busy hs rfl)],
      fun hp => absurd hp hdone, fun hp => absurd hp hdone⟩
  case launch =>
    exact fun _ => ⟨by rw [State.maxsizeLegal, hm]; exact hlaunch.maxsize, by rw [hp, hl]; exact hlaunch.input⟩
  case dict => exact fun _ => hdict
  case encRun => exact henc
  case dec0Run => exact fun hp => absurd hp hdec0
  case decRun => exact hdec

theorem SeqEffect.keeps_inv {s t : State} (he : SeqEffect s t) (hb : s.busy = true) (h : Inv s) : Inv t := by
  have hd := h.dict hb
  have hl := h.launch hb
  have goesOn := h.of_runGoesOn he hb
  cases he with
  | extend hp hi hf =>
    have hrun := (h.encRun hp).extend hi hf
    exact goesOn hb hd (fun _ => hrun) (by simp [hp]) (by simp [hp])
  | emitIns hp hi c hf hw hlt =>
    have hrun := (h.encRun hp).emit hd hl hi hf hw
    have hdict := dictInv_insertBelow (b := s.inByte) hd fun _ => List.mem_of_getElem? (find_getElem? hw)
    rw [insertBelow_of_lt _ hlt] at hrun hdict
    exact goesOn hb hdict (fun _ => hrun) (by simp [hp]) (by simp [hp])
  | emitFrz hp hi c hf hw hle =>
    have hrun := (h.encRun hp).emit hd hl hi hf hw
    rw [insertBelow_of_le _ hle] at hrun
    exact goesOn hb hd (fun _ => hrun) (by simp [hp]) (by simp [hp])
  | flush _ _ _ _ _ ho | end0 _ _ _ ho | decEnd _ _ ho =>
    exact inv_commitState h.ibuf h.obuf h.status.pair (h.err_none hb) ho
  | fault | badFirst | bad => exact inv_raiseOp h.ibuf h.obuf (by decide) (by decide)
  | first hp hk entry hent =>
    have hrun := (h.dec0Run hp).first hl hent
    exact goesOn rfl hd (fun hp => by cases hp) (fun hp => by cases hp) (fun _ => hrun)
  | known hp hi hk b bs hent =>
    have hr := h.decRun hp
    have hmem : b :: bs ∈ s.ent := List.mem_of_getElem? hent
    have hrun := hr.tail hi (b := b) (by simp) (Nat.le_succ_of_le (hr.entryLength _ hmem))
      fun _ => mem_insertBelow_of_mem hmem
    exact goesOn hb (dictInv_insertBelow hd hr.matchEntry) (by simp [hp]) (by simp [hp])
      (fun _ => hrun)
  | next hp hi hk b bs hw =>
    have hr := h.decRun hp
    have hrun := hr.tail hi (b := b) (entry := s.w ++ [b]) (by simp)
      (by simpa using hr.matchLength) fun hlt => mem_insertBelow.2 (.inr ⟨hlt, rfl⟩)
    exact goesOn hb (dictInv_insertBelow hd hr.matchEntry) (by simp [hp]) (by simp [hp])
      (fun _ => hrun)

/-- Settles O44, by whose move the step is: a reset, an effect of the host or an effect of the sequencer. -/
theorem stepKeepsTheInvariant : Obligations.StepKeepsTheInvariant := by
  unfold Obligations.StepKeepsTheInvariant
  intro s t h hstep
  obtain ⟨ts, hmove⟩ := step_next hstep
  have hturn : Inv { s with turns := ts } := h.withHostRecord s.replies s.busyReads s.script ts
  rcases hmove with rfl | hmove | hmove
  · exact inv_resetOp _
  · obtain ⟨ops, he⟩ := hostMove_next hmove
    exact he.keeps_inv (hturn.withHostRecord s.replies s.busyReads ops ts)
  · rcases sequencerMove_next hmove with ⟨hb, he⟩ | ⟨-, rfl⟩
    · exact he.keeps_inv hb hturn
    · exact hturn

end Sys2Proof.Machine
end

section
/-! PROOFS. A canonical buffer is determined by what it reads (20_memory.md R50, 00_scope.md R14): its first
offset is the least one that holds a byte. -/

namespace Sys2Proof.Machine

namespace Memory

theorem read_first (x : Host.Cell) (m : Memory) : Memory.read (x :: m) x.1 = some x.2 := by
  simp [read_cons]

theorem read_cons_of_ne {x : Host.Cell} {a : Nat} (h : x.1 ≠ a) (m : Memory) :
    Memory.read (x :: m) a = Memory.read m a := by
  simp [read_cons, h]

/-- Behind the first cell of a canonical buffer, no byte stands at or below that cell's offset. -/
theorem read_tail_eq_none {x : Host.Cell} {m : Memory} {a : Nat} (h : Memory.wf (x :: m) = true)
    (ha : a ≤ x.1) : Memory.read m a = none := by
  induction m generalizing x with
  | nil => rfl
  | cons y m ih =>
    obtain ⟨hhead, hwf⟩ := (wf_cons_iff x (y :: m)).1 h
    have hxy : x.1 < y.1 := hhead y rfl
    rw [read_cons_of_ne (by omega)]
    exact ih hwf (by omega)

theorem first_le_of_read {x : Host.Cell} {m : Memory} {a : Nat} {b : Byte}
    (h : Memory.wf (x :: m) = true) (hread : Memory.read (x :: m) a = some b) : x.1 ≤ a := by
  by_contra hlt
  rw [read_cons_of_ne (by omega), read_tail_eq_none h (by omega)] at hread
  cases hread

/-- Each of the two first offsets holds a byte in the other buffer, so neither lies below the other. -/
theorem first_eq_of_read_eq {x y : Host.Cell} {m n : Memory} (hm : Memory.wf (x :: m) = true)
    (hn : Memory.wf (y :: n) = true)
    (h : ∀ a, Memory.read (x :: m) a = Memory.read (y :: n) a) : x = y := by
  have hx : Memory.read (y :: n) x.1 = some x.2 := (h x.1).symm.trans (read_first x m)
  have hy : Memory.read (x :: m) y.1 = some y.2 := (h y.1).trans (read_first y n)
  have hoff : x.1 = y.1 := Nat.le_antisymm (first_le_of_read hm hy) (first_le_of_read hn hx)
  have hbyte : some x.2 = some y.2 := hx.symm.trans (hoff ▸ read_first y n)
  exact Prod.ext hoff (Option.some.inj hbyte)

/-- The common first cell hides nothing of the tails: both read `none` at and below its offset. -/
theorem read_tail_eq {x : Host.Cell} {m n : Memory} (hm : Memory.wf (x :: m) = true)
    (hn : Memory.wf (x :: n) = true)
    (h : ∀ a, Memory.read (x :: m) a = Memory.read (x :: n) a) (a : Nat) :
    Memory.read m a = Memory.read n a := by
  rcases Nat.lt_or_ge x.1 a with ha | ha
  · rw [← read_cons_of_ne (Nat.ne_of_lt ha) m, h, read_cons_of_ne (Nat.ne_of_lt ha)]
  · rw [read_tail_eq_none hm ha, read_tail_eq_none hn ha]

theorem eq_nil_of_read_eq_none {m : Memory} (h : ∀ a, m.read a = none) : m = [] := by
  cases m with
  | nil => rfl
  | cons x m => cases (read_first x m).symm.trans (h x.1)

theorem eq_of_read_eq {m n : Memory} (hm : m.wf = true) (hn : n.wf = true)
    (h : ∀ a, m.read a = n.read a) : m = n := by
  induction m generalizing n with
  | nil => exact (eq_nil_of_read_eq_none fun a => (h a).symm).symm
  | cons x m ih =>
    cases n with
    | nil => exact eq_nil_of_read_eq_none h
    | cons y n =>
      obtain rfl := first_eq_of_read_eq hm hn h
      have htail := ih ((wf_cons_iff x m).1 hm).2 ((wf_cons_iff x n).1 hn).2 (read_tail_eq hm hn h)
      rw [htail]

end Memory

/-- Settles O42, by induction on the list: the first cells agree, and then what stands behind them does. -/
theorem canonicalBuffersAreDeterminedByReads :
    Obligations.CanonicalBuffersAreDeterminedByReads := by
  unfold Obligations.CanonicalBuffersAreDeterminedByReads
  intro m n hm hn h
  exact Memory.eq_of_read_eq hm hn h

end Sys2Proof.Machine
end

section
/-! PROOFS. The words of 30_encoding.md in both directions. Each kind of context (the command unit, the first
code, a later code, a raw byte) has three laws: which words its unit decodes, the word that encodes what it
decodes, and that the opcode table lets that context stand for just the operations it decodes. The two
directions of the codec are these laws put together. -/

namespace Sys2Proof.Machine

/-! ### The two bytes of a code (R52, R74) -/

theorem codeOfBytes_toNat (b0 b1 : Byte) : (codeOfBytes b0 b1).toNat = 256 * b0.toNat + b1.toNat := by
  have h0 := b0.isLt
  have h1 := b1.isLt
  simp only [codeOfBytes, BitVec.toNat_ofNat]
  omega

theorem codeHi_codeOfBytes (b0 b1 : Byte) : codeHi (codeOfBytes b0 b1) = b0 := by
  have h1 := b1.isLt
  apply BitVec.eq_of_toNat_eq
  rw [codeHi, codeOfBytes_toNat, BitVec.toNat_ofNat]
  omega

theorem codeLo_codeOfBytes (b0 b1 : Byte) : codeLo (codeOfBytes b0 b1) = b1 := by
  have h1 := b1.isLt
  apply BitVec.eq_of_toNat_eq
  rw [codeLo, codeOfBytes_toNat, BitVec.toNat_ofNat]
  omega

/-! ### The classes, one law per row of the table -/

theorem decodeCmd_reserved {v : Word} (h1 : v ≠ 1#32) (h2 : v ≠ 2#32) : decodeCmd v = .cmdReserved v := by
  simp [decodeCmd, h1, h2]

/-- R78's three rows, each with the words that it is for. -/
theorem decodeCmd_cases (v : Word) :
    (v = 1#32 ∧ decodeCmd v = .encode) ∨ (v = 2#32 ∧ decodeCmd v = .decode) ∨
      (v ≠ 1#32 ∧ v ≠ 2#32 ∧ decodeCmd v = .cmdReserved v) := by
  by_cases h1 : v = 1#32
  · exact .inl ⟨h1, by rw [h1]; rfl⟩
  · by_cases h2 : v = 2#32
    · exact .inr (.inl ⟨h2, by rw [h2]; rfl⟩)
    · exact .inr (.inr ⟨h1, h2, decodeCmd_reserved h1 h2⟩)

theorem decodeFirstCode_of_lt {d : Nat} {c : Code} (h : c.toNat < d) : decodeFirstCode d c = .decFirst c :=
  if_pos h

theorem decodeFirstCode_of_le {d : Nat} {c : Code} (h : d ≤ c.toNat) :
    decodeFirstCode d c = .decBadfirst c := if_neg (Nat.not_lt.2 h)

theorem decodeLaterCode_of_lt {d : Nat} {c : Code} (h : c.toNat < d) : decodeLaterCode d c = .decKnown c :=
  if_pos h

theorem decodeLaterCode_of_eq {d : Nat} {c : Code} (h : c.toNat = d) : decodeLaterCode d c = .decNext c := by
  simp [decodeLaterCode, h]

theorem decodeLaterCode_of_gt {d : Nat} {c : Code} (h : d < c.toNat) : decodeLaterCode d c = .decBad c := by
  simp [decodeLaterCode, Nat.not_lt.2 h.le, h.ne']

section
variable {ent : List Bytes} {w : Bytes} {m : Nat} {k : Byte}

theorem decodeRaw_extend (h : (find ent (w ++ [k])).isSome = true) : decodeRaw ent w m k = .encExtend k :=
  if_pos h

theorem decodeRaw_fault (h : find ent (w ++ [k]) = none) (hw : find ent w = none) :
    decodeRaw ent w m k = .encFault := by
  simp [decodeRaw, h, hw]

theorem decodeRaw_emitIns (h : find ent (w ++ [k]) = none) (hw : (find ent w).isSome = true)
    (hm : ent.length < m) : decodeRaw ent w m k = .encEmitIns k := by
  simp [decodeRaw, h, Option.isSome_iff_ne_none.1 hw, hm]

theorem decodeRaw_emitFrz (h : find ent (w ++ [k]) = none) (hw : (find ent w).isSome = true)
    (hm : m ≤ ent.length) : decodeRaw ent w m k = .encEmitFrz k := by
  simp [decodeRaw, h, Option.isSome_iff_ne_none.1 hw, Nat.not_lt.2 hm]

end

/-! ### Which words each unit decodes -/

theorem decode_cmd_iff {p : Encoded} {i : Instr} :
    decode .cmd p = .ok i ↔ ∃ v, p = .cmd32 v ∧ decodeCmd v = i := by
  cases p <;> simp [decode]

/-- A unit that classes codes and takes no other word decodes the two bytes of each code, to the code's class. -/
theorem decode_code_iff {ctx : Ctx} {cls : Code → Instr} {p : Encoded} {i : Instr}
    (hcode : ∀ b0 b1, decode ctx (.code16 b0 b1) = .ok (cls (codeOfBytes b0 b1)))
    (hcmd : ∀ v, decode ctx (.cmd32 v) = .error .wrongFormat)
    (hbyte : ∀ b, decode ctx (.byte8 b) = .error .wrongFormat) :
    decode ctx p = .ok i ↔ ∃ c, p = .code16 (codeHi c) (codeLo c) ∧ cls c = i := by
  constructor
  · intro h
    cases p with
    | cmd32 v => rw [hcmd] at h; cases h
    | code16 b0 b1 =>
      rw [hcode] at h
      exact ⟨codeOfBytes b0 b1, by rw [codeHi_codeOfBytes, codeLo_codeOfBytes], Except.ok.inj h⟩
    | byte8 b => rw [hbyte] at h; cases h
  · rintro ⟨c, rfl, rfl⟩
    rw [hcode, codeOfBytes_codeBytes]

theorem decode_firstCode_iff {d : Nat} {p : Encoded} {i : Instr} :
    decode (.firstCode d) p = .ok i ↔ ∃ c, p = .code16 (codeHi c) (codeLo c) ∧ decodeFirstCode d c = i :=
  decode_code_iff (fun _ _ => rfl) (fun _ => rfl) (fun _ => rfl)

theorem decode_laterCode_iff {d : Nat} {p : Encoded} {i : Instr} :
    decode (.laterCode d) p = .ok i ↔ ∃ c, p = .code16 (codeHi c) (codeLo c) ∧ decodeLaterCode d c = i :=
  decode_code_iff (fun _ _ => rfl) (fun _ => rfl) (fun _ => rfl)

theorem decode_raw_iff {ent : List Bytes} {w : Bytes} {m : Nat} {p : Encoded} {i : Instr} :
    decode (.raw ent w m) p = .ok i ↔ ∃ k, p = .byte8 k ∧ decodeRaw ent w m k = i := by
  cases p <;> simp [decode]

/-! ### The word of what each unit decodes -/

theorem encode_decodeCmd (v : Word) : encode (decodeCmd v) = some (.cmd32 v) := by
  rcases decodeCmd_cases v with ⟨rfl, h⟩ | ⟨rfl, h⟩ | ⟨-, -, h⟩ <;> rw [h] <;> rfl

theorem encode_decodeFirstCode (d : Nat) (c : Code) :
    encode (decodeFirstCode d c) = some (.code16 (codeHi c) (codeLo c)) := by
  rcases firstCode_cases (d := d) (c := c) rfl with ⟨h, -⟩ | ⟨h, -⟩ <;> rw [h] <;> rfl

theorem encode_decodeLaterCode (d : Nat) (c : Code) :
    encode (decodeLaterCode d c) = some (.code16 (codeHi c) (codeLo c)) := by
  rcases laterCode_cases (d := d) (c := c) rfl with ⟨h, -⟩ | ⟨h, -⟩ | ⟨h, -⟩ <;> rw [h] <;> rfl

/-- R111's rows for an input byte: one of the three operations that have a word and fit, or `ENC.FAULT`. -/
theorem decodeRaw_cases (ent : List Bytes) (w : Bytes) (m : Nat) (k : Byte) :
    decodeRaw ent w m k = .encFault ∨
      encode (decodeRaw ent w m k) = some (.byte8 k) ∧ (Ctx.raw ent w m).fits (decodeRaw ent w m k) = true := by
  cases h : find ent (w ++ [k]) with
  | some c =>
    rw [decodeRaw_extend (by rw [h]; rfl)]
    exact .inr ⟨rfl, by simp [Ctx.fits, h]⟩
  | none =>
    cases hw : find ent w with
    | none => exact .inl (decodeRaw_fault h hw)
    | some c =>
      have hs : (find ent w).isSome = true := by rw [hw]; rfl
      rcases Nat.lt_or_ge ent.length m with hm | hm
      · rw [decodeRaw_emitIns h hs hm]
        exact .inr ⟨rfl, by simp [Ctx.fits, h, hw, hm]⟩
      · rw [decodeRaw_emitFrz h hs hm]
        exact .inr ⟨rfl, by simp [Ctx.fits, h, hw, hm]⟩

/-! ### The contexts of the opcode table -/

theorem fits_cmd_iff {i : Instr} : i.wf = true ∧ Ctx.cmd.fits i = true ↔ ∃ v, decodeCmd v = i := by
  constructor
  · rintro ⟨hwf, h⟩
    cases i with
    | encode => exact ⟨1, rfl⟩
    | decode => exact ⟨2, rfl⟩
    | cmdReserved v =>
      obtain ⟨h1, h2⟩ := of_decide_eq_true hwf
      exact ⟨v, decodeCmd_reserved h1 h2⟩
    | _ => cases h
  · rintro ⟨v, rfl⟩
    rcases decodeCmd_cases v with ⟨-, h⟩ | ⟨-, h⟩ | ⟨h1, h2, h⟩ <;> rw [h]
    · exact ⟨rfl, rfl⟩
    · exact ⟨rfl, rfl⟩
    · exact ⟨decide_eq_true ⟨h1, h2⟩, rfl⟩

theorem fits_firstCode_iff {d : Nat} {i : Instr} :
    (Ctx.firstCode d).fits i = true ↔ ∃ c, decodeFirstCode d c = i := by
  constructor
  · intro h
    cases i with
    | decFirst c => exact ⟨c, decodeFirstCode_of_lt (of_decide_eq_true h)⟩
    | decBadfirst c => exact ⟨c, decodeFirstCode_of_le (of_decide_eq_true h)⟩
    | _ => cases h
  · rintro ⟨c, hc⟩
    rcases firstCode_cases hc with ⟨rfl, h⟩ | ⟨rfl, h⟩ <;> exact decide_eq_true h

theorem fits_laterCode_iff {d : Nat} {i : Instr} :
    (Ctx.laterCode d).fits i = true ↔ ∃ c, decodeLaterCode d c = i := by
  constructor
  · intro h
    cases i with
    | decKnown c => exact ⟨c, decodeLaterCode_of_lt (of_decide_eq_true h)⟩
    | decNext c => exact ⟨c, decodeLaterCode_of_eq (of_decide_eq_true h)⟩
    | decBad c => exact ⟨c, decodeLaterCode_of_gt (of_decide_eq_true h)⟩
    | _ => cases h
  · rintro ⟨c, hc⟩
    rcases laterCode_cases hc with ⟨rfl, h⟩ | ⟨rfl, h⟩ | ⟨rfl, h⟩ <;> exact decide_eq_true h

theorem fits_raw_iff {ent : List Bytes} {w : Bytes} {m : Nat} {i : Instr} :
    (Ctx.raw ent w m).fits i = true ↔ i ≠ .encFault ∧ ∃ k, decodeRaw ent w m k = i := by
  constructor
  · intro h
    cases i with
    | encExtend k => exact ⟨nofun, k, decodeRaw_extend h⟩
    | encEmitIns k =>
      simp only [Ctx.fits, Bool.and_eq_true, Option.isNone_iff_eq_none, decide_eq_true_eq] at h
      obtain ⟨⟨hext, hmatch⟩, hroom⟩ := h
      exact ⟨nofun, k, decodeRaw_emitIns hext hmatch hroom⟩
    | encEmitFrz k =>
      simp only [Ctx.fits, Bool.and_eq_true, Option.isNone_iff_eq_none, decide_eq_true_eq] at h
      obtain ⟨⟨hext, hmatch⟩, hroom⟩ := h
      exact ⟨nofun, k, decodeRaw_emitFrz hext hmatch hroom⟩
    | _ => cases h
  · rintro ⟨hne, k, rfl⟩
    rcases decodeRaw_cases ent w m k with h | ⟨-, h⟩
    · exact absurd h hne
    · exact h

/-! ### The two directions -/

/-- Settles O1, by the kind of context: what fits it is what its unit decodes from some word, and encodes to
that word. -/
theorem decodeOfEncodeIsIdentity : Obligations.DecodeOfEncodeIsIdentity := by
  unfold Obligations.DecodeOfEncodeIsIdentity
  intro i ctx p hwf hfit hp
  cases ctx with
  | cmd =>
    obtain ⟨v, rfl⟩ := fits_cmd_iff.1 ⟨hwf, hfit⟩
    rw [encode_decodeCmd] at hp
    exact decode_cmd_iff.2 ⟨v, (Option.some.inj hp).symm, rfl⟩
  | firstCode d =>
    obtain ⟨c, rfl⟩ := fits_firstCode_iff.1 hfit
    rw [encode_decodeFirstCode] at hp
    exact decode_firstCode_iff.2 ⟨c, (Option.some.inj hp).symm, rfl⟩
  | laterCode d =>
    obtain ⟨c, rfl⟩ := fits_laterCode_iff.1 hfit
    rw [encode_decodeLaterCode] at hp
    exact decode_laterCode_iff.2 ⟨c, (Option.some.inj hp).symm, rfl⟩
  | raw ent w m =>
    obtain ⟨hne, k, rfl⟩ := fits_raw_iff.1 hfit
    rcases decodeRaw_cases ent w m k with h | ⟨h, -⟩
    · exact absurd h hne
    · rw [h] at hp
      exact decode_raw_iff.2 ⟨k, (Option.some.inj hp).symm, rfl⟩

/-- With `DLEN = 256` the two classes of a first code are the operands its two operations admit (R76). -/
theorem wf_decodeFirstCode (c : Code) : (decodeFirstCode 256 c).wf = true := by
  rcases firstCode_cases (d := 256) (c := c) rfl with ⟨h, hc⟩ | ⟨h, hc⟩ <;> rw [h] <;> exact decide_eq_true hc

/-- Settles O2, by the kind of context, from the same laws as O1. -/
theorem encodeOfDecodeIsIdentity : Obligations.EncodeOfDecodeIsIdentity := by
  unfold Obligations.EncodeOfDecodeIsIdentity
  refine ⟨fun ctx p i h hne => ?_, fun p i h => ?_, fun p i h => ?_⟩
  · cases ctx with
    | cmd =>
      obtain ⟨v, rfl, rfl⟩ := decode_cmd_iff.1 h
      exact ⟨encode_decodeCmd v, (fits_cmd_iff.2 ⟨v, rfl⟩).2⟩
    | firstCode d =>
      obtain ⟨c, rfl, rfl⟩ := decode_firstCode_iff.1 h
      exact ⟨encode_decodeFirstCode d c, fits_firstCode_iff.2 ⟨c, rfl⟩⟩
    | laterCode d =>
      obtain ⟨c, rfl, rfl⟩ := decode_laterCode_iff.1 h
      exact ⟨encode_decodeLaterCode d c, fits_laterCode_iff.2 ⟨c, rfl⟩⟩
    | raw ent w m =>
      obtain ⟨k, rfl, rfl⟩ := decode_raw_iff.1 h
      exact (decodeRaw_cases ent w m k).resolve_left hne
  · obtain ⟨v, -, rfl⟩ := decode_cmd_iff.1 h
    exact (fits_cmd_iff.2 ⟨v, rfl⟩).1
  · obtain ⟨c, -, rfl⟩ := decode_firstCode_iff.1 h
    exact wf_decodeFirstCode c

/-! ### The classes as 30_encoding.md writes them -/

/-- Settles O4, by R78's three rows. -/
theorem commandWordsAreTwo : Obligations.CommandWordsAreTwo := by
  unfold Obligations.CommandWordsAreTwo
  intro v
  rcases decodeCmd_cases v with ⟨rfl, h⟩ | ⟨rfl, h⟩ | ⟨h1, h2, h⟩
  · simp [h]
  · simp [h]
  · simp [h, h1, h2]

/-- Settles O5: the code is classed by the row for its place against `DLEN`, and no code reaches 65536. -/
theorem laterCodesAreClassedByTableLength : Obligations.LaterCodesAreClassedByTableLength := by
  unfold Obligations.LaterCodesAreClassedByTableLength
  intro d b0 b1
  refine ⟨codeOfBytes b0 b1, codeOfBytes_toNat b0 b1, fun h => congrArg Except.ok (decodeLaterCode_of_lt h),
    fun h => congrArg Except.ok (decodeLaterCode_of_eq h),
    fun h => congrArg Except.ok (decodeLaterCode_of_gt h), ?_⟩
  rintro rfl
  exact congrArg Except.ok (decodeLaterCode_of_lt (codeOfBytes b0 b1).isLt)

/-- Settles O6: the first byte is 0 exactly when the code is below 256. -/
theorem firstCodeIsLiteralOrBad : Obligations.FirstCodeIsLiteralOrBad := by
  unfold Obligations.FirstCodeIsLiteralOrBad
  intro b0 b1
  have hc := codeOfBytes_toNat b0 b1
  refine ⟨codeOfBytes b0 b1, hc, fun h => ?_, fun h => ?_⟩
  · have hle : (codeOfBytes b0 b1).toNat ≤ 255 := by
      have h0 : b0.toNat = 0 := by rw [h]; rfl
      have h1 := b1.isLt
      omega
    exact ⟨hle, congrArg Except.ok (decodeFirstCode_of_lt (Nat.lt_succ_of_le hle))⟩
  · have hge : 256 ≤ (codeOfBytes b0 b1).toNat := by
      have h0 : b0.toNat ≠ 0 := fun h0 => h (BitVec.eq_of_toNat_eq h0)
      omega
    exact ⟨hge, congrArg Except.ok (decodeFirstCode_of_le hge)⟩

/-- Two bytes are no entry of the seed, so the match `[k]` is emitted and an entry inserted (R113). -/
theorem decodeRaw_seed_second {m : Nat} (k k' : Byte) (hm : 256 < m) :
    decodeRaw seedEntries [k] m k' = .encEmitIns k' :=
  decodeRaw_emitIns (find_eq_none_iff.2 (by simp [mem_seedEntries]))
    (find_isSome_iff.2 (mem_seedEntries.2 ⟨k, rfl⟩)) (by simpa using hm)

/-- Settles O3: the words are closed data, but for the raw byte, whose dictionary is the seed. -/
theorem sampleWordsDecode : Obligations.SampleWordsDecode := by
  unfold Obligations.SampleWordsDecode
  refine ⟨by decide, by decide, by decide, by decide, by decide, by decide, by decide, by decide, ?_, by decide⟩
  simp only [decodeBytes]
  rw [decodeRaw_seed_second _ _ (by decide)]
  rfl

end Sys2Proof.Machine
end

section
/-! PROOFS. From a word to the step that runs it: a table word placed for the fetch (log 6), and the script
lines that are written with other lines, `WAIT` and the two pseudo-operations (30_encoding.md R82, R83). -/

namespace Sys2Proof.Machine

/-! ### A table word -/

/-- The first byte of a raw stream extends the empty match, whatever it is (R112). -/
theorem decodeRaw_seed_first (m : Nat) (k : Byte) : decodeRaw seedEntries [] m k = .encExtend k :=
  decodeRaw_extend (find_isSome_iff.2 (mem_seedEntries.2 ⟨k, rfl⟩))

/-- What a table word decodes to, by its length. -/
theorem decodeTableWord_eq_some {nbits w : Nat} {i : Instr} (h : decodeTableWord nbits w = some i) :
    (nbits = 32 ∧ i = decodeCmd (BitVec.ofNat 32 w)) ∨
    (nbits = 16 ∧ i = decodeFirstCode 256 (BitVec.ofNat 16 w)) ∨
    (nbits = 8 ∧ i = .encExtend (BitVec.ofNat 8 w)) := by
  unfold decodeTableWord at h
  split at h
  · exact .inl ⟨‹_›, (Option.some.inj h).symm⟩
  · split at h
    · simp only [decode, codeOfBytes_codeBytes] at h
      exact .inr (.inl ⟨‹_›, (Option.some.inj h).symm⟩)
    · split at h
      · simp only [decode, decodeRaw_seed_first] at h
        exact .inr (.inr ⟨‹_›, (Option.some.inj h).symm⟩)
      · cases h

/-- A sequencer's turn runs the step that its state selects. -/
theorem step_of_sequencerTurn_seqSelect {s : State} {ts : List Turn} {i : Instr}
    (ht : s.turns = .sequencer :: ts) (hs : seqSelect { s with turns := ts } = some i) :
    step s = exec i { s with turns := ts } := by
  rw [step_of_sequencerTurn ht]
  simp [sequencerMove, busy_of_seqSelect hs, hs]

theorem ibufByte_writeBytes_inside {s t : State} {off i : Nat} {bs : Bytes}
    (h : t.ibuf = s.ibuf.writeBytes off bs) (hi : i < bs.length) : t.ibufByte (off + i) = bs[i] := by
  simp [State.ibufByte, h, Memory.read_writeBytes_inside bs s.ibuf off i hi, hi]

/-- The state in which the operation of a word placed by `withFetchWord` is run: its turn has been taken. -/
def State.fetching (s : State) (nbits w : Nat) : State := { s.withFetchWord nbits w with turns := s.turns }

/-- A placed 16-bit word is the code at `IPTR` (R101). -/
theorem inCode_fetching_code (s : State) (w : Nat) : (s.fetching 16 w).inCode = BitVec.ofNat 16 w := by
  have hbuf : (s.fetching 16 w).ibuf = s.ibuf.writeBytes 0 (codeBytes (BitVec.ofNat 16 w)) := rfl
  have hi : (s.fetching 16 w).ibufByte 0 = codeHi (BitVec.ofNat 16 w) :=
    ibufByte_writeBytes_inside (i := 0) hbuf Nat.two_pos
  have lo : (s.fetching 16 w).ibufByte 1 = codeLo (BitVec.ofNat 16 w) :=
    ibufByte_writeBytes_inside (i := 1) hbuf Nat.one_lt_two
  calc (s.fetching 16 w).inCode
      = codeOfBytes ((s.fetching 16 w).ibufByte 0) ((s.fetching 16 w).ibufByte 1) := rfl
    _ = BitVec.ofNat 16 w := by rw [hi, lo, codeOfBytes_codeBytes]

/-- A placed 8-bit word is the byte at `IPTR` (R111). -/
theorem inByte_fetching_byte (s : State) (w : Nat) : (s.fetching 8 w).inByte = BitVec.ofNat 8 w :=
  ibufByte_writeBytes_inside (s := s) (off := 0) (i := 0) (bs := [BitVec.ofNat 8 w]) rfl Nat.one_pos

theorem seqSelect_fetching_code (s : State) (w : Nat) :
    seqSelect (s.fetching 16 w) = some (decodeFirstCode 256 (BitVec.ofNat 16 w)) := by
  have hdlen : (s.fetching 16 w).dlen = 256 := seedEntries_length
  rw [seqSelect_dec0 rfl, inCode_fetching_code, hdlen]

theorem seqSelect_fetching_byte (s : State) (w : Nat) :
    seqSelect (s.fetching 8 w) = some (.encExtend (BitVec.ofNat 8 w)) := by
  have hlen : (s.fetching 8 w).iptr < (s.fetching 8 w).ilen.toNat := Nat.one_pos
  rw [seqSelect_encRaw rfl hlen, inByte_fetching_byte]
  exact congrArg some (decodeRaw_seed_first _ _)

/-- Settles O10, by the word's length: a `CMD` write at the head of the script, the first code of a decode run,
the first byte of an encode run. -/
theorem fetchedWordIsRun : Obligations.FetchedWordIsRun := by
  unfold Obligations.FetchedWordIsRun
  intro s nbits w i hw
  rcases decodeTableWord_eq_some hw with ⟨rfl, rfl⟩ | ⟨rfl, rfl⟩ | ⟨rfl, rfl⟩
  · exact ⟨s, rfl, rfl, rfl, rfl, rfl, rfl, fun _ _ => rfl⟩
  · refine ⟨s.fetching 16 w, step_of_sequencerTurn_seqSelect rfl (seqSelect_fetching_code s w),
      rfl, rfl, rfl, rfl, rfl, fun a ha => ?_⟩
    have habove : 0 + 2 ≤ a := by omega
    exact Memory.read_writeBytes_above (codeBytes (BitVec.ofNat 16 w)) s.ibuf 0 a habove
  · refine ⟨s.fetching 8 w, step_of_sequencerTurn_seqSelect rfl (seqSelect_fetching_byte s w),
      rfl, rfl, rfl, rfl, rfl, fun a ha => ?_⟩
    have habove : 0 + 1 ≤ a := by omega
    exact Memory.read_writeBytes_above [BitVec.ofNat 8 w] s.ibuf 0 a habove

/-! ### Script lines -/

/-- Settles O38, by whether the block is busy. -/
theorem waitPollsUntilNotBusy : Obligations.WaitPollsUntilNotBusy := by
  unfold Obligations.WaitPollsUntilNotBusy
  intro s
  constructor
  · intro hb
    simp [exec, execWait, reply, hb]
  · intro hb
    simp [exec, execWait, reply, hb]

theorem lengthOk_iff {b : Bytes} : lengthOk b = true ↔ b.length < 2 ^ 32 := decide_eq_true_iff

/-- Settles O39, by whether a length register can hold the length. -/
theorem pseudoOperationsExpand : Obligations.PseudoOperationsExpand := by
  unfold Obligations.PseudoOperationsExpand
  intro s b
  constructor
  · intro h
    have hok := lengthOk_iff.2 h
    exact ⟨expandScript_of s hok, expandScript_of s hok⟩
  · intro h
    have hlong : lengthOk b = false := decide_eq_false (Nat.not_lt.2 h)
    exact ⟨expandScript_tooLong s hlong, expandScript_tooLong s hlong⟩

end Sys2Proof.Machine
end

section
/-! PROOFS. Bootstrap: `SEED` on and off the literals (40_bootstrap.md R90, R92). -/

namespace Sys2Proof.Machine

/-- Only a single byte is found in the seed (R90). -/
theorem find_seedEntries_eq_none {x : Bytes} (hx : x.length ≠ 1) : find seedEntries x = none := by
  refine find_eq_none_iff.2 fun hmem => ?_
  obtain ⟨b, rfl⟩ := mem_seedEntries.1 hmem
  exact hx rfl

/-- Settles O14: `SEED` answers `seedOp s`, whose dictionary is `seedEntries` and whose other fields are those
of `s`; the rest are the laws of `seedEntries`. -/
theorem seedGivesTheLiterals : Obligations.SeedGivesTheLiterals := by
  unfold Obligations.SeedGivesTheLiterals
  intro s
  exact ⟨seedOp s, rfl, rfl, seedEntries_length, fun _ hi => seedEntries_getElem? hi,
    find_seedEntries_literal, fun _ hx => find_seedEntries_eq_none hx⟩

end Sys2Proof.Machine
end

section
/-! PROOFS. The code serializer (41_code_serializer.md R100 to R103): the two bytes of a code, then a whole
stream of codes, and the two operations. -/

namespace Sys2Proof.Machine

/-! ### One code and its two bytes (R102) -/

/-- The two bytes of a code are the digits of its value in base 256. -/
theorem codeHi_codeLo_toNat (c : Code) : 256 * (codeHi c).toNat + (codeLo c).toNat = c.toNat := by
  rw [← codeOfBytes_toNat, codeOfBytes_codeBytes]

@[simp] theorem codeBytes_codeOfBytes (b0 b1 : Byte) : codeBytes (codeOfBytes b0 b1) = [b0, b1] := by
  rw [codeBytes, codeHi_codeOfBytes, codeLo_codeOfBytes]

/-! ### A stream of codes (R103) -/

@[simp] theorem des_codeBytes_append (c : Code) (bs : Bytes) : des (codeBytes c ++ bs) = c :: des bs :=
  congrArg (· :: des bs) (codeOfBytes_codeBytes c)

theorem des_ser (cs : List Code) : des (ser cs) = cs := by
  induction cs with
  | nil => rfl
  | cons c cs ih => rw [ser, des_codeBytes_append, ih]

theorem ser_length (cs : List Code) : (ser cs).length = 2 * cs.length := by
  induction cs with
  | nil => rfl
  | cons c cs ih =>
    simp only [ser, codeBytes, List.length_append, List.length_cons, List.length_nil, ih]
    omega

/-- By the recursion of `des`: two bytes at a time, and a single last byte is excluded by the length. -/
theorem ser_des : ∀ bs : Bytes, bs.length % 2 = 0 → ser (des bs) = bs
  | [], _ => rfl
  | [_], h => by simp at h
  | b0 :: b1 :: bs, h => by
    have ih := ser_des bs ((Nat.add_mod_right bs.length 2).symm.trans h)
    rw [des, ser, ih, codeBytes_codeOfBytes]
    rfl

/-- Settles O8: each direction is an induction along its own argument, one code or two bytes at a time. -/
theorem streamFunctionsAreInverse : Obligations.StreamFunctionsAreInverse := by
  unfold Obligations.StreamFunctionsAreInverse
  exact ⟨fun cs => ⟨des_ser cs, ser_length cs⟩, ser_des⟩

/-! ### `PUT16` and `GET16` (R100, R101) -/

/-- R100, with the bytes named as the codec names them. -/
theorem exec_put16 (c : Code) (s : State) :
    exec (.put16 c) s = .next { s with out := s.out ++ codeBytes c } := rfl

theorem exec_get16 {s : State} (h : s.iptr + 1 < s.ilen.toNat) : exec .get16 s = .next (get16Op s) :=
  if_pos h

/-- Settles O7, from the laws of one code's bytes and, for the last clause, those of a whole stream: the only
sequence of codes that serialises to `bs` is `des bs`. -/
theorem codeBytesAreInverse : Obligations.CodeBytesAreInverse := by
  unfold Obligations.CodeBytesAreInverse
  refine ⟨fun c s => ?_, fun b0 b1 s => ?_, fun bs heven => ?_⟩
  · exact ⟨codeHi c, codeLo c, exec_put16 c s, codeHi_codeLo_toNat c, codeOfBytes_codeBytes c⟩
  · refine ⟨codeOfBytes b0 b1, codeOfBytes_toNat b0 b1, ?_⟩
    rw [exec_put16, codeBytes_codeOfBytes]
  · refine ⟨des bs, ser_des bs heven, fun cs hcs => ?_⟩
    rw [← hcs, des_ser]

/-- Settles O15: the two bytes are those of `codeBytes`, high byte first. -/
theorem put16AppendsHighByteFirst : Obligations.Put16AppendsHighByteFirst := by
  unfold Obligations.Put16AppendsHighByteFirst
  exact fun s c => exec_put16 c s

/-- Settles O16: the code returned is the one at `IPTR`, and the precondition selects `get16Op`. -/
theorem get16ReadsHighByteFirst : Obligations.Get16ReadsHighByteFirst := by
  unfold Obligations.Get16ReadsHighByteFirst
  exact fun s h => ⟨s.inCode, inCode_toNat s, exec_get16 h⟩

end Sys2Proof.Machine
end

section
/-! PROOFS. What each step of the two runs does in a state that selects it: one law per operation, for every
operand (42_encoder.md R112 to R117, 43_decoder.md R132 to R139). -/

namespace Sys2Proof.Machine

section
variable {s : State}

/-! ### The encoder's steps -/

theorem exec_encExtend {k : Byte} (hs : seqSelect s = some (.encExtend k)) :
    exec (.encExtend k) s = .next { s with w := s.w ++ [k], iptr := s.iptr + 1 } :=
  whenSelected_eq hs

theorem exec_encEmitIns {k : Byte} {c : Nat} (hs : seqSelect s = some (.encEmitIns k))
    (hc : s.find s.w = some c) : exec (.encEmitIns k) s = .next { s with
      out := s.out ++ codeBytes (BitVec.ofNat 16 c), ent := s.ent ++ [s.w ++ [k]], w := [k],
      iptr := s.iptr + 1 } := by
  simp only [exec, execEncEmitIns, whenSelected_eq hs, emitMatch_of_find hc]
  rfl

theorem exec_encEmitFrz {k : Byte} {c : Nat} (hs : seqSelect s = some (.encEmitFrz k))
    (hc : s.find s.w = some c) : exec (.encEmitFrz k) s = .next { s with
      out := s.out ++ codeBytes (BitVec.ofNat 16 c), w := [k], iptr := s.iptr + 1 } := by
  simp only [exec, execEncEmitFrz, whenSelected_eq hs, emitMatch_of_find hc]
  rfl

theorem exec_encFlush {c : Nat} (hs : seqSelect s = some .encFlush) (hc : s.find s.w = some c) :
    exec .encFlush s = commit (put16Op (BitVec.ofNat 16 c) s) := by
  simp only [exec, execEncFlush, whenSelected_eq hs, emitMatch_of_find hc]

theorem exec_encEnd0 (hs : seqSelect s = some .encEnd0) : exec .encEnd0 s = commit s :=
  whenSelected_eq hs

theorem exec_encFault (hs : seqSelect s = some .encFault) :
    exec .encFault s = .next (raiseOp .compression .encLookupMiss s) :=
  whenSelected_eq hs

/-! ### The decoder's steps -/

theorem exec_decFirst {entry : Bytes} (hs : seqSelect s = some (.decFirst s.inCode))
    (he : s.entry s.inCode.toNat = some entry) : exec (.decFirst s.inCode) s = .next { s with
      k := s.inCode, iptr := s.iptr + 2, out := s.out ++ entry, w := entry, phase := .dec } := by
  have ht : (get16Op s).entry (get16Op s).k.toNat = some entry := he
  simp only [exec, execDecFirst, whenSelected_eq hs, ht]
  rfl

theorem exec_decBadfirst {c : Code} (hs : seqSelect s = some (.decBadfirst c)) :
    exec (.decBadfirst c) s = .next (raiseOp .decompression .decBadFirstCode (get16Op s)) :=
  whenSelected_eq hs

theorem exec_decKnown {entry : Bytes} (hs : seqSelect s = some (.decKnown s.inCode))
    (he : s.entry s.inCode.toNat = some entry) :
    exec (.decKnown s.inCode) s = decTailOp entry (get16Op s) := by
  have ht : (get16Op s).entry (get16Op s).k.toNat = some entry := he
  simp only [exec, execDecKnown, whenSelected_eq hs, ht]

theorem exec_decNext {c : Code} {b : Byte} {bs : Bytes} (hs : seqSelect s = some (.decNext c))
    (hw : s.w = b :: bs) : exec (.decNext c) s = decTailOp (s.w ++ [b]) (get16Op s) := by
  have ht : (get16Op s).w = b :: bs := hw
  simp only [exec, execDecNext, whenSelected_eq hs, ht, hw]

theorem exec_decBad {c : Code} (hs : seqSelect s = some (.decBad c)) :
    exec (.decBad c) s = .next (raiseOp .decompression .decBadCode (get16Op s)) :=
  whenSelected_eq hs

theorem exec_decEnd (hs : seqSelect s = some .decEnd) : exec .decEnd s = commit s :=
  whenSelected_eq hs

/-! ### The closing rows of the selection tables -/

theorem seqSelect_encEnd0 (hp : s.phase = .enc) (hi : s.iptr = s.ilen.toNat) (hw : s.w = []) :
    seqSelect s = some .encEnd0 := by
  rw [seqSelect_encClose hp hi, encClose, if_pos hw]

theorem seqSelect_encFlush (hp : s.phase = .enc) (hi : s.iptr = s.ilen.toNat) (hne : s.w ≠ [])
    (hw : (s.find s.w).isSome = true) : seqSelect s = some .encFlush := by
  rw [seqSelect_encClose hp hi, encClose, if_neg hne, if_pos hw]

/-- R117: the two ways in which a code is due that has no entry. -/
theorem seqSelect_encFault (hp : s.phase = .enc) (hw : s.find s.w = none)
    (hdue : s.iptr = s.ilen.toNat ∧ s.w ≠ [] ∨
      s.iptr < s.ilen.toNat ∧ s.find (s.w ++ [s.inByte]) = none) :
    seqSelect s = some .encFault := by
  rcases hdue with ⟨hi, hne⟩ | ⟨hi, hf⟩
  · rw [seqSelect_encClose hp hi, encClose, if_neg hne, if_neg (by simp [hw])]
  · rw [seqSelect_encRaw hp hi, decodeRaw_fault hf hw]

end

/-! ### Whose step it is -/

theorem step_of_hostTurn {s : State} {ts : List Turn} (h : s.turns = .host :: ts) :
    step s = hostMove { s with turns := ts } := by
  simp [step, move, h]

theorem hostMove_of_line {s : State} {op : HostOp} {ops : List HostOp} (h : s.script = op :: ops) :
    hostMove s = exec (decodeHostOp op) { s with script := ops } := by
  simp [hostMove, h]

/-- The selected step is run both at a listed turn and by default, on the state without the turn taken. -/
theorem step_of_selected {s t : State} {ts : List Turn} {i : Instr}
    (ht : s.turns = .sequencer :: ts ∧ t = { s with turns := ts } ∨ s.turns = [] ∧ t = s)
    (hs : seqSelect s = some i) : step s = exec i t := by
  rcases ht with ⟨ht, rfl⟩ | ⟨ht, rfl⟩
  · have hs' : seqSelect { s with turns := ts } = some i := hs
    exact step_of_sequencerTurn_seqSelect ht hs'
  · exact step_of_seqSelect ht hs

/-- Settles O9: the host's line by whose turn it is, the sequencer's step by the rows of its selection tables. -/
theorem stepRunsTheDecodedOperation : Obligations.StepRunsTheDecodedOperation := by
  unfold Obligations.StepRunsTheDecodedOperation
  refine ⟨fun s op ops ts hscript => ⟨fun ht => ?_, fun ht hb => ?_⟩, fun s t ts i ht => ?_⟩
  · rw [step_of_hostTurn ht]
    exact hostMove_of_line hscript
  · rw [step_of_noTurn_notBusy ht hb]
    exact hostMove_of_line hscript
  · refine ⟨fun hp hi hd => ?_, fun hp hd => ?_, fun hp hi hd => ?_, fun hp hi hw => ?_,
      fun hp hi hne hw => ?_, fun hp hi hne hw => ?_, fun hp hi => ?_⟩
    · exact step_of_selected ht (by rw [seqSelect_encRaw hp hi, Except.ok.inj hd])
    · exact step_of_selected ht (by rw [seqSelect_dec0 hp]; exact congrArg some (Except.ok.inj hd))
    · exact step_of_selected ht (by rw [seqSelect_dec hp hi]; exact congrArg some (Except.ok.inj hd))
    · exact step_of_selected ht (seqSelect_encEnd0 hp hi hw)
    · exact step_of_selected ht (seqSelect_encFlush hp hi hne hw)
    · exact step_of_selected ht (seqSelect_encFault hp hw (.inl ⟨hi, hne⟩))
    · exact step_of_selected ht (seqSelect_decEnd hp hi)

end Sys2Proof.Machine
end

section
/-! PROOFS. The encoder's operations one by one (42_encoder.md R110 to R117), and the commit that ends a run
(20_memory.md R66), which is shared with the decoder. -/

namespace Sys2Proof.Machine

/-- Settles O17: `ENC.INIT` answers `encInitOp s`, whose dictionary is the seed. -/
theorem encInitStartsAnEncodeRun : Obligations.EncInitStartsAnEncodeRun := by
  unfold Obligations.EncInitStartsAnEncodeRun
  intro s
  exact ⟨encInitOp s, rfl, rfl, seedEntries_length, fun _ hi => seedEntries_getElem? hi⟩

/-- Settles O19: in both cases `W ++ [k]` is an entry, which selects the step. -/
theorem encExtendGrowsTheMatch : Obligations.EncExtendGrowsTheMatch := by
  unfold Obligations.EncExtendGrowsTheMatch
  intro s k hp hi hk hmatch
  have hf : (s.find (s.w ++ [k])).isSome = true := by
    rcases hmatch with hf | ⟨hw, hlit⟩
    · exact hf
    · rw [hw]
      exact find_isSome_iff.2 (List.mem_of_getElem? hlit)
  exact exec_encExtend (seqSelect_encExtend hp hi hk hf)

/-- Settles O20: the row of R111 below the cap. -/
theorem encEmitInsEmitsThenInserts : Obligations.EncEmitInsEmitsThenInserts := by
  unfold Obligations.EncEmitInsEmitsThenInserts
  intro s k c hp hi hk hf hw hd
  exact exec_encEmitIns (seqSelect_encEmitIns hp hi hk hf hw hd) hw

/-- Settles O21: the row of R111 at the cap. -/
theorem encEmitFrzEmitsWithoutInserting : Obligations.EncEmitFrzEmitsWithoutInserting := by
  unfold Obligations.EncEmitFrzEmitsWithoutInserting
  intro s k c hp hi hk hf hw hfull
  exact exec_encEmitFrz (seqSelect_encEmitFrz hp hi hk hf hw hfull) hw

/-! ### The commit -/

theorem length_lt_of_canDeliver {s : State} {out : Bytes} (h : s.canDeliver out = true) :
    out.length < 2 ^ 32 := by
  simp only [State.canDeliver, Bool.and_eq_true, decide_eq_true_eq] at h
  exact h.2

/-- R66: the commit of a deliverable output, its effect on the host's registers and buffers, and its frame. -/
theorem commit_delivers {s : State} (h : s.canDeliver s.out = true) :
    ∃ t : State, commit s = .next t ∧
      t = { s with obuf := t.obuf, olen := t.olen, phase := .done, epoch := t.epoch } ∧
      t.olen.toNat = s.out.length ∧ t.output = s.out ∧ (∀ a, t.ibufByte a = s.ibufByte a) := by
  have hlen := length_lt_of_canDeliver h
  exact ⟨commitState s, commit_of_fits h, rfl, commitState_olen_toNat hlen, commitState_output s hlen,
    fun _ => rfl⟩

/-- Settles O22: the step is selected, and commits the state to which the code of `W` has been put. -/
theorem encFlushEmitsAndCommits : Obligations.EncFlushEmitsAndCommits := by
  unfold Obligations.EncFlushEmitsAndCommits
  rintro s c out hp hi hne hw rfl
  have hsel := seqSelect_encFlush hp hi hne (Option.isSome_of_eq_some hw)
  rw [exec_encFlush hsel hw]
  exact ⟨commit_delivers (s := put16Op (BitVec.ofNat 16 c) s),
    commit_of_not_fits (s := put16Op (BitVec.ofNat 16 c) s)⟩

/-- Settles O23: both steps are selected, and both are the commit. -/
theorem closingStepsCommit : Obligations.ClosingStepsCommit := by
  unfold Obligations.ClosingStepsCommit
  intro s hi
  have hend0 (hp : s.phase = .enc) (hw : s.w = []) : exec .encEnd0 s = commit s :=
    exec_encEnd0 (seqSelect_encEnd0 hp hi hw)
  have hend (hp : s.phase = .dec) : exec .decEnd s = commit s := exec_decEnd (seqSelect_decEnd hp hi)
  refine ⟨fun hd => ⟨fun hp hw => ?_, fun hp => ?_⟩, fun hd => ⟨fun hp hw => ?_, fun hp => ?_⟩⟩
  · rw [hend0 hp hw]; exact commit_delivers hd
  · rw [hend hp]; exact commit_delivers hd
  · rw [hend0 hp hw]; exact commit_of_not_fits hd
  · rw [hend hp]; exact commit_of_not_fits hd

/-- Settles O24: the step is selected, so it is the machine's too, and it is the fault entry. -/
theorem encFaultRaisesCompression : Obligations.EncFaultRaisesCompression := by
  unfold Obligations.EncFaultRaisesCompression
  intro s hp hw hdue
  have hsel := seqSelect_encFault hp hw hdue
  exact ⟨raiseOp .compression .encLookupMiss s, exec_encFault hsel, rfl,
    fun ht => step_of_seqSelect ht hsel⟩

end Sys2Proof.Machine
end

section
/-! PROOFS. The list of a sequencer step's effects is complete: whatever stands in it is the step the machine takes.
With `exec_selected_next` it is then all that a step does (42_encoder.md R111, 43_decoder.md R131). And what no
sequencer step touches, as a relation that a whole run keeps (10_state.md R30). -/

namespace Sys2Proof.Machine

theorem sequencerMove_of_seqSelect {s : State} {i : Instr} (h : seqSelect s = some i) :
    sequencerMove s = exec i s := by
  simp [sequencerMove, busy_of_seqSelect h, h]

/-- `DEC.TAIL` on an entry whose first byte is known (R137). -/
theorem decTailOp_of_eq_cons {entry : Bytes} {b : Byte} {bs : Bytes} (h : entry = b :: bs) (s : State) :
    decTailOp entry s = .next { s with
      out := s.out ++ entry, ent := insertBelow s.maxsize.toNat s.ent (s.w ++ [b]), w := entry } := by
  rw [h, decTailOp_cons]

namespace SeqEffect

/-- Each effect is that of an operation which the state selects. -/
theorem selected {s t : State} (h : SeqEffect s t) : ∃ i, seqSelect s = some i ∧ exec i s = .next t := by
  cases h with
  | extend hp hi hf =>
    have hs := seqSelect_encExtend hp hi rfl hf
    exact ⟨_, hs, exec_encExtend hs⟩
  | emitIns hp hi c hf hw hd =>
    have hs := seqSelect_encEmitIns hp hi rfl hf hw hd
    exact ⟨_, hs, exec_encEmitIns hs hw⟩
  | emitFrz hp hi c hf hw hd =>
    have hs := seqSelect_encEmitFrz hp hi rfl hf hw (full_iff.2 hd)
    exact ⟨_, hs, exec_encEmitFrz hs hw⟩
  | flush hp hi c hne hw ho =>
    have hs := seqSelect_encFlush hp hi hne (Option.isSome_of_eq_some hw)
    exact ⟨_, hs, (exec_encFlush hs hw).trans (commit_of_fits ho)⟩
  | end0 hp hi he ho =>
    have hs := seqSelect_encEnd0 hp hi he
    exact ⟨_, hs, (exec_encEnd0 hs).trans (commit_of_fits ho)⟩
  | fault hp hw hc =>
    have hs := seqSelect_encFault hp hw hc
    exact ⟨_, hs, exec_encFault hs⟩
  | first hp hk entry he =>
    have hs := (seqSelect_dec0 hp).trans (congrArg some (decodeFirstCode_of_lt hk))
    exact ⟨_, hs, exec_decFirst hs he⟩
  | badFirst hp hk =>
    have hs := (seqSelect_dec0 hp).trans (congrArg some (decodeFirstCode_of_le hk))
    exact ⟨_, hs, exec_decBadfirst hs⟩
  | known hp hi hk b bs he =>
    have hs := (seqSelect_dec hp hi).trans (congrArg some (decodeLaterCode_of_lt hk))
    exact ⟨_, hs, exec_decKnown hs he⟩
  | next hp hi hk b bs hw =>
    have hs := (seqSelect_dec hp hi).trans (congrArg some (decodeLaterCode_of_eq hk))
    have hentry : s.w ++ [b] = b :: (bs ++ [b]) := by rw [hw, List.cons_append]
    exact ⟨_, hs, (exec_decNext hs hw).trans (decTailOp_of_eq_cons hentry (get16Op s))⟩
  | bad hp hi hk =>
    have hs := (seqSelect_dec hp hi).trans (congrArg some (decodeLaterCode_of_gt hk))
    exact ⟨_, hs, exec_decBad hs⟩
  | decEnd hp hi ho =>
    have hs := seqSelect_decEnd hp hi
    exact ⟨_, hs, (exec_decEnd hs).trans (commit_of_fits ho)⟩

theorem sequencerMove_eq {s t : State} (h : SeqEffect s t) : sequencerMove s = .next t := by
  obtain ⟨i, hs, hexec⟩ := h.selected
  exact (sequencerMove_of_seqSelect hs).trans hexec

theorem step_eq {s t : State} (h : SeqEffect s t) (ht : s.turns = []) : step s = .next t := by
  obtain ⟨i, hs, hexec⟩ := h.selected
  exact (step_of_seqSelect ht hs).trans hexec

end SeqEffect

/-- `s` and `t` agree on what a run takes from outside the block and leaves as it is: the host's registers and input,
the capacities, and the model's own script, record, turns and count of resets (logs 4, 5, 7). -/
structure SameHostSide (s t : State) : Prop where
  params : t.params = s.params
  maxsize : t.maxsize = s.maxsize
  ilen : t.ilen = s.ilen
  ibuf : t.ibuf = s.ibuf
  resets : t.resets = s.resets
  turns : t.turns = s.turns
  script : t.script = s.script
  replies : t.replies = s.replies

namespace SameHostSide

theorem refl (s : State) : SameHostSide s s := ⟨rfl, rfl, rfl, rfl, rfl, rfl, rfl, rfl⟩

theorem trans {s t u : State} (h : SameHostSide s t) (h' : SameHostSide t u) : SameHostSide s u where
  params := h'.params.trans h.params
  maxsize := h'.maxsize.trans h.maxsize
  ilen := h'.ilen.trans h.ilen
  ibuf := h'.ibuf.trans h.ibuf
  resets := h'.resets.trans h.resets
  turns := h'.turns.trans h.turns
  script := h'.script.trans h.script
  replies := h'.replies.trans h.replies

theorem input {s t : State} (h : SameHostSide s t) : t.input = s.input := by
  simp only [State.input, State.memRead, State.ibufByte, h.ibuf, h.ilen, h.resets]

theorem canDeliver {s t : State} (h : SameHostSide s t) (out : Bytes) :
    t.canDeliver out = s.canDeliver out := by
  simp only [State.canDeliver, h.params]

end SameHostSide

theorem SeqEffect.sameHostSide {s t : State} (h : SeqEffect s t) : SameHostSide s t := by
  cases h <;> exact ⟨rfl, rfl, rfl, rfl, rfl, rfl, rfl, rfl⟩

end Sys2Proof.Machine
end

section
/-! PROOFS. The encode recursion of R119, one law per row of its case distinction, and that no row fails
(42_encoder.md R125, 60_exceptions.md R172). -/

namespace Sys2Proof.Machine

section
variable {m : Nat} {D : List Bytes} {w out : Bytes}

theorem encodeLoop_nil {c : Nat} (hne : w ≠ []) (hw : find D w = some c) :
    encodeLoop m D w out [] = some (out ++ codeBytes (BitVec.ofNat 16 c)) := by
  simp [encodeLoop, hne, hw, ser]

theorem encodeLoop_extend {k : Byte} {ks : Bytes} (hf : (find D (w ++ [k])).isSome = true) :
    encodeLoop m D w out (k :: ks) = encodeLoop m D (w ++ [k]) out ks := by
  simp [encodeLoop, hf]

theorem encodeLoop_emit {k : Byte} {ks : Bytes} {c : Nat} (hf : find D (w ++ [k]) = none)
    (hw : find D w = some c) : encodeLoop m D w out (k :: ks) =
      encodeLoop m (insertBelow m D (w ++ [k])) [k] (out ++ codeBytes (BitVec.ofNat 16 c)) ks := by
  simp [encodeLoop, hf, hw, ser]

theorem encodeLoop_nil_some {r : Bytes} (h : encodeLoop m D w out [] = some r) :
    w = [] ∧ r = out ∨ w ≠ [] ∧ ∃ c, find D w = some c ∧ r = out ++ codeBytes (BitVec.ofNat 16 c) := by
  by_cases hne : w = []
  · subst hne
    exact .inl ⟨rfl, (Option.some.inj h).symm⟩
  · cases hw : find D w with
    | none => simp [encodeLoop, hne, hw] at h
    | some c =>
      rw [encodeLoop_nil hne hw] at h
      exact .inr ⟨hne, c, rfl, (Option.some.inj h).symm⟩

theorem encodeLoop_cons_some {k : Byte} {ks r : Bytes} (h : encodeLoop m D w out (k :: ks) = some r) :
    (find D (w ++ [k])).isSome = true ∧ encodeLoop m D (w ++ [k]) out ks = some r ∨
    find D (w ++ [k]) = none ∧ ∃ c, find D w = some c ∧
      encodeLoop m (insertBelow m D (w ++ [k])) [k] (out ++ codeBytes (BitVec.ofNat 16 c)) ks = some r := by
  cases hf : find D (w ++ [k]) with
  | some j =>
    have hs := Option.isSome_of_eq_some hf
    rw [encodeLoop_extend hs] at h
    exact .inl ⟨rfl, h⟩
  | none =>
    cases hw : find D w with
    | none => simp [encodeLoop, hf, hw] at h
    | some c =>
      rw [encodeLoop_emit hf hw] at h
      exact .inr ⟨rfl, c, rfl, h⟩

end

/-- While the match is an entry, and every literal is one, the recursion has a value: `out` and then at least one
code, and at most one for the pending match and for each byte to come. -/
theorem encodeLoop_eq_append_ser (m : Nat) {D : List Bytes} {w : Bytes} (out : Bytes) (ks : Bytes)
    (hlit : ∀ k : Byte, [k] ∈ D) (hne : w ≠ []) (hw : w ∈ D) :
    ∃ cs : List Code, encodeLoop m D w out ks = some (out ++ ser cs) ∧
      1 ≤ cs.length ∧ cs.length ≤ ks.length + 1 := by
  induction ks generalizing D w out with
  | nil =>
    obtain ⟨c, hc⟩ := Option.isSome_iff_exists.1 (find_isSome_iff.2 hw)
    exact ⟨[BitVec.ofNat 16 c], by rw [encodeLoop_nil hne hc]; simp [ser], Nat.le_refl 1, Nat.le_refl 1⟩
  | cons k ks ih =>
    by_cases hmem : w ++ [k] ∈ D
    · obtain ⟨cs, hcs, hlow, hhigh⟩ := ih out hlit (by simp) hmem
      exact ⟨cs, (encodeLoop_extend (find_isSome_iff.2 hmem)).trans hcs, hlow, Nat.le_succ_of_le hhigh⟩
    · obtain ⟨c, hc⟩ := Option.isSome_iff_exists.1 (find_isSome_iff.2 hw)
      obtain ⟨cs, hcs, -, hhigh⟩ := ih (D := insertBelow m D (w ++ [k])) (w := [k])
        (out ++ codeBytes (BitVec.ofNat 16 c)) (fun k' => mem_insertBelow_of_mem (hlit k')) (by simp)
        (mem_insertBelow_of_mem (hlit k))
      refine ⟨BitVec.ofNat 16 c :: cs, ?_, by simp, by simpa using hhigh⟩
      rw [encodeLoop_emit (find_eq_none_iff.2 hmem) hc, hcs, ser, List.append_assoc]

/-- R119, R125: the first byte of an input is matched without a code, so the stream has at most one code per byte. -/
theorem encodeFn_cons_eq_ser (m : Nat) (k : Byte) (ks : Bytes) :
    ∃ cs : List Code, encodeFn m (k :: ks) = some (ser cs) ∧ 1 ≤ cs.length ∧ cs.length ≤ ks.length + 1 := by
  have hlit (b : Byte) : [b] ∈ seedEntries := mem_seedEntries.2 ⟨b, rfl⟩
  obtain ⟨cs, hcs, hbounds⟩ := encodeLoop_eq_append_ser m [] ks hlit (w := [k]) (by simp) (hlit k)
  exact ⟨cs, (encodeLoop_extend (w := []) (find_isSome_iff.2 (hlit k))).trans hcs, hbounds⟩

/-- Settles O54: the value is a serialised list of codes, whose number is bounded. -/
theorem encoderHasNoReachableError : Obligations.EncoderHasNoReachableError := by
  unfold Obligations.EncoderHasNoReachableError
  intro m b _ _
  cases b with
  | nil => exact ⟨[], rfl, rfl, Nat.le_refl 0, fun h => absurd rfl h⟩
  | cons k ks =>
    obtain ⟨cs, hcs, hlow, hhigh⟩ := encodeFn_cons_eq_ser m k ks
    have hlen := ser_length cs
    exact ⟨ser cs, hcs, by omega, by simp only [List.length_cons]; omega, fun _ => by omega⟩

end Sys2Proof.Machine
end

section
/-! PROOFS. An encode run computes the encode recursion (42_encoder.md R119, R121): the recursion's value from the
state's own dictionary, match, output and remaining input is the same at every step of the run. -/

namespace Sys2Proof.Machine

/-- An encode run is in progress whose recursion has the value `out`. -/
structure EncodesTo (s : State) (out : Bytes) : Prop where
  phase : s.phase = .enc
  err : s.err = .none
  cause : s.cause = .none
  value : encodeLoop s.maxsize.toNat s.ent s.w s.out (s.input.drop s.iptr) = some out

theorem exec_encode {s : State} (h : CommandLegal s) :
    exec .encode s = .next (encInitOp (clearStatus s)) :=
  whenCommandLegal_of h.notBusy h.maxsize h.input

/-- `ENC.INIT` starts the recursion where R119 starts it. -/
theorem encodesTo_encInitOp {s : State} {out : Bytes} (h : encodeFn s.maxsize.toNat s.input = some out) :
    EncodesTo (encInitOp (clearStatus s)) out := ⟨rfl, rfl, rfl, h⟩

namespace EncodesTo

variable {s : State} {out : Bytes}

/-- A step that consumes a byte and takes the recursion on by that byte. -/
theorem advance {t : State} (h : EncodesTo s out) (he : SeqEffect s t) (hp : t.phase = .enc)
    (hv : encodeLoop s.maxsize.toNat t.ent t.w t.out (s.input.drop t.iptr) = some out) :
    EncodesTo t out := by
  have hbusy : t.busy = true := by rw [State.busy, hp]; rfl
  obtain ⟨-, -, herr, hcause, -⟩ := he.frame_of_busy hbusy
  have hside := he.sameHostSide
  exact ⟨hp, herr.trans h.err, hcause.trans h.cause, by rw [hside.maxsize, hside.input]; exact hv⟩

/-- Before the end of the input the run takes one step and one byte (R121). -/
theorem step (h : EncodesTo s out) (hi : s.iptr < s.ilen.toNat) :
    ∃ t, SeqEffect s t ∧ t.iptr = s.iptr + 1 ∧ EncodesTo t out := by
  have hv := h.value
  rw [input_drop hi] at hv
  rcases encodeLoop_cons_some hv with ⟨hf, hv⟩ | ⟨hf, c, hw, hv⟩
  · have he := SeqEffect.extend h.phase hi hf
    exact ⟨_, he, rfl, h.advance he h.phase hv⟩
  · rcases Nat.lt_or_ge s.dlen s.maxsize.toNat with hd | hd
    · have he := SeqEffect.emitIns h.phase hi c hf hw hd
      rw [insertBelow_of_lt _ hd] at hv
      exact ⟨_, he, rfl, h.advance he h.phase hv⟩
    · have he := SeqEffect.emitFrz h.phase hi c hf hw hd
      rw [insertBelow_of_le _ hd] at hv
      exact ⟨_, he, rfl, h.advance he h.phase hv⟩

/-- At the end of the input the run commits the recursion's value. -/
theorem finish (h : EncodesTo s out) (hi : s.iptr = s.ilen.toNat) (hd : s.canDeliver out = true) :
    ∃ u : State, SeqEffect s (commitState u) ∧ u.out = out ∧ u.err = .none ∧ u.cause = .none := by
  have hv := h.value
  rw [List.drop_eq_nil_of_le (by rw [input_length, hi])] at hv
  rcases encodeLoop_nil_some hv with ⟨hw, rfl⟩ | ⟨hne, c, hw, rfl⟩
  · exact ⟨s, .end0 h.phase hi hw hd, rfl, h.err, h.cause⟩
  · exact ⟨put16Op (BitVec.ofNat 16 c) s, .flush h.phase hi c hne hw hd, rfl, h.err, h.cause⟩

/-- As many steps as bytes (R121), with no turn listed. -/
theorem run (h : EncodesTo s out) (ht : s.turns = []) (n : Nat) (hn : s.iptr + n ≤ s.ilen.toNat) :
    ∃ t : State, Host.Core.run Sys2Proof.core n s = .next t ∧ SameHostSide s t ∧ t.iptr = s.iptr + n ∧
      EncodesTo t out := by
  induction n with
  | zero => exact ⟨s, rfl, .refl s, rfl, h⟩
  | succ n ih =>
    obtain ⟨t, hrun, hside, hptr, ht'⟩ := ih (by omega)
    obtain ⟨u, he, hptr', hu⟩ := ht'.step (by rw [hptr, hside.ilen]; omega)
    have hstep := he.step_eq (hside.turns.trans ht)
    exact ⟨u, (run_add n 1 hrun).trans (run_succ 0 hstep), hside.trans he.sameHostSide, by omega, hu⟩

/-- The whole run, from its first byte to the result (R17, R119, R121). -/
theorem run_to_done (h : EncodesTo s out) (ht : s.turns = []) (h0 : s.iptr = 0)
    (hd : s.canDeliver out = true) :
    ∃ t : State, Host.Core.run Sys2Proof.core (s.ilen.toNat + 1) s = .next t ∧ SameHostSide s t ∧
      t.phase = .done ∧ t.result = some (.none, BitVec.ofNat 32 out.length, out) ∧ t.statusWord = 2 := by
  obtain ⟨t, hrun, hside, hptr, h'⟩ := h.run ht s.ilen.toNat (by omega)
  obtain ⟨u, he, rfl, herr, hcause⟩ := h'.finish (by rw [hptr, hside.ilen, h0, Nat.zero_add])
    (by rw [hside.canDeliver]; exact hd)
  have hstep := he.step_eq (hside.turns.trans ht)
  have hresult := commitState_result (length_lt_of_canDeliver hd)
  have hstatus : (commitState u).statusWord = 2 := by
    rw [State.statusWord, commitState_phase, commitState_err, commitState_cause, herr, hcause]
    decide
  rw [herr] at hresult
  exact ⟨commitState u, (run_add _ 1 hrun).trans (run_succ 0 hstep), hside.trans he.sameHostSide, rfl,
    hresult, hstatus⟩

end EncodesTo

/-- Settles O51: the command starts the recursion, and the run carries its value to the commit. -/
theorem encodeRunComputesEncode : Obligations.EncodeRunComputesEncode := by
  unfold Obligations.EncodeRunComputesEncode
  intro s out hlegal ht hfn hd
  have h := encodesTo_encInitOp hfn
  obtain ⟨t, hrun, -, hphase, hresult, hstatus⟩ := h.run_to_done ht rfl hd
  refine ⟨encInitOp (clearStatus s), t, exec_encode hlegal, hrun, hphase, hresult, hstatus, fun n hn => ?_⟩
  obtain ⟨v, hrunv, -, hptr, hv⟩ := h.run ht n (by simpa using hn)
  exact ⟨v, hrunv, hv.phase, by simpa using hptr⟩

end Sys2Proof.Machine
end

section
/-! PROOFS. A run takes nothing from the block's past (42_encoder.md R120, 43_decoder.md R146, 10_state.md R39,
70_reset_and_hazards.md R193): two states that differ only in what earlier runs left behind take the same steps. -/

namespace Sys2Proof.Machine

/-- What a run may find left behind, or that is the model's own record: the two buffers, the code last read, the
replies and the counters. -/
structure Past where
  ibuf : Memory
  obuf : Memory
  k : Code
  replies : List Reply
  resets : Nat
  epoch : Nat
  busyReads : Nat

def State.past (s : State) : Past := ⟨s.ibuf, s.obuf, s.k, s.replies, s.resets, s.epoch, s.busyReads⟩

/-- The same state with another past. -/
def State.withPast (s : State) (p : Past) : State :=
  { s with
    ibuf := p.ibuf
    obuf := p.obuf
    k := p.k
    replies := p.replies
    resets := p.resets
    epoch := p.epoch
    busyReads := p.busyReads }

/-- A decode run stands at a code: the two bytes at `IPTR` are bytes of the input (R130, R131). -/
structure CodeAligned (s : State) : Prop where
  even : s.phase = .dec0 ∨ s.phase = .dec → s.iptr % 2 = 0 ∧ s.ilen.toNat % 2 = 0
  first : s.phase = .dec0 → s.iptr < s.ilen.toNat

theorem CodeAligned.second_byte {s : State} (h : CodeAligned s) (hp : s.phase = .dec0 ∨ s.phase = .dec)
    (hi : s.iptr < s.ilen.toNat) : s.iptr + 1 < s.ilen.toNat := by
  obtain ⟨hptr, hlen⟩ := h.even hp
  omega

theorem SeqEffect.keeps_codeAligned {s t : State} (he : SeqEffect s t) (h : CodeAligned s) :
    CodeAligned t := by
  have hnext (hp : s.phase = .dec0 ∨ s.phase = .dec) :
      (s.iptr + 2) % 2 = 0 ∧ s.ilen.toNat % 2 = 0 := by
    obtain ⟨hptr, hlen⟩ := h.even hp
    exact ⟨by omega, hlen⟩
  cases he with
  | extend hp | emitIns hp | emitFrz hp => exact ⟨fun h' => by simp [hp] at h', fun h' => by simp [hp] at h'⟩
  | flush | end0 | fault | badFirst | bad | decEnd => exact ⟨by simp, by simp⟩
  | first hp => exact ⟨fun _ => hnext (.inl hp), nofun⟩
  | known hp | next hp => exact ⟨fun _ => hnext (.inr hp), fun h' => by simp [hp] at h'⟩

/-- The bytes of the input are what `IBUF` reads as below `ILEN`. -/
theorem ibufByte_withPast {s : State} {p : Past} (h : (s.withPast p).input = s.input) {i : Nat}
    (hi : i < s.ilen.toNat) : (s.withPast p).ibufByte i = s.ibufByte i := by
  have hread : ((s.withPast p).memRead .ibuf 0 s.ilen.toNat)[i]? = (s.memRead .ibuf 0 s.ilen.toNat)[i]? :=
    congrArg (·[i]?) h
  rw [memRead_ibuf_getElem? _ _ _ _ hi, memRead_ibuf_getElem? _ _ _ _ hi, Nat.zero_add] at hread
  exact Option.some.inj hread

/-- A step's effect does not depend on the past, and what it adds to the past (the code read, the committed buffer,
the counter of the free values) does not come back to the run. -/
theorem SeqEffect.withPast {s t : State} (he : SeqEffect s t) {p : Past}
    (hin : (s.withPast p).input = s.input) (ha : CodeAligned s) :
    ∃ q, SeqEffect (s.withPast p) (t.withPast q) := by
  have hbyte (hi : s.iptr < s.ilen.toNat) : (s.withPast p).inByte = s.inByte := ibufByte_withPast hin hi
  have hcode (hp : s.phase = .dec0 ∨ s.phase = .dec) (hi : s.iptr < s.ilen.toNat) :
      (s.withPast p).inCode = s.inCode :=
    congrArg₂ codeOfBytes (ibufByte_withPast hin hi) (ibufByte_withPast hin (ha.second_byte hp hi))
  cases he with
  | extend hp hi hf =>
    rw [← hbyte hi] at hf ⊢
    exact ⟨p, .extend (s := s.withPast p) hp hi hf⟩
  | emitIns hp hi c hf hw hd =>
    rw [← hbyte hi] at hf ⊢
    exact ⟨p, .emitIns (s := s.withPast p) hp hi c hf hw hd⟩
  | emitFrz hp hi c hf hw hd =>
    rw [← hbyte hi] at hf ⊢
    exact ⟨p, .emitFrz (s := s.withPast p) hp hi c hf hw hd⟩
  | flush hp hi c hne hw ho =>
    exact ⟨{ p with obuf := _, epoch := _ }, .flush (s := s.withPast p) hp hi c hne hw ho⟩
  | end0 hp hi hw ho => exact ⟨{ p with obuf := _, epoch := _ }, .end0 (s := s.withPast p) hp hi hw ho⟩
  | fault hp hw hc =>
    refine ⟨{ p with epoch := _ }, .fault (s := s.withPast p) hp hw (hc.imp_right fun ⟨hi, hf⟩ => ⟨hi, ?_⟩)⟩
    rw [hbyte hi]
    exact hf
  | first hp hk entry hent =>
    rw [← hcode (.inl hp) (ha.first hp)] at hk hent ⊢
    exact ⟨{ p with k := _ }, .first (s := s.withPast p) hp hk entry hent⟩
  | badFirst hp hk =>
    rw [← hcode (.inl hp) (ha.first hp)] at hk
    exact ⟨{ p with k := _, epoch := _ }, .badFirst (s := s.withPast p) hp hk⟩
  | known hp hi hk b bs hent =>
    rw [← hcode (.inr hp) hi] at hk hent ⊢
    exact ⟨{ p with k := _ }, .known (s := s.withPast p) hp hi hk b bs hent⟩
  | next hp hi hk b bs hw =>
    rw [← hcode (.inr hp) hi] at hk ⊢
    exact ⟨{ p with k := _ }, .next (s := s.withPast p) hp hi hk b bs hw⟩
  | bad hp hi hk =>
    rw [← hcode (.inr hp) hi] at hk
    exact ⟨{ p with k := _, epoch := _ }, .bad (s := s.withPast p) hp hi hk⟩
  | decEnd hp hi ho => exact ⟨{ p with obuf := _, epoch := _ }, .decEnd (s := s.withPast p) hp hi ho⟩

/-- A run ends in `DONE` only by a commit, whose output is `OUT`. -/
theorem SeqEffect.output_of_done {s t : State} (he : SeqEffect s t) (hd : t.phase = .done) :
    t.output = t.out := by
  cases he with
  | extend hp | emitIns hp | emitFrz hp | known hp | next hp => cases hp.symm.trans hd
  | first | fault | badFirst | bad => cases hd
  | flush _ _ _ _ _ ho | end0 _ _ _ ho | decEnd _ _ ho =>
    exact commitState_output _ (length_lt_of_canDeliver ho)

/-- Two blocks at the same point of the same run, left to themselves. -/
structure SameRun (a b : State) : Prop where
  past : ∃ p, b = a.withPast p
  input : b.input = a.input
  aligned : CodeAligned a
  turns : a.turns = []
  script : a.script = []
  output : a.phase = .done → b.output = a.output

/-- With nothing listed, every step is the sequencer's move, which is none where no run is in progress. -/
theorem step_of_noTurn_noScript {s : State} (ht : s.turns = []) (hs : s.script = []) :
    step s = sequencerMove s := by
  cases hb : s.busy
  · rw [step_of_noTurn_notBusy ht hb, hostMove_of_noScript hs, sequencerMove_of_notBusy hb]
  · simp [step, move, ht, hb]

namespace SameRun

theorem step {a b a' b' : State} (h : SameRun a b) (ha : step a = .next a') (hb : step b = .next b') :
    SameRun a' b' := by
  obtain ⟨p, rfl⟩ := h.past
  rw [step_of_noTurn_noScript h.turns h.script] at ha
  rw [step_of_noTurn_noScript (s := a.withPast p) h.turns h.script] at hb
  rcases sequencerMove_next ha with ⟨-, he⟩ | ⟨hbusy, rfl⟩
  · obtain ⟨q, he'⟩ := he.withPast h.input h.aligned
    rw [he'.sequencerMove_eq] at hb
    cases hb
    have hside := he.sameHostSide
    exact {
      past := ⟨q, rfl⟩
      input := he'.sameHostSide.input.trans (h.input.trans hside.input.symm)
      aligned := he.keeps_codeAligned h.aligned
      turns := hside.turns.trans h.turns
      script := hside.script.trans h.script
      output := fun hd => (he'.output_of_done hd).trans (he.output_of_done hd).symm }
  · rw [sequencerMove_of_notBusy (s := a'.withPast p) hbusy] at hb
    cases hb
    exact h

theorem run {a b a' b' : State} {n : Nat} (h : SameRun a b)
    (ha : Host.Core.run Sys2Proof.core n a = .next a') (hb : Host.Core.run Sys2Proof.core n b = .next b') :
    SameRun a' b' := by
  induction n generalizing a b with
  | zero => cases ha; cases hb; exact h
  | succ n ih =>
    obtain ⟨c, hca, hrun⟩ := run_succ_next ha
    obtain ⟨d, hdb, hrun'⟩ := run_succ_next hb
    exact ih (h.step hca hdb) hrun hrun'

end SameRun

/-! ### The command -/

/-- The two INIT operations leave nothing of the past but what `State.past` lists (R110, R130). -/
theorem sameRun_startRun {s₁ s₂ : State} {p : Phase} (hm : s₁.maxsize = s₂.maxsize)
    (hl : s₁.ilen = s₂.ilen) (hc : s₁.params = s₂.params) (hin : s₁.input = s₂.input)
    (ht₁ : s₁.turns = []) (ht₂ : s₂.turns = []) (hs₁ : s₁.script = []) (hs₂ : s₂.script = [])
    (ha : CodeAligned (startRun p (clearStatus s₁))) (hp : p ≠ .done) :
    SameRun (startRun p (clearStatus s₁)) (startRun p (clearStatus s₂)) where
  past := ⟨s₂.past, by
    simp only [startRun, seedOp, clearStatus, State.withPast, State.past, hm, hl, hc, ht₁, ht₂, hs₁, hs₂]⟩
  input := hin.symm
  aligned := ha
  turns := ht₁
  script := hs₁
  output hd := absurd hd hp

/-- `DEC.INIT` looks at `ILEN` only: both runs start, or both fail with the same cause (R130). -/
theorem decInitOp_of_ilen_eq {s₁ s₂ : State} (hl : s₁.ilen = s₂.ilen) :
    (∃ c, decInitOp s₁ = raiseOp .decompression c s₁ ∧ decInitOp s₂ = raiseOp .decompression c s₂) ∨
    (s₁.ilen.toNat ≠ 0 ∧ s₁.ilen.toNat % 2 = 0 ∧
      decInitOp s₁ = startRun .dec0 s₁ ∧ decInitOp s₂ = startRun .dec0 s₂) := by
  unfold decInitOp
  rw [← hl]
  split_ifs with hzero hodd
  · exact .inl ⟨.decEmpty, rfl, rfl⟩
  · exact .inl ⟨.decOddLength, rfl, rfl⟩
  · exact .inr ⟨hzero, by omega, rfl, rfl⟩

theorem run_of_step_self {s : State} (h : step s = .next s) (n : Nat) :
    Host.Core.run Sys2Proof.core n s = .next s := by
  induction n with
  | zero => rfl
  | succ n ih => rw [run_succ n h, ih]

/-- A run that ended inside its command stays as it is while nothing is listed (R181). -/
theorem run_raiseOp {e : ErrKind} {c : Cause} {s : State} (ht : s.turns = []) (hs : s.script = []) (n : Nat) :
    Host.Core.run Sys2Proof.core n (raiseOp e c s) = .next (raiseOp e c s) :=
  run_of_step_self ((step_of_noTurn_noScript (s := raiseOp e c s) ht hs).trans
    (sequencerMove_of_notBusy rfl)) n

/-- Settles O50: the command starts the same run in both blocks, or ends both at once by the same fault. -/
theorem runDependsOnItsInputsOnly : Obligations.RunDependsOnItsInputsOnly := by
  unfold Obligations.RunDependsOnItsInputsOnly
  intro i s₁ s₂ t₁ t₂ u₁ u₂ n hi hm hl hc hin ht₁ ht₂ hs₁ hs₂ he₁ he₂ hu₁ hu₂
  have hstart {p : Phase} := sameRun_startRun (p := p) hm hl hc hin ht₁ ht₂ hs₁ hs₂
  suffices hsame : SameRun t₁ t₂ ∨ ∃ c, t₁ = raiseOp .decompression c (clearStatus s₁) ∧
      t₂ = raiseOp .decompression c (clearStatus s₂) by
    rcases hsame with h | ⟨c, rfl, rfl⟩
    · have h' := h.run hu₁ hu₂
      obtain ⟨p, rfl⟩ := h'.past
      exact ⟨rfl, rfl, rfl, fun hd => (h'.output hd).symm⟩
    · rw [run_raiseOp (s := clearStatus s₁) ht₁ hs₁] at hu₁
      rw [run_raiseOp (s := clearStatus s₂) ht₂ hs₂] at hu₂
      cases hu₁
      cases hu₂
      exact ⟨rfl, rfl, rfl, nofun⟩
  rcases hi with rfl | rfl
  · obtain ⟨-, -, -, rfl⟩ := whenCommandLegal_next he₁
    obtain ⟨-, -, -, rfl⟩ := whenCommandLegal_next he₂
    exact .inl (hstart ⟨by simp, by simp⟩ (by decide))
  · obtain ⟨-, -, -, rfl⟩ := whenCommandLegal_next he₁
    obtain ⟨-, -, -, rfl⟩ := whenCommandLegal_next he₂
    rcases decInitOp_of_ilen_eq (s₁ := clearStatus s₁) (s₂ := clearStatus s₂) hl with
      hfail | ⟨hpos, heven, h₁, h₂⟩
    · exact .inr hfail
    · rw [h₁, h₂]
      exact .inl (hstart ⟨fun _ => ⟨rfl, heven⟩, fun _ => Nat.pos_of_ne_zero hpos⟩ (by decide))

end Sys2Proof.Machine
end

section
/-! PROOFS. The decode recursion of R140, one law per row of its case distinction: the first code names a literal, a
later code an entry or the match with its own first byte (43_decoder.md R132 to R138). -/

namespace Sys2Proof.Machine

/-- What a code after the first stands for: an entry; at `DLEN` the match and its own first byte; above, nothing
(R75, R135, R136, R138). `decodeLoop` is stated through it in `decodeLoop_of_entry` and `decodeLoop_of_noEntry`. -/
def codeEntry (D : List Bytes) (w : Bytes) (k : Code) : Option Bytes :=
  if k.toNat < D.length then D[k.toNat]?
  else if k.toNat = D.length then some (w ++ w.take 1)
  else none

section
variable {m : Nat} {D : List Bytes} {w e out : Bytes} {k : Code} {ks : List Code}

theorem codeEntry_of_getElem? (h : D[k.toNat]? = some e) : codeEntry D w k = some e := by
  have hlt : k.toNat < D.length := (List.getElem?_eq_some_iff.1 h).1
  rw [codeEntry, if_pos hlt, h]

theorem codeEntry_of_eq_length (h : k.toNat = D.length) : codeEntry D w k = some (w ++ w.take 1) := by
  rw [codeEntry, if_neg h.not_lt, if_pos h]

/-- The three classes of a later code (R75). -/
theorem codeEntry_cases (D : List Bytes) (w : Bytes) (k : Code) :
    (∃ e, D[k.toNat]? = some e ∧ codeEntry D w k = some e) ∨
    (k.toNat = D.length ∧ codeEntry D w k = some (w ++ w.take 1)) ∨
    (D.length < k.toNat ∧ codeEntry D w k = none) := by
  rcases Nat.lt_trichotomy k.toNat D.length with h | h | h
  · have hget := List.getElem?_eq_getElem h
    exact .inl ⟨_, hget, codeEntry_of_getElem? hget⟩
  · exact .inr (.inl ⟨h, codeEntry_of_eq_length h⟩)
  · exact .inr (.inr ⟨h, by rw [codeEntry, if_neg h.not_gt, if_neg h.ne']⟩)

theorem codeEntry_some (h : codeEntry D w k = some e) :
    D[k.toNat]? = some e ∨ k.toNat = D.length ∧ e = w ++ w.take 1 := by
  rcases codeEntry_cases D w k with ⟨e', hget, he⟩ | ⟨hk, he⟩ | ⟨-, he⟩ <;> rw [h] at he <;> cases he
  · exact .inl hget
  · exact .inr ⟨hk, rfl⟩

theorem length_lt_of_codeEntry_none (h : codeEntry D w k = none) : D.length < k.toNat := by
  rcases codeEntry_cases D w k with ⟨e, -, he⟩ | ⟨-, he⟩ | ⟨hk, -⟩
  · rw [h] at he; cases he
  · rw [h] at he; cases he
  · exact hk

theorem decodeLoop_of_entry (h : codeEntry D w k = some e) :
    decodeLoop m D w out (k :: ks) =
      decodeLoop m (insertBelow m D (w ++ e.take 1)) e (out ++ e) ks := by
  rw [codeEntry] at h
  simp only [decodeLoop, h]

theorem decodeLoop_of_noEntry (h : codeEntry D w k = none) : decodeLoop m D w out (k :: ks) = none := by
  rw [codeEntry] at h
  simp only [decodeLoop, h]

/-- The recursion goes on only past a code that stands for something. -/
theorem decodeLoop_cons_some {r : Bytes} (h : decodeLoop m D w out (k :: ks) = some r) :
    ∃ e, codeEntry D w k = some e ∧
      decodeLoop m (insertBelow m D (w ++ e.take 1)) e (out ++ e) ks = some r := by
  cases he : codeEntry D w k with
  | none => rw [decodeLoop_of_noEntry he] at h; cases h
  | some e => rw [decodeLoop_of_entry he] at h; exact ⟨e, rfl, h⟩

end

/-! ### The whole stream -/

section
variable {m : Nat} {s w : Bytes} {k : Code} {ks : List Code}

theorem decodeFn_of_badLength (h : s.length = 0 ∨ s.length % 2 = 1) : decodeFn m s = none := if_pos h

theorem length_ne_zero_of_des (h : des s = k :: ks) : s.length ≠ 0 := by
  have hlen := des_length s
  rw [h, List.length_cons] at hlen
  omega

theorem decodeFn_of_entry (heven : s.length % 2 = 0) (h : des s = k :: ks)
    (hw : seedEntries[k.toNat]? = some w) : decodeFn m s = decodeLoop m seedEntries w w ks := by
  simp [decodeFn, heven, length_ne_zero_of_des h, h, hw]

theorem decodeFn_of_noEntry (heven : s.length % 2 = 0) (h : des s = k :: ks)
    (hw : seedEntries[k.toNat]? = none) : decodeFn m s = none := by
  simp [decodeFn, heven, length_ne_zero_of_des h, h, hw]

/-- A stream that decodes is not empty and has no half code (R130). -/
theorem length_of_decodeFn_some {out : Bytes} (h : decodeFn m s = some out) :
    s.length ≠ 0 ∧ s.length % 2 = 0 := by
  by_contra hbad
  rw [decodeFn_of_badLength (by omega)] at h
  cases h

/-- A stream that decodes has a first code, which names a literal (R132). -/
theorem decodeFn_some {out : Bytes} (h : decodeFn m s = some out) :
    ∃ k ks w, des s = k :: ks ∧ seedEntries[k.toNat]? = some w ∧
      decodeLoop m seedEntries w w ks = some out := by
  obtain ⟨-, heven⟩ := length_of_decodeFn_some h
  cases hdes : des s with
  | nil => simp [decodeFn, hdes] at h
  | cons k ks =>
    cases hw : seedEntries[k.toNat]? with
    | none => rw [decodeFn_of_noEntry heven hdes hw] at h; cases h
    | some w =>
      rw [decodeFn_of_entry heven hdes hw] at h
      exact ⟨k, ks, w, rfl, hw, h⟩

end

end Sys2Proof.Machine
end

section
/-! PROOFS. The decoder is one insertion behind the encoder, and still reads every code as the match that it was
emitted for (43_decoder.md R142). -/

namespace Sys2Proof.Machine

theorem take_one_append {w : Bytes} (hne : w ≠ []) (x : Bytes) : (w ++ x).take 1 = w.take 1 :=
  List.take_append_of_le_length (List.length_pos_of_ne_nil hne)

theorem insertBelow_length_le {m : Nat} {ent : List Bytes} (x : Bytes) (h : ent.length ≤ m) :
    (insertBelow m ent x).length ≤ m := by
  rw [insertBelow_length]
  split <;> omega

/-- The encoder has inserted the last match `w` and the first byte of the match `v` that came next; the decoder, which
has not, reads the code of `v` as `v`. The code may name the missing entry itself: then `v` extends `w`, so the
missing byte is the first of `w` (R136). -/
theorem codeEntry_of_find_insertBelow {m : Nat} {D : List Bytes} {w v : Bytes} {c : Nat}
    (hm : m ≤ 65536) (hlen : D.length ≤ m) (hne : w ≠ [])
    (h : find (insertBelow m D (w ++ v.take 1)) v = some c) :
    codeEntry D w (BitVec.ofNat 16 c) = some v := by
  have hget := find_getElem? h
  have hlt := find_lt h
  have hle := insertBelow_length_le (w ++ v.take 1) hlen
  have hcode : (BitVec.ofNat 16 c).toNat = c := ofNat16_toNat (by omega)
  rcases Nat.lt_or_ge c D.length with hold | hnew
  · rw [insertBelow_getElem? hold] at hget
    exact codeEntry_of_getElem? (by rw [hcode, hget])
  · rw [insertBelow_length] at hlt
    obtain ⟨hroom, rfl⟩ : D.length < m ∧ c = D.length := by split at hlt <;> omega
    have hv : w ++ v.take 1 = v := by simpa [insertBelow_of_lt _ hroom] using hget
    have hfirst : v.take 1 = w.take 1 := by rw [← hv, take_one_append hne]
    rw [codeEntry_of_eq_length hcode, ← hfirst, hv]

/-- What the decoder makes of the codes `c :: cs` that the encoder emits from dictionary `D`, match `w` and the bytes
`ks` to come: `c` is the code of the completed match `v`, and the decoder, which has the dictionary `D` once it has read
`v`, decodes `cs` to the bytes that come after `v`. -/
structure DecodesBack (m : Nat) (D : List Bytes) (w ks v rest : Bytes) (c : Nat) (cs : List Code) : Prop where
  named : find D v = some c
  first : v.take 1 = w.take 1
  split : v ++ rest = w ++ ks
  value : ∀ r, decodeLoop m D v r cs = some (r ++ rest)

/-- The codes after an emitted match `w`: the next match begins with the byte `k` that ended `w`, so what the decoder
inserts is what the encoder inserted. -/
theorem DecodesBack.emit {m : Nat} {D : List Bytes} {w ks v rest : Bytes} {k : Byte} {c : Nat}
    {cs : List Code} (hm : m ≤ 65536) (hlen : D.length ≤ m) (hne : w ≠ [])
    (h : DecodesBack m (insertBelow m D (w ++ [k])) [k] ks v rest c cs) (r : Bytes) :
    decodeLoop m D w r (BitVec.ofNat 16 c :: cs) = some (r ++ k :: ks) := by
  have hfirst : v.take 1 = [k] := h.first
  have hentry : codeEntry D w (BitVec.ofNat 16 c) = some v :=
    codeEntry_of_find_insertBelow hm hlen hne (by rw [hfirst]; exact h.named)
  calc decodeLoop m D w r (BitVec.ofNat 16 c :: cs)
      = decodeLoop m (insertBelow m D (w ++ [k])) v (r ++ v) cs := by
        rw [decodeLoop_of_entry hentry, hfirst]
    _ = some (r ++ v ++ rest) := h.value _
    _ = some (r ++ k :: ks) := by rw [List.append_assoc, h.split]; rfl

/-- By the encoder's recursion over the bytes to come. -/
theorem encodeLoop_decodesBack {m : Nat} (hm : m ≤ 65536) {D : List Bytes} {w : Bytes} (out ks : Bytes)
    (hlit : ∀ k : Byte, [k] ∈ D) (hlen : D.length ≤ m) (hne : w ≠ []) (hw : w ∈ D) :
    ∃ v rest c cs, encodeLoop m D w out ks = some (out ++ ser (BitVec.ofNat 16 c :: cs)) ∧
      DecodesBack m D w ks v rest c cs := by
  induction ks generalizing D w out with
  | nil =>
    obtain ⟨c, hc⟩ := Option.isSome_iff_exists.1 (find_isSome_iff.2 hw)
    exact ⟨w, [], c, [], by rw [encodeLoop_nil hne hc]; simp [ser], hc, rfl, rfl, by simp [decodeLoop]⟩
  | cons k ks ih =>
    by_cases hmem : w ++ [k] ∈ D
    · obtain ⟨v, rest, c, cs, hcs, h⟩ := ih out hlit hlen (by simp) hmem
      exact ⟨v, rest, c, cs, (encodeLoop_extend (find_isSome_iff.2 hmem)).trans hcs, h.named,
        h.first.trans (take_one_append hne [k]), by simpa using h.split, h.value⟩
    · obtain ⟨c, hc⟩ := Option.isSome_iff_exists.1 (find_isSome_iff.2 hw)
      obtain ⟨v, rest, c', cs, hcs, h⟩ := ih (D := insertBelow m D (w ++ [k])) (w := [k])
        (out ++ codeBytes (BitVec.ofNat 16 c)) (fun k' => mem_insertBelow_of_mem (hlit k'))
        (insertBelow_length_le _ hlen) (by simp) (mem_insertBelow_of_mem (hlit k))
      refine ⟨w, k :: ks, c, BitVec.ofNat 16 c' :: cs, ?_, hc, rfl, rfl, h.emit hm hlen hne⟩
      rw [encodeLoop_emit (find_eq_none_iff.2 hmem) hc, hcs, List.append_assoc]
      rfl

/-- Settles O53: the stream's first code names a literal, and the rest of the stream decodes to the bytes after it. -/
theorem decodeOfEncodedStreamIsTheInput : Obligations.DecodeOfEncodedStreamIsTheInput := by
  unfold Obligations.DecodeOfEncodedStreamIsTheInput
  intro m b hlow hhigh hb
  obtain ⟨k, ks, rfl⟩ := List.exists_cons_of_ne_nil hb
  have hlit (k : Byte) : [k] ∈ seedEntries := mem_seedEntries.2 ⟨k, rfl⟩
  obtain ⟨v, rest, c, cs, hcs, h⟩ := encodeLoop_decodesBack hhigh [] ks hlit
    (by rw [seedEntries_length]; exact hlow) (List.cons_ne_nil k []) (hlit k)
  have hc : c < 256 := by simpa using find_lt h.named
  have hfirst : seedEntries[(BitVec.ofNat 16 c).toNat]? = some v := by
    rw [ofNat16_toNat (by omega)]
    exact find_getElem? h.named
  have heven : (ser (BitVec.ofNat 16 c :: cs)).length % 2 = 0 := by rw [ser_length]; omega
  refine ⟨ser (BitVec.ofNat 16 c :: cs), (encodeLoop_extend (find_isSome_iff.2 (hlit k))).trans hcs, ?_⟩
  rw [decodeFn_of_entry heven (des_ser _) hfirst, h.value v, h.split]
  rfl

end Sys2Proof.Machine
end

section
/-! PROOFS. How long a decode's output can be: at each code the longest match grows by at most one byte
(43_decoder.md R144). -/

namespace Sys2Proof.Machine

/-- The match and the entries after `n` codes: none is empty, none longer than `n`. -/
structure LengthsWithin (n : Nat) (D : List Bytes) (w : Bytes) : Prop where
  matched : 1 ≤ w.length ∧ w.length ≤ n
  entries : ∀ e ∈ D, 1 ≤ e.length ∧ e.length ≤ n

/-- The first match of a decode is a literal, like every entry then (R132). -/
theorem lengthsWithin_seedEntries {w : Bytes} {i : Nat} (h : seedEntries[i]? = some w) :
    LengthsWithin 1 seedEntries w := by
  have hlit : ∀ e ∈ seedEntries, 1 ≤ e.length ∧ e.length ≤ 1 := by
    intro e he
    obtain ⟨b, rfl⟩ := mem_seedEntries.1 he
    exact ⟨Nat.le_refl 1, Nat.le_refl 1⟩
  exact ⟨hlit w (List.mem_of_getElem? h), hlit⟩

/-- Only the match can be made longer, and by one byte. -/
theorem LengthsWithin.next {n m : Nat} {D : List Bytes} {w e : Bytes} {k : Code}
    (h : LengthsWithin n D w) (he : codeEntry D w k = some e) :
    LengthsWithin (n + 1) (insertBelow m D (w ++ e.take 1)) e := by
  obtain ⟨hlow, hhigh⟩ := h.matched
  have hone (x : Bytes) : (w ++ x.take 1).length ≤ n + 1 := by
    rw [List.length_append, List.length_take]
    omega
  constructor
  case matched =>
    rcases codeEntry_some he with hget | ⟨-, rfl⟩
    · obtain ⟨hlow', hhigh'⟩ := h.entries e (List.mem_of_getElem? hget)
      exact ⟨hlow', Nat.le_succ_of_le hhigh'⟩
    · exact ⟨by rw [List.length_append]; omega, hone w⟩
  case entries =>
    intro x hx
    rcases mem_insertBelow.1 hx with hx | ⟨-, rfl⟩
    · obtain ⟨hlow', hhigh'⟩ := h.entries x hx
      exact ⟨hlow', Nat.le_succ_of_le hhigh'⟩
    · exact ⟨by rw [List.length_append]; omega, hone e⟩

/-- By the recursion over the codes; `n` is the number of codes read before. -/
theorem decodeLoop_length {n m : Nat} {D : List Bytes} {w out r : Bytes} {ks : List Code}
    (h : LengthsWithin n D w) (hlow : n ≤ out.length) (hhigh : 2 * out.length ≤ n * (n + 1))
    (hr : decodeLoop m D w out ks = some r) :
    n + ks.length ≤ r.length ∧ 2 * r.length ≤ (n + ks.length) * (n + ks.length + 1) := by
  induction ks generalizing n D w out with
  | nil =>
    cases hr
    exact ⟨hlow, hhigh⟩
  | cons k ks ih =>
    obtain ⟨e, he, hr⟩ := decodeLoop_cons_some hr
    have hnext := h.next (m := m) he
    obtain ⟨helow, hehigh⟩ := hnext.matched
    have hout : (out ++ e).length = out.length + e.length := List.length_append
    have hlen : n + (k :: ks).length = n + 1 + ks.length := by rw [List.length_cons]; omega
    rw [hlen]
    exact ih hnext (by omega) (by rw [hout]; linarith) hr

/-- Settles O56: the first code gives one byte, and the later ones as `decodeLoop_length` says. -/
theorem decodedLengthIsBounded : Obligations.DecodedLengthIsBounded := by
  unfold Obligations.DecodedLengthIsBounded
  intro m s out _ _ h
  obtain ⟨k, ks, w, hdes, hw, hr⟩ := decodeFn_some h
  have hlengths := lengthsWithin_seedEntries hw
  obtain ⟨hlow, hhigh⟩ := hlengths.matched
  have hcodes : s.length / 2 = 1 + ks.length := by
    rw [← des_length, hdes, List.length_cons, Nat.add_comm]
  rw [hcodes]
  exact decodeLoop_length hlengths hlow (by omega) hr

end Sys2Proof.Machine
end

section
/-! PROOFS. The decoder's operations one by one (43_decoder.md R130 to R138): each is selected by its class of code,
and then does what its law in a selecting state says. -/

namespace Sys2Proof.Machine

/-! ### `DEC.INIT` -/

section
variable {s : State}

theorem exec_decInit (s : State) : exec .decInit s = .next (decInitOp s) := rfl

theorem decInitOp_of_empty (h : s.ilen.toNat = 0) : decInitOp s = raiseOp .decompression .decEmpty s :=
  if_pos h

theorem decInitOp_of_odd (h : s.ilen.toNat % 2 = 1) :
    decInitOp s = raiseOp .decompression .decOddLength s := by
  rw [decInitOp, if_neg (by omega), if_pos h]

theorem decInitOp_of_even (hpos : s.ilen.toNat ≠ 0) (heven : s.ilen.toNat % 2 = 0) :
    decInitOp s = startRun .dec0 s := by
  rw [decInitOp, if_neg hpos, if_neg (by omega)]

end

/-- Settles O18, one clause by each of the three cases of `DEC.INIT`. -/
theorem decInitChecksTheLength : Obligations.DecInitChecksTheLength := by
  unfold Obligations.DecInitChecksTheLength
  intro s
  rw [exec_decInit]
  refine ⟨fun hzero => ?_, fun hodd => ?_, fun hpos heven => ?_⟩
  · rw [decInitOp_of_empty hzero]
    exact ⟨_, rfl, rfl⟩
  · rw [decInitOp_of_odd hodd]
    exact ⟨_, rfl, rfl⟩
  · rw [decInitOp_of_even hpos heven]
    exact ⟨_, rfl, rfl, seedEntries_length, fun _ hi => seedEntries_getElem? hi⟩

/-! ### The steps that read a code -/

section
variable {s : State}

theorem seqSelect_decFirst (hp : s.phase = .dec0) (hk : s.inCode.toNat < s.dlen) :
    seqSelect s = some (.decFirst s.inCode) := by
  rw [seqSelect_dec0 hp, decodeFirstCode_of_lt hk]

theorem seqSelect_decBadfirst (hp : s.phase = .dec0) (hk : s.dlen ≤ s.inCode.toNat) :
    seqSelect s = some (.decBadfirst s.inCode) := by
  rw [seqSelect_dec0 hp, decodeFirstCode_of_le hk]

theorem seqSelect_decKnown (hp : s.phase = .dec) (hi : s.iptr < s.ilen.toNat)
    (hk : s.inCode.toNat < s.dlen) : seqSelect s = some (.decKnown s.inCode) := by
  rw [seqSelect_dec hp hi, decodeLaterCode_of_lt hk]

theorem seqSelect_decNext (hp : s.phase = .dec) (hi : s.iptr < s.ilen.toNat)
    (hk : s.inCode.toNat = s.dlen) : seqSelect s = some (.decNext s.inCode) := by
  rw [seqSelect_dec hp hi, decodeLaterCode_of_eq hk]

theorem seqSelect_decBad (hp : s.phase = .dec) (hi : s.iptr < s.ilen.toNat)
    (hk : s.dlen < s.inCode.toNat) : seqSelect s = some (.decBad s.inCode) := by
  rw [seqSelect_dec hp hi, decodeLaterCode_of_gt hk]

theorem lt_dlen_of_entry {i : Nat} {e : Bytes} (h : s.entry i = some e) : i < s.dlen :=
  (List.getElem?_eq_some_iff.1 h).1

end

/-- Settles O25: a code that has an entry is below `DLEN`. -/
theorem decFirstEmitsTheEntry : Obligations.DecFirstEmitsTheEntry := by
  unfold Obligations.DecFirstEmitsTheEntry
  intro s c entry hp hc he
  obtain rfl := inCode_eq_of_toNat hc
  exact exec_decFirst (seqSelect_decFirst hp (lt_dlen_of_entry he)) he

/-- Settles O26: both codes are refused by their place against `DLEN`, and both steps are the fault entry. -/
theorem badCodesRaiseDecompression : Obligations.BadCodesRaiseDecompression := by
  unfold Obligations.BadCodesRaiseDecompression
  intro s c hc
  obtain rfl := inCode_eq_of_toNat hc
  exact ⟨fun hp hk => ⟨_, exec_decBadfirst (seqSelect_decBadfirst hp hk), rfl⟩,
    fun hp hi hk => ⟨_, exec_decBad (seqSelect_decBad hp hi hk), rfl⟩⟩

/-- Settles O27: the step is `DEC.TAIL` of the entry after `GET16`. -/
theorem decKnownEmitsTheEntry : Obligations.DecKnownEmitsTheEntry := by
  unfold Obligations.DecKnownEmitsTheEntry
  intro s c b bs hp hi hc he
  obtain rfl := inCode_eq_of_toNat hc
  exact (exec_decKnown (seqSelect_decKnown hp hi (lt_dlen_of_entry he)) he).trans
    (decTailOp_cons b bs (get16Op s))

/-- Settles O28: the step is `DEC.TAIL` of the rebuilt entry after `GET16`; what it appends below the cap stands at the
index `DLEN` had. -/
theorem decNextRebuildsTheEntry : Obligations.DecNextRebuildsTheEntry := by
  unfold Obligations.DecNextRebuildsTheEntry
  intro s c b bs hp hi hc hk hw
  obtain rfl := inCode_eq_of_toNat hc
  have hentry : s.w ++ [b] = b :: (bs ++ [b]) := by rw [hw, List.cons_append]
  have hstep := (exec_decNext (seqSelect_decNext hp hi hk) hw).trans
    (decTailOp_of_eq_cons hentry (get16Op s))
  refine ⟨_, hstep, rfl, fun hroom => ?_⟩
  show (insertBelow s.maxsize.toNat s.ent (s.w ++ [b]))[s.inCode.toNat]? = some (s.w ++ [b])
  rw [insertBelow_of_lt _ hroom, hk]
  exact List.getElem?_concat_length

/-- Settles O29: `DEC.TAIL` by whether the entry has a first byte. -/
theorem decTailInsertsTheOldMatch : Obligations.DecTailInsertsTheOldMatch := by
  unfold Obligations.DecTailInsertsTheOldMatch
  exact ⟨fun s b bs => decTailOp_cons b bs s, fun _ => rfl⟩

end Sys2Proof.Machine
end

section
/-! PROOFS. A decode run computes the decode recursion (43_decoder.md R140, R145): the recursion's value from the
state's own dictionary, match, output and remaining codes is the same at every step of the run, and a code for which it
has none makes the run fail. -/

namespace Sys2Proof.Machine

theorem exec_decode {s : State} (h : CommandLegal s) :
    exec .decode s = .next (decInitOp (clearStatus s)) :=
  whenCommandLegal_of h.notBusy h.maxsize h.input

theorem commitState_statusWord {s : State} (he : s.err = .none) (hc : s.cause = .none) :
    (commitState s).statusWord = 2 := by
  rw [State.statusWord, commitState_phase, commitState_err, commitState_cause, he, hc]
  decide

/-- The state after a later code that stands for `entry` (R135, R136, R137). -/
def State.afterCode (s : State) (entry : Bytes) : State :=
  { s with
    k := s.inCode
    iptr := s.iptr + 2
    out := s.out ++ entry
    w := entry
    ent := insertBelow s.maxsize.toNat s.ent (s.w ++ entry.take 1) }

/-- A code that stands for something is a step of the run, `DEC.KNOWN` or `DEC.NEXT`. -/
theorem seqEffect_afterCode {s : State} {n : Nat} {entry : Bytes} (hp : s.phase = .dec)
    (hi : s.iptr < s.ilen.toNat) (hl : LengthsWithin n s.ent s.w)
    (he : codeEntry s.ent s.w s.inCode = some entry) : SeqEffect s (s.afterCode entry) := by
  rcases codeEntry_some he with hget | ⟨hk, rfl⟩
  · obtain ⟨b, bs, rfl⟩ := List.exists_cons_of_length_pos (hl.entries entry (List.mem_of_getElem? hget)).1
    exact .known hp hi (lt_dlen_of_entry hget) b bs hget
  · obtain ⟨b, bs, hw⟩ := List.exists_cons_of_length_pos hl.matched.1
    have hfirst : s.w.take 1 = [b] := by rw [hw]; rfl
    have hne : s.w ≠ [] := by rw [hw]; exact List.cons_ne_nil b bs
    have hnext := SeqEffect.next hp hi hk b bs hw
    rw [State.afterCode, take_one_append hne, hfirst]
    exact hnext

/-! ### The run after its first code -/

/-- A decode run is in progress, past its first code, whose recursion has the value `r`. -/
structure DecodesTo (s : State) (r : Option Bytes) : Prop where
  phase : s.phase = .dec
  err : s.err = .none
  cause : s.cause = .none
  aligned : CodeAligned s
  lengths : ∃ n, LengthsWithin n s.ent s.w
  value : decodeLoop s.maxsize.toNat s.ent s.w s.out (des (s.input.drop s.iptr)) = r

/-- A step of a decode run that takes the recursion on by its code. -/
theorem SeqEffect.decodesTo {s t : State} {r : Option Bytes} {n : Nat} (he : SeqEffect s t)
    (herr : s.err = .none) (hcause : s.cause = .none) (ha : CodeAligned s) (hp : t.phase = .dec)
    (hl : LengthsWithin n t.ent t.w)
    (hv : decodeLoop s.maxsize.toNat t.ent t.w t.out (des (s.input.drop t.iptr)) = r) : DecodesTo t r := by
  have hbusy : t.busy = true := by rw [State.busy, hp]; rfl
  obtain ⟨-, -, herr', hcause', -⟩ := he.frame_of_busy hbusy
  have hside := he.sameHostSide
  exact ⟨hp, herr'.trans herr, hcause'.trans hcause, he.keeps_codeAligned ha, ⟨n, hl⟩,
    by rw [hside.maxsize, hside.input]; exact hv⟩

/-- Within `n` steps the run ends with the fault entry of a decompression error. -/
def FailsWithin (n : Nat) (s : State) : Prop :=
  ∃ (t : State) (k : Nat), k ≤ n ∧ Host.Core.run Sys2Proof.core k s = .next t ∧ SameHostSide s t ∧
    ∃ c u, t = raiseOp .decompression c u

theorem failsWithin_of_seqEffect {s u : State} {c : Cause} (n : Nat)
    (he : SeqEffect s (raiseOp .decompression c u)) (ht : s.turns = []) : FailsWithin (n + 1) s :=
  ⟨_, 1, Nat.le_add_left 1 n, run_succ 0 (he.step_eq ht), he.sameHostSide, c, u, rfl⟩

theorem FailsWithin.of_next {n : Nat} {s t : State} (h : FailsWithin n t) (he : SeqEffect s t)
    (ht : s.turns = []) : FailsWithin (n + 1) s := by
  obtain ⟨u, k, hk, hrun, hside, hfault⟩ := h
  exact ⟨u, k + 1, Nat.succ_le_succ hk, (run_succ k (he.step_eq ht)).trans hrun,
    he.sameHostSide.trans hside, hfault⟩

namespace DecodesTo

variable {s : State} {r : Option Bytes}

/-- Before the end of the input the run takes one step and one code, or fails at the code. -/
theorem step (h : DecodesTo s r) (hi : s.iptr < s.ilen.toNat) :
    (∃ t, SeqEffect s t ∧ t.iptr = s.iptr + 2 ∧ DecodesTo t r) ∨
    (r = none ∧ SeqEffect s (raiseOp .decompression .decBadCode (get16Op s))) := by
  have hv := h.value
  rw [des_input_drop (h.aligned.second_byte (.inr h.phase) hi)] at hv
  obtain ⟨n, hl⟩ := h.lengths
  cases hentry : codeEntry s.ent s.w s.inCode with
  | some entry =>
    have he := seqEffect_afterCode h.phase hi hl hentry
    rw [decodeLoop_of_entry hentry] at hv
    exact .inl ⟨_, he, rfl, he.decodesTo h.err h.cause h.aligned h.phase (hl.next hentry) hv⟩
  | none =>
    rw [decodeLoop_of_noEntry hentry] at hv
    exact .inr ⟨hv.symm, .bad h.phase hi (length_lt_of_codeEntry_none hentry)⟩

/-- At the end of the input the recursion's value is what has been put out. -/
theorem value_of_end (h : DecodesTo s r) (hi : s.iptr = s.ilen.toNat) : r = some s.out := by
  have hv := h.value
  rw [List.drop_eq_nil_of_le (by rw [input_length, hi])] at hv
  exact hv.symm

/-- As many steps as codes to come, or a failure on the way, with no turn listed. -/
theorem run (h : DecodesTo s r) (ht : s.turns = []) {n : Nat} (hn : s.iptr + 2 * n = s.ilen.toNat) :
    (∃ t, Host.Core.run Sys2Proof.core n s = .next t ∧ SameHostSide s t ∧ t.iptr = t.ilen.toNat ∧
      DecodesTo t r) ∨ (r = none ∧ FailsWithin n s) := by
  induction n generalizing s with
  | zero => exact .inl ⟨s, rfl, .refl s, hn, h⟩
  | succ n ih =>
    rcases h.step (by omega) with ⟨t, he, hptr, ht'⟩ | ⟨hr, he⟩
    · have hside := he.sameHostSide
      rcases ih ht' (hside.turns.trans ht) (by rw [hptr, hside.ilen]; omega) with
        ⟨u, hrun, hside', hend, hu⟩ | ⟨hr, hfail⟩
      · exact .inl ⟨u, (run_succ n (he.step_eq ht)).trans hrun, hside.trans hside', hend, hu⟩
      · exact .inr ⟨hr, hfail.of_next he ht⟩
    · exact .inr ⟨hr, failsWithin_of_seqEffect n he ht⟩

end DecodesTo

/-! ### The whole run -/

/-- A decode run stands before its first code, no flag set (R130, R154). -/
structure DecodeStarts (s : State) : Prop extends Dec0Inv s where
  phase : s.phase = .dec0
  err : s.err = .none
  cause : s.cause = .none

theorem decodeStarts_startRun {s : State} (hpos : s.ilen.toNat ≠ 0) (heven : s.ilen.toNat % 2 = 0) :
    DecodeStarts (startRun .dec0 (clearStatus s)) :=
  ⟨⟨rfl, Nat.pos_of_ne_zero hpos, heven, rfl, rfl, rfl⟩, rfl, rfl, rfl⟩

namespace DecodeStarts

variable {s : State}

theorem codeAligned (h : DecodeStarts s) : CodeAligned s :=
  ⟨fun _ => ⟨by rw [h.ptr], h.lenEven⟩, fun _ => by rw [h.ptr]; exact h.lenPos⟩

/-- The first code starts the recursion where R140 starts it, or the run fails at it. -/
theorem step (h : DecodeStarts s) :
    (∃ t, SeqEffect s t ∧ t.iptr = 2 ∧ DecodesTo t (decodeFn s.maxsize.toNat s.input)) ∨
    (decodeFn s.maxsize.toNat s.input = none ∧
      SeqEffect s (raiseOp .decompression .decBadFirstCode (get16Op s))) := by
  have ha := h.codeAligned
  have hdes := des_input_drop (ha.second_byte (.inl h.phase) (ha.first h.phase))
  rw [h.ptr, List.drop_zero] at hdes
  have heven : s.input.length % 2 = 0 := by rw [input_length]; exact h.lenEven
  cases hentry : s.entry s.inCode.toNat with
  | some w =>
    have hw : seedEntries[s.inCode.toNat]? = some w := by rw [← h.seeded]; exact hentry
    have he := SeqEffect.first h.phase (lt_dlen_of_entry hentry) w hentry
    rw [decodeFn_of_entry heven hdes hw]
    refine .inl ⟨_, he, by simp [h.ptr], he.decodesTo (n := 1) h.err h.cause ha rfl ?_ ?_⟩
    · exact h.seeded ▸ lengthsWithin_seedEntries hw
    · simp [h.ptr, h.out0, h.seeded]
  | none =>
    have hw : seedEntries[s.inCode.toNat]? = none := by rw [← h.seeded]; exact hentry
    exact .inr ⟨decodeFn_of_noEntry heven hdes hw,
      .badFirst h.phase (List.getElem?_eq_none_iff.1 hentry)⟩

/-- All codes are read in as many steps, or the run fails on the way, with no turn listed. -/
theorem run (h : DecodeStarts s) (ht : s.turns = []) :
    (∃ t, Host.Core.run Sys2Proof.core (s.ilen.toNat / 2) s = .next t ∧ SameHostSide s t ∧
      t.iptr = t.ilen.toNat ∧ DecodesTo t (decodeFn s.maxsize.toNat s.input)) ∨
    (decodeFn s.maxsize.toNat s.input = none ∧ FailsWithin (s.ilen.toNat / 2) s) := by
  have hpos := h.lenPos
  have heven := h.lenEven
  obtain ⟨n, hn⟩ : ∃ n, s.ilen.toNat / 2 = n + 1 := ⟨s.ilen.toNat / 2 - 1, by omega⟩
  rw [hn]
  rcases h.step with ⟨t, he, hptr, ht'⟩ | ⟨hr, he⟩
  · have hside := he.sameHostSide
    rcases ht'.run (hside.turns.trans ht) (n := n) (by rw [hptr, hside.ilen]; omega) with
      ⟨u, hrun, hside', hend, hu⟩ | ⟨hr, hfail⟩
    · exact .inl ⟨u, (run_succ n (he.step_eq ht)).trans hrun, hside.trans hside', hend, hu⟩
    · exact .inr ⟨hr, hfail.of_next he ht⟩
  · exact .inr ⟨hr, failsWithin_of_seqEffect n he ht⟩

/-- Where the recursion has a value, the step after the last code commits it (R139, R140). -/
theorem run_to_done (h : DecodeStarts s) (ht : s.turns = []) {out : Bytes}
    (hfn : decodeFn s.maxsize.toNat s.input = some out) (hd : s.canDeliver out = true) :
    ∃ t : State, Host.Core.run Sys2Proof.core (s.ilen.toNat / 2 + 1) s = .next t ∧ SameHostSide s t ∧
      t.phase = .done ∧ t.result = some (.none, BitVec.ofNat 32 out.length, out) ∧ t.statusWord = 2 := by
  rcases h.run ht with ⟨t, hrun, hside, hend, ht'⟩ | ⟨hr, -⟩
  · obtain rfl : out = t.out := Option.some.inj (hfn.symm.trans (ht'.value_of_end hend))
    have hfits : t.canDeliver t.out = true := by rw [hside.canDeliver]; exact hd
    have he := SeqEffect.decEnd ht'.phase hend hfits
    have hresult := commitState_result (length_lt_of_canDeliver hd)
    rw [ht'.err] at hresult
    exact ⟨commitState t, (run_add _ 1 hrun).trans (run_succ 0 (he.step_eq (hside.turns.trans ht))),
      hside.trans he.sameHostSide, rfl, hresult, commitState_statusWord ht'.err ht'.cause⟩
  · rw [hfn] at hr; cases hr

/-- Where the recursion has no value, the run fails at one of its codes. -/
theorem run_to_fail (h : DecodeStarts s) (ht : s.turns = [])
    (hfn : decodeFn s.maxsize.toNat s.input = none) : FailsWithin (s.ilen.toNat / 2) s := by
  rcases h.run ht with ⟨t, -, -, hend, ht'⟩ | ⟨-, hfail⟩
  · rw [hfn] at ht'
    cases ht'.value_of_end hend
  · exact hfail

end DecodeStarts

/-- The `DECODE` command fails at once on a bad length, and so does the run it starts on a stream without a value. -/
theorem failsWithin_decInitOp {s : State} (ht : s.turns = [])
    (hfn : decodeFn s.maxsize.toNat s.input = none) :
    FailsWithin (s.ilen.toNat / 2) (decInitOp (clearStatus s)) := by
  rcases decInitOp_cases (clearStatus s) with ⟨-, he⟩ | ⟨-, he⟩ | ⟨hpos, heven, he⟩
  · exact ⟨_, 0, Nat.zero_le _, rfl, .refl _, _, _, he⟩
  · exact ⟨_, 0, Nat.zero_le _, rfl, .refl _, _, _, he⟩
  · rw [he]
    exact (decodeStarts_startRun hpos heven).run_to_fail ht hfn

/-- Settles O52: the command starts the recursion, which the run carries to the commit or to a fault entry. -/
theorem decodeRunComputesDecode : Obligations.DecodeRunComputesDecode := by
  unfold Obligations.DecodeRunComputesDecode
  intro s hlegal ht
  refine ⟨fun out hfn hd => ?_, fun hfn => ?_⟩
  · obtain ⟨hpos, heven⟩ := length_of_decodeFn_some hfn
    rw [input_length] at hpos heven
    have hinit := decInitOp_of_even (s := clearStatus s) hpos heven
    have hstart := decodeStarts_startRun hpos heven
    obtain ⟨t, hrun, -, hphase, hresult, hstatus⟩ := hstart.run_to_done ht hfn hd
    exact ⟨_, t, (exec_decode hlegal).trans (congrArg _ hinit), hrun, hphase, hresult, hstatus⟩
  · obtain ⟨t, n, hn, hrun, -, c, u, rfl⟩ := failsWithin_decInitOp ht hfn
    exact ⟨_, raiseOp .decompression c u, n, exec_decode hlegal, Nat.le_succ_of_le hn, hrun, rfl,
      raiseOp_result _ c u⟩

end Sys2Proof.Machine
end

section
/-! PROOFS. The host's own operations one by one (44_host_interface.md R150 to R156): what each answers in the two
situations that the block distinguishes, a run in progress or none. -/

namespace Sys2Proof.Machine

/-! ### Register reads (R150) -/

section
variable {s : State}

theorem exec_rd_status (s : State) : exec (.rd 1) s = .next (reply (.word 1 s.statusWord) s) := by
  simp [exec, execRd, State.readReg]

theorem exec_rd_of_notBusy {r : Nat} {v : Word} (hb : s.busy = false) (hv : s.readReg r = some v) :
    exec (.rd r) s = .next (reply (.word r v) s) := by
  simp [exec, execRd, hv, hb]

theorem exec_rd_of_busy {r : Nat} {v : Word} (hb : s.busy = true) (hr : r ≠ 1)
    (hv : s.readReg r = some v) : exec (.rd r) s = .next (busyWordReply r s) := by
  simp [exec, execRd, hv, hb, hr]

/-- There are five registers (R30). -/
theorem readReg_reserved {r : Nat} (hr : 5 ≤ r) : s.readReg r = none := by
  obtain ⟨k, rfl⟩ := Nat.exists_eq_add_of_le' hr
  rfl

theorem exec_rd_reserved {r : Nat} (hr : 5 ≤ r) : exec (.rd r) s = .refused (.reservedRegister r) := by
  simp [exec, execRd, readReg_reserved hr]

end

/-- Settles O33, by whether a run is in progress: `RD 1` is the one read that does not depend on it. -/
theorem registerReadsReturnTheRegisters : Obligations.RegisterReadsReturnTheRegisters := by
  unfold Obligations.RegisterReadsReturnTheRegisters
  intro s
  refine ⟨exec_rd_status s, fun hb => ⟨?_, ?_, ?_, ?_⟩, fun hb r hr => ?_, fun r => exec_rd_reserved⟩
  · exact exec_rd_of_notBusy hb rfl
  · rw [BitVec.ofNat_toNat]
    exact exec_rd_of_notBusy hb rfl
  · exact exec_rd_of_notBusy hb rfl
  · exact exec_rd_of_notBusy hb rfl
  · rcases hr with rfl | rfl | rfl | rfl <;> exact ⟨_, exec_rd_of_busy hb (by decide) rfl⟩

/-! ### Commands (R153 to R156) -/

section
variable {s : State}

theorem exec_cmdReserved_of_notBusy (v : Word) (hb : s.busy = false) :
    exec (.cmdReserved v) s = .refused (.reservedCommand v) := whenNotBusy_of hb

theorem exec_decodeCmd_busy (v : Word) (hb : s.busy = true) :
    exec (decodeCmd v) s = .refused .writeWhileBusy := by
  rcases decodeCmd_cases v with ⟨-, h⟩ | ⟨-, h⟩ | ⟨-, -, h⟩ <;> rw [h]
  · exact whenCommandLegal_busy hb
  · exact whenCommandLegal_busy hb
  · exact whenNotBusy_busy hb

theorem exec_wr_busy (r : Nat) (v : Word) (hb : s.busy = true) :
    exec (.wr r v) s = .refused .writeWhileBusy := whenNotBusy_busy hb

/-- A write to register 0 is the operation that its word decodes to (R151). -/
theorem exec_wr_cmd (s : State) (v : Word) : exec (.wr 0 v) s = exec (decodeCmd v) s := by
  cases hb : s.busy with
  | true => rw [exec_wr_busy 0 v hb, exec_decodeCmd_busy v hb]
  | false =>
    rcases decodeCmd_cases v with ⟨-, h⟩ | ⟨-, h⟩ | ⟨-, -, h⟩
    · simp only [exec, execWr, whenNotBusy_of hb, h, execEncode]
    · simp only [exec, execWr, whenNotBusy_of hb, h, execDecode]
    · simp only [exec, execWr, whenNotBusy_of hb, h, execCmdReserved]

/-- A command is refused exactly where it is not accepted. -/
theorem whenCommandLegal_refused_iff {body : State} :
    (∃ r, whenCommandLegal s body = .refused r) ↔ ¬ CommandLegal s := by
  constructor
  · rintro ⟨r, hr⟩ h
    rw [whenCommandLegal_of h.notBusy h.maxsize h.input] at hr
    cases hr
  · intro h
    unfold whenCommandLegal
    split_ifs with hb hm hi
    · exact ⟨_, rfl⟩
    · exact ⟨_, rfl⟩
    · exact ⟨_, rfl⟩
    · exact absurd ⟨by simpa using hb, by simpa using hm, by simpa using hi⟩ h

end

theorem raiseOp_statusWord (e : ErrKind) (c : Cause) (s : State) :
    (raiseOp e c s).statusWord = statusOf .fail e c := rfl

/-- `DECODE` changes no other fields than these, whether the run starts or fails (R130, R154). -/
theorem decInitOp_clearStatus_frame (s : State) :
    ∃ t, decInitOp (clearStatus s) = t ∧ t = { s with
      err := t.err, cause := t.cause, olen := 0, ent := t.ent, w := t.w, iptr := t.iptr, out := t.out,
      phase := t.phase, epoch := t.epoch } := by
  rcases decInitOp_cases (clearStatus s) with ⟨-, h⟩ | ⟨-, h⟩ | ⟨-, -, h⟩ <;> exact ⟨_, h, rfl⟩

/-- Settles O30: the command is `ENC.INIT` on the cleared status, and register 0 decodes 1 to it. -/
theorem encodeCommandStartsARun : Obligations.EncodeCommandStartsARun := by
  unfold Obligations.EncodeCommandStartsARun
  intro s h
  have hstatus : (encInitOp (clearStatus s)).statusWord = 1 :=
    show statusOf .enc .none .none = 1 by decide
  exact ⟨_, exec_encode h, (exec_wr_cmd s 1).trans (exec_encode h), rfl, seedEntries_length,
    fun _ hi => seedEntries_getElem? hi, hstatus⟩

/-- Settles O31: the command is `DEC.INIT` on the cleared status, in each of its three cases. -/
theorem decodeCommandStartsOrFails : Obligations.DecodeCommandStartsOrFails := by
  unfold Obligations.DecodeCommandStartsOrFails
  intro s h
  obtain ⟨t, ht, hframe⟩ := decInitOp_clearStatus_frame s
  have hexec : exec .decode s = .next t := (exec_decode h).trans (congrArg _ ht)
  refine ⟨t, hexec, (exec_wr_cmd s 2).trans hexec, fun hzero => ?_, fun hodd => ?_, fun hpos heven => ?_,
    hframe⟩ <;> rw [← ht]
  · rw [decInitOp_of_empty (s := clearStatus s) hzero, raiseOp_statusWord]
    exact ⟨by decide, rfl, rfl, rfl, rfl⟩
  · rw [decInitOp_of_odd (s := clearStatus s) hodd, raiseOp_statusWord]
    exact ⟨by decide, rfl, rfl, rfl, rfl⟩
  · rw [decInitOp_of_even (s := clearStatus s) hpos heven]
    have hstatus : (startRun .dec0 (clearStatus s)).statusWord = 1 :=
      show statusOf .dec0 .none .none = 1 by decide
    exact ⟨hstatus, rfl, seedEntries_length, fun _ hi => seedEntries_getElem? hi, rfl, rfl, rfl⟩

/-- Settles O32: a reserved word is refused in every state, a command where it is not accepted. -/
theorem commandsWithoutMeaningAreRefused : Obligations.CommandsWithoutMeaningAreRefused := by
  unfold Obligations.CommandsWithoutMeaningAreRefused
  refine ⟨fun s v => ⟨exec_cmdReserved_of_notBusy v, whenNotBusy_busy⟩, fun s v h1 h2 => ⟨fun hb => ?_, ?_⟩,
    fun s => ⟨whenCommandLegal_refused_iff, whenCommandLegal_refused_iff⟩⟩
  · rw [exec_wr_cmd, decodeCmd_reserved h1 h2]
    exact exec_cmdReserved_of_notBusy v hb
  · exact exec_wr_busy 0 v

/-! ### Register writes (R151) -/

section
variable {s : State}

theorem exec_wr_ilen (v : Word) (hb : s.busy = false) : exec (.wr 3 v) s = .next { s with ilen := v } :=
  whenNotBusy_of hb

theorem exec_wr_maxsize (v : Word) (hb : s.busy = false) : exec (.wr 2 v) s =
    if maxsizeOk v then .next { s with maxsize := v.setWidth 17 } else .refused (.reservedBits v) :=
  whenNotBusy_of hb

theorem exec_wr_reserved {r : Nat} (v : Word) (hb : s.busy = false) (hr : 5 ≤ r) :
    exec (.wr r v) s = .refused (.reservedRegister r) := by
  obtain ⟨k, rfl⟩ := Nat.exists_eq_add_of_le' hr
  exact whenNotBusy_of hb

end

/-- `MAXSIZE` takes any 17-bit value as it is (R25). -/
theorem setWidth17_toNat {v : Word} (h : v.toNat < 2 ^ 17) : (v.setWidth 17).toNat = v.toNat := by
  rw [BitVec.toNat_setWidth, Nat.mod_eq_of_lt h]

/-- Settles O35, by whether a run is in progress and then by the register. -/
theorem registerWritesStoreOrAreIgnored : Obligations.RegisterWritesStoreOrAreIgnored := by
  unfold Obligations.RegisterWritesStoreOrAreIgnored
  refine ⟨fun s r v => exec_wr_busy r v, exec_wr_cmd, fun s v hb => ⟨whenNotBusy_of hb, exec_wr_ilen v hb,
    whenNotBusy_of hb, fun hlow => ?_, fun hhigh => ?_, fun r => exec_wr_reserved v hb⟩⟩
  · have hok : maxsizeOk v = true := decide_eq_true hlow
    rw [exec_wr_maxsize v hb, if_pos hok]
    exact ⟨_, rfl, rfl, setWidth17_toNat hlow⟩
  · have hbad : ¬ maxsizeOk v = true := by simpa [maxsizeOk] using hhigh
    rw [exec_wr_maxsize v hb, if_neg hbad]

/-! ### Buffer accesses (R152) -/

theorem memRead_one (s : State) (sp : Space) (a : Nat) : s.memRead sp a 1 = [s.bufferByte sp a] :=
  memRead_eq_map s sp a 1

theorem memRead_obuf_from_zero (s : State) (n : Nat) :
    s.memRead .obuf 0 n = (List.range n).map s.obufByte := by
  simp [State.memRead]

section
variable {s : State}

theorem loadInput_of_within {a : Nat} {bs : Bytes} (hb : s.busy = false)
    (hc : withinCap s.params.ibufCap (a + bs.length) = true) :
    loadInput a bs s = .next (s.memWrite .ibuf a bs) := by
  rw [loadInput, whenNotBusy_of hb, if_pos hc]

theorem loadInput_beyond {a : Nat} {bs : Bytes} (hb : s.busy = false)
    (hc : withinCap s.params.ibufCap (a + bs.length) = false) :
    loadInput a bs s = .fault (.noSuchOffset .ibuf (a + bs.length - 1)) := by
  rw [loadInput, whenNotBusy_of hb, if_neg (Bool.eq_false_iff.1 hc)]

theorem exec_rdout_olen (hb : s.busy = false) (hc : withinCap s.params.obufCap s.olen.toNat = true) :
    exec (.rdout .olen) s = .next (reply (.bytes s.output) s) := by
  have hc' : withinCap s.params.obufCap (0 + s.olen.toNat) = true := by rwa [Nat.zero_add]
  exact (readOutput_notBusy hb).trans (readBuffer_notBusy hc' hb)

/-- A read of one byte while no run is in progress. -/
theorem readBuffer_one_notBusy {sp : Space} {cap : Option Nat} {a : Nat} (h : withinCap cap (a + 1) = true)
    (hb : s.busy = false) : readBuffer sp cap a 1 s = .next (reply (.bytes [s.bufferByte sp a]) s) := by
  rw [readBuffer_notBusy h hb, memRead_one]

/-- A read during a run returns as many bytes as were asked for, and moves the counter of such reads on. -/
theorem readBuffer_busy_bytes {sp : Space} {cap : Option Nat} {a n : Nat}
    (h : withinCap cap (a + n) = true) (hb : s.busy = true) : ∃ bs : Bytes, bs.length = n ∧
      readBuffer sp cap a n s =
        .next { s with replies := s.replies ++ [.bytes bs], busyReads := s.busyReads + 1 } := by
  obtain ⟨bs, hlen, hbs⟩ := busyBytesReply_eq n s
  exact ⟨bs, hlen, (readBuffer_busy h hb).trans (congrArg _ hbs)⟩

theorem readBuffer_one_busy {sp : Space} {cap : Option Nat} {a : Nat} (h : withinCap cap (a + 1) = true)
    (hb : s.busy = true) : ∃ b : Byte, readBuffer sp cap a 1 s =
      .next { s with replies := s.replies ++ [.bytes [b]], busyReads := s.busyReads + 1 } := by
  obtain ⟨bs, hlen, hbs⟩ := readBuffer_busy_bytes (sp := sp) h hb
  obtain ⟨b, rfl⟩ := List.length_eq_one_iff.1 hlen
  exact ⟨b, hbs⟩

end

/-- Settles O36: both forms load bytes from an offset on, which is `MemWrite` where the offsets exist. -/
theorem ldinStoresItsBytesOnly : Obligations.LdinStoresItsBytesOnly := by
  unfold Obligations.LdinStoresItsBytesOnly
  intro s off bs f hb hf
  have hload : exec (.ldin f) s = loadInput off bs s := by
    rcases hf with ⟨rfl, rfl⟩ | ⟨b, rfl, rfl⟩ <;> rfl
  rw [hload]
  constructor
  · intro hc
    exact ⟨s.memWrite .ibuf off bs, loadInput_of_within hb hc, rfl,
      fun _ hi => ibufByte_memWrite_inside s off bs hi, fun _ ha => ibufByte_memWrite_outside s off bs ha,
      Memory.writeBytes_wf bs s.ibuf off⟩
  · intro hc
    exact ⟨_, loadInput_beyond hb hc⟩

/-- Settles O37: every form is a read of a buffer from an offset on; only `RDOUT OLEN` has a case of its own while a run
is in progress. -/
theorem rdoutReturnsTheBytes : Obligations.RdoutReturnsTheBytes := by
  unfold Obligations.RdoutReturnsTheBytes
  intro s
  refine ⟨fun hb => ⟨fun n hc => ?_, exec_rdout_olen hb, fun a hc => readBuffer_one_notBusy hc hb,
      fun a hc => readBuffer_one_notBusy hc hb⟩,
    fun hb => ⟨fun n hc => ?_, ?_, fun a hc => readBuffer_one_busy hc hb,
      fun a hc => readBuffer_one_busy hc hb⟩,
    fun n hc => ?_, fun hb hc => ?_, fun a hc => readBuffer_beyond hc, fun a hc => readBuffer_beyond hc⟩
  · rw [← memRead_obuf_from_zero]
    exact readBuffer_notBusy (by rwa [Nat.zero_add]) hb
  · exact readBuffer_busy_bytes (by rwa [Nat.zero_add]) hb
  · obtain ⟨bs, -, hbs⟩ := busyBytesReply_eq (Config.freeBusyWord s.busyReads).toNat s
    exact ⟨bs, (readOutput_busy hb).trans (congrArg _ hbs)⟩
  · exact ⟨_, readBuffer_beyond (by rwa [Nat.zero_add])⟩
  · exact ⟨_, (readOutput_notBusy hb).trans (readBuffer_beyond (by rwa [Nat.zero_add]))⟩

end Sys2Proof.Machine
end

section
/-! PROOFS. The two agents during a run (44_host_interface.md R157, R158): the host cannot disturb the sequencer, and the
sequencer is never stuck but at an output that cannot be delivered. -/

namespace Sys2Proof.Machine

/-- During a run a host's move is a read or a script line's expansion: everything else it can do waits for the end. -/
theorem HostEffect.frame_of_busy {s t : State} (h : HostEffect s t) (hb : s.busy = true) :
    t = { s with script := t.script, replies := t.replies, busyReads := t.busyReads } := by
  cases h with
  | record => rfl
  | setMaxsize hb' | setIlen hb' | load hb' | encode hb' | decode hb' => rw [hb] at hb'; cases hb'

/-- Settles O48: of the host's effects only its own record is left to it. -/
theorem hostCannotDisturbARun : Obligations.HostCannotDisturbARun := by
  unfold Obligations.HostCannotDisturbARun
  intro s t hb h
  obtain ⟨ops, he⟩ := hostMove_next h
  exact he.frame_of_busy hb

/-! ### The next step of a run -/

/-- The pending match of an encode run is an entry whenever its code is due (R123 (b)). -/
theorem EncInv.match_found {s : State} (h : EncInv s) (hne : s.w ≠ []) : ∃ c, s.find s.w = some c :=
  Option.isSome_iff_exists.1 (h.matched hne)

theorem EncInv.match_nonempty_of_miss {s : State} (h : EncInv s) (hd : DictInv s.maxsize.toNat s.ent)
    (hf : s.find (s.w ++ [s.inByte]) = none) : s.w ≠ [] :=
  fun hw => (h.iptr_pos_of_miss hd hf).ne' (h.emptyIff.1 hw)

/-- Each byte of the input enables one of the three rows of R111 that consume it. -/
theorem EncInv.byte_effect {s : State} (h : EncInv s) (hp : s.phase = .enc)
    (hd : DictInv s.maxsize.toNat s.ent) (hi : s.iptr < s.ilen.toNat) : ∃ t, SeqEffect s t := by
  cases hf : s.find (s.w ++ [s.inByte]) with
  | some i => exact ⟨_, .extend hp hi (Option.isSome_of_eq_some hf)⟩
  | none =>
    obtain ⟨c, hc⟩ := h.match_found (h.match_nonempty_of_miss hd hf)
    rcases Nat.lt_or_ge s.dlen s.maxsize.toNat with hroom | hfull
    · exact ⟨_, .emitIns hp hi c hf hc hroom⟩
    · exact ⟨_, .emitFrz hp hi c hf hc hfull⟩

/-- The first code enables a row of R131, whatever it is. -/
theorem dec0_effect {s : State} (hp : s.phase = .dec0) : ∃ t, SeqEffect s t := by
  rcases Nat.lt_or_ge s.inCode.toNat s.dlen with hk | hk
  · exact ⟨_, .first hp hk _ (List.getElem?_eq_getElem hk)⟩
  · exact ⟨_, .badFirst hp hk⟩

/-- So does each later code: no entry is empty and neither is the match, so `DEC.TAIL` has a first byte to insert. -/
theorem DecInv.code_effect {s : State} (h : DecInv s) (hp : s.phase = .dec)
    (hd : DictInv s.maxsize.toNat s.ent) (hi : s.iptr < s.ilen.toNat) : ∃ t, SeqEffect s t := by
  rcases Nat.lt_trichotomy s.inCode.toNat s.dlen with hk | hk | hk
  · have he : s.entry s.inCode.toNat = some s.ent[s.inCode.toNat] := List.getElem?_eq_getElem hk
    obtain ⟨b, bs, hcons⟩ := List.exists_cons_of_ne_nil (hd.nonempty _ (List.getElem_mem hk))
    exact ⟨_, .known hp hi hk b bs (hcons ▸ he)⟩
  · obtain ⟨b, bs, hw⟩ := List.exists_cons_of_ne_nil h.matchNonempty
    exact ⟨_, .next hp hi hk b bs hw⟩
  · exact ⟨_, .bad hp hi hk⟩

/-- A closing step is enabled, or its output cannot be delivered. -/
theorem closing_effect {s u : State} {i : Instr} (hs : seqSelect s = some i) (hexec : exec i s = commit u) :
    (∃ t, sequencerMove s = .next t) ∨
      sequencerMove s = .refused .outputBeyondCapacity ∧ u.canDeliver u.out = false := by
  rw [sequencerMove_of_seqSelect hs, hexec]
  rcases commit_cases u with ⟨-, hc⟩ | ⟨hfits, hc⟩
  · exact .inl ⟨_, hc⟩
  · exact .inr ⟨hc, hfits⟩

/-- Settles O46, by the phase and by whether input is left: a step that reads is always enabled, and a closing step
unless it is refused its commit. -/
theorem busySequencerAlwaysSteps : Obligations.BusySequencerAlwaysSteps := by
  unfold Obligations.BusySequencerAlwaysSteps
  intro s h hb
  have hd := h.dict hb
  have enabled (he : ∃ t, SeqEffect s t) : ∃ t, sequencerMove s = .next t :=
    he.imp fun _ he => he.sequencerMove_eq
  cases hp : s.phase with
  | idle | done | fail => exact absurd hp (phase_ne_of_busy hb rfl)
  | enc =>
    have hr := h.encRun hp
    rcases hr.ptr.lt_or_eq with hi | hi
    · exact .inl (enabled (hr.byte_effect hp hd hi))
    · by_cases hw : s.w = []
      · have hs := seqSelect_encEnd0 hp hi hw
        exact (closing_effect hs (exec_encEnd0 hs)).imp_right fun ⟨hmove, hout⟩ =>
          ⟨hi, hmove, .inr ⟨.inl ⟨rfl, hw⟩, hout⟩⟩
      · obtain ⟨c, hc⟩ := hr.match_found hw
        have hs := seqSelect_encFlush hp hi hw (hr.matched hw)
        exact (closing_effect hs (exec_encFlush hs hc)).imp_right fun ⟨hmove, hout⟩ =>
          ⟨hi, hmove, .inl ⟨rfl, hw, c, hc, hout⟩⟩
  | dec0 => exact .inl (enabled (dec0_effect hp))
  | dec =>
    have hr := h.decRun hp
    rcases hr.ptr.lt_or_eq with hi | hi
    · exact .inl (enabled (hr.code_effect hp hd hi))
    · have hs := seqSelect_decEnd hp hi
      exact (closing_effect hs (exec_decEnd hs)).imp_right fun ⟨hmove, hout⟩ =>
        ⟨hi, hmove, .inr ⟨.inr rfl, hout⟩⟩

end Sys2Proof.Machine
end

section
/-! PROOFS. The script lines `encode(b)` and `decode(b)` of a machine left to itself (44_host_interface.md R159,
30_encoding.md R83): the host loads the input and gives the command, the sequencer runs to the end, and the host
collects the result. -/

namespace Sys2Proof.Machine

/-! ### The host's lines -/

/-- With no turn listed and no run in progress, the first line of the script is the machine's step (log 7). -/
theorem run_line {s t u : State} {op : HostOp} {ops : List HostOp} {n : Nat} (ht : s.turns = [])
    (hb : s.busy = false) (hs : s.script = op :: ops)
    (he : exec (decodeHostOp op) { s with script := ops } = .next t)
    (hrun : Host.Core.run Sys2Proof.core n t = .next u) : Host.Core.run Sys2Proof.core (n + 1) s = .next u := by
  have hstep : step s = .next t := by rw [step_of_noTurn_notBusy ht hb, hostMove_of_line hs, he]
  rw [run_succ n hstep, hrun]

/-- The lines with which the host collects a result: the end of R83's expansion. -/
def resultLines : List HostOp := [.wait, .rd 1, .rd 4, .rdout .olen]

/-- The state after `LDIN b` and `WR ILEN, |b|`, with the lines `ops` to come. -/
def State.loadedWith (s : State) (b : Bytes) (ops : List HostOp) : State :=
  { s.memWrite .ibuf 0 b with ilen := BitVec.ofNat 32 b.length, script := ops }

section
variable {s : State} {b : Bytes} {ops : List HostOp}

theorem loadedWith_ilen_toNat (hlen : b.length < 2 ^ 32) : (s.loadedWith b ops).ilen.toNat = b.length := by
  rw [State.loadedWith, BitVec.toNat_ofNat, Nat.mod_eq_of_lt hlen]

/-- The loaded bytes are the run's input (R14, R26). -/
theorem loadedWith_input (hlen : b.length < 2 ^ 32) : (s.loadedWith b ops).input = b := by
  rw [State.input, loadedWith_ilen_toNat hlen]
  exact memRead_memWrite_same s .ibuf 0 b nofun

theorem run_loadLines (ht : s.turns = []) (hb : s.busy = false)
    (hs : s.script = .ldin (.block b) :: .wr 3 (BitVec.ofNat 32 b.length) :: ops)
    (hc : withinCap s.params.ibufCap b.length = true) :
    Host.Core.run Sys2Proof.core 2 s = .next (s.loadedWith b ops) := by
  have hc' : withinCap s.params.ibufCap (0 + b.length) = true := by rwa [Nat.zero_add]
  refine run_line ht hb hs (loadInput_of_within hb hc') ?_
  exact run_line ht hb rfl (exec_wr_ilen (BitVec.ofNat 32 b.length) hb) rfl

theorem exec_wait_of_notBusy (hb : s.busy = false) :
    exec .wait s = .next (reply (.word 1 s.statusWord) s) := by
  simp [exec, execWait, reply, hb]

end

/-- `s` with the lines `ops` to come, when the host has received `rs` since. -/
def State.received (s : State) (ops : List HostOp) (rs : List Reply) : State :=
  { s with script := ops, replies := s.replies ++ rs }

theorem received_nil (s : State) : s.received s.script [] = s := by simp [State.received]

/-- A line that reads something takes itself off the script and adds to what the host has received. -/
theorem run_readingLine {s u : State} {op : HostOp} {ops : List HostOp} {rs : List Reply} {n : Nat} (x : Reply)
    (ht : s.turns = []) (hb : s.busy = false)
    (he : exec (decodeHostOp op) (s.received ops rs) = .next (reply x (s.received ops rs)))
    (hrun : Host.Core.run Sys2Proof.core n (s.received ops (rs ++ [x])) = .next u) :
    Host.Core.run Sys2Proof.core (n + 1) (s.received (op :: ops) rs) = .next u := by
  have hreply : reply x (s.received ops rs) = s.received ops (rs ++ [x]) := by
    simp [State.received, reply]
  rw [hreply] at he
  exact run_line ht hb rfl he hrun

/-- What the four result lines return: `STATUS` twice, the length and the output. -/
def State.resultReplies (s : State) : List Reply :=
  [.word 1 s.statusWord, .word 1 s.statusWord, .word 4 s.olen, .bytes s.output]

theorem run_resultLines {s : State} {ops : List HostOp} (ht : s.turns = []) (hb : s.busy = false)
    (hs : s.script = resultLines ++ ops) (hc : withinCap s.params.obufCap s.olen.toNat = true) :
    Host.Core.run Sys2Proof.core 4 s = .next (s.received ops s.resultReplies) := by
  conv_lhs => rw [← received_nil s, hs]
  refine run_readingLine (.word 1 s.statusWord) ht hb (exec_wait_of_notBusy hb) ?_
  refine run_readingLine (.word 1 s.statusWord) ht hb (exec_rd_status _) ?_
  refine run_readingLine (.word 4 s.olen) ht hb (exec_rd_of_notBusy hb rfl) ?_
  exact run_readingLine (.bytes s.output) ht hb (exec_rdout_olen hb hc) rfl

/-! ### The run between the command and the result lines -/

/-- The command word `cmd`, and then the sequencer alone, take the block from `s` to `t`. -/
def CommandLeadsTo (cmd : Word) (s t : State) : Prop :=
  ∃ (u : State) (n : Nat), exec (decodeCmd cmd) s = .next u ∧ Host.Core.run Sys2Proof.core n u = .next t ∧
    SameHostSide s t

/-- A run has ended with the output `out`, and `STATUS` says so (R17, R29, R66). -/
structure Delivers (t : State) (out : Bytes) : Prop where
  phase : t.phase = .done
  result : t.result = some (.none, BitVec.ofNat 32 out.length, out)
  status : t.statusWord = 2

/-- The start of a run touches nothing of the host's (R110, R130). -/
theorem sameHostSide_startRun (p : Phase) (s : State) : SameHostSide s (startRun p (clearStatus s)) :=
  ⟨rfl, rfl, rfl, rfl, rfl, rfl, rfl, rfl⟩

theorem sameHostSide_decInitOp (s : State) : SameHostSide s (decInitOp (clearStatus s)) := by
  rcases decInitOp_cases (clearStatus s) with ⟨-, h⟩ | ⟨-, h⟩ | ⟨-, -, h⟩ <;> rw [h]
  · exact ⟨rfl, rfl, rfl, rfl, rfl, rfl, rfl, rfl⟩
  · exact ⟨rfl, rfl, rfl, rfl, rfl, rfl, rfl, rfl⟩
  · exact sameHostSide_startRun .dec0 s

section
variable {s : State} {out : Bytes}

theorem encode_leadsTo_delivery (h : CommandLegal s) (ht : s.turns = [])
    (hfn : encodeFn s.maxsize.toNat s.input = some out) (hd : s.canDeliver out = true) :
    ∃ t, CommandLeadsTo 1 s t ∧ Delivers t out := by
  obtain ⟨t, hrun, hside, hdone, hresult, hstatus⟩ := (encodesTo_encInitOp hfn).run_to_done ht rfl hd
  have hside := (sameHostSide_startRun .enc s).trans hside
  exact ⟨t, ⟨_, _, exec_encode h, hrun, hside⟩, hdone, hresult, hstatus⟩

theorem decode_leadsTo_delivery (h : CommandLegal s) (ht : s.turns = [])
    (hfn : decodeFn s.maxsize.toNat s.input = some out) (hd : s.canDeliver out = true) :
    ∃ t, CommandLeadsTo 2 s t ∧ Delivers t out := by
  obtain ⟨hpos, heven⟩ := length_of_decodeFn_some hfn
  rw [input_length] at hpos heven
  have hinit := decInitOp_of_even (s := clearStatus s) hpos heven
  obtain ⟨t, hrun, hside, hdone, hresult, hstatus⟩ :=
    (decodeStarts_startRun hpos heven).run_to_done ht hfn hd
  have hside := (sameHostSide_startRun .dec0 s).trans hside
  exact ⟨t, ⟨_, _, (exec_decode h).trans (congrArg _ hinit), hrun, hside⟩, hdone, hresult, hstatus⟩

theorem decode_leadsTo_failure (h : CommandLegal s) (ht : s.turns = [])
    (hfn : decodeFn s.maxsize.toNat s.input = none) :
    ∃ c u, CommandLeadsTo 2 s (raiseOp .decompression c u) := by
  obtain ⟨t, n, -, hrun, hside, c, u, rfl⟩ := failsWithin_decInitOp ht hfn
  exact ⟨c, u, _, n, exec_decode h, hrun, (sameHostSide_decInitOp s).trans hside⟩

end

/-! ### The whole line -/

/-- No run is in progress, no turn is listed, and the script starts with a line that expands to the command `cmd` on the
input `b`, which fits `IBUF` and the register `ILEN`. -/
structure PseudoLine (s : State) (cmd : Word) (b : Bytes) (rest : List HostOp) : Prop where
  notBusy : s.busy = false
  maxsize : s.maxsizeLegal = true
  turns : s.turns = []
  line : ∃ op, s.script = op :: rest ∧ ∀ u, exec (decodeHostOp op) u = expandScript cmd b u
  length : b.length < 2 ^ 32
  fits : withinCap s.params.ibufCap b.length = true

namespace PseudoLine

variable {s : State} {cmd : Word} {b : Bytes} {rest : List HostOp}

theorem commandLegal (h : PseudoLine s cmd b rest) (ops : List HostOp) :
    CommandLegal (s.loadedWith b ops) where
  notBusy := h.notBusy
  maxsize := h.maxsize
  input := by rw [loadedWith_ilen_toNat h.length]; exact h.fits

/-- The first three steps expand the line and load the input; the fourth is the command. -/
theorem run_command (h : PseudoLine s cmd b rest) {u : State}
    (hu : exec (decodeCmd cmd) (s.loadedWith b (resultLines ++ rest)) = .next u) :
    Host.Core.run Sys2Proof.core 4 s = .next u := by
  obtain ⟨op, hs, hop⟩ := h.line
  have hexpand := (hop { s with script := rest }).trans (expandScript_of _ (lengthOk_iff.2 h.length))
  have hload := run_loadLines (s := { s with script := expansion cmd b ++ rest }) h.turns h.notBusy rfl h.fits
  have hloaded : Host.Core.run Sys2Proof.core 3 s = _ := run_line h.turns h.notBusy hs hexpand hload
  rw [run_add 3 1 hloaded]
  exact run_line h.turns h.notBusy rfl hu rfl

/-- Where the command leads to, the host collects the result. -/
theorem run_to_end (h : PseudoLine s cmd b rest) {t : State}
    (hcmd : CommandLeadsTo cmd (s.loadedWith b (resultLines ++ rest)) t) (hb : t.busy = false)
    (hc : withinCap s.params.obufCap t.olen.toNat = true) :
    ∃ (n : Nat) (v : State), Host.Core.run Sys2Proof.core n s = .next v ∧ v.phase = t.phase ∧
      v.err = t.err ∧ v.script = rest ∧ v.replies = s.replies ++ t.resultReplies := by
  obtain ⟨u, n, hu, hrun, hside⟩ := hcmd
  have hlines := run_resultLines (hside.turns.trans h.turns) hb hside.script (by rw [hside.params]; exact hc)
  rw [← run_add n 4 hrun, ← run_add 4 (n + 4) (h.run_command hu)] at hlines
  exact ⟨_, _, hlines, rfl, rfl, rfl, congrArg (· ++ t.resultReplies) hside.replies⟩

end PseudoLine

/-- The parts of a run's result (R17). -/
theorem fields_of_result {s : State} {e : ErrKind} {l : Word} {o : Bytes} (h : s.result = some (e, l, o)) :
    s.err = e ∧ s.olen = l ∧ s.output = o := by
  unfold State.result at h
  split at h
  · cases h; exact ⟨rfl, rfl, rfl⟩
  · cases h

theorem withinCap_of_canDeliver {s : State} {out : Bytes} (h : s.canDeliver out = true) :
    withinCap s.params.obufCap (BitVec.ofNat 32 out.length).toNat = true := by
  rw [BitVec.toNat_ofNat, Nat.mod_eq_of_lt (length_lt_of_canDeliver h)]
  exact (Bool.and_eq_true_iff.1 h).1

theorem withinCap_zero (cap : Option Nat) : withinCap cap 0 = true := by
  cases cap with
  | none => rfl
  | some c => exact decide_eq_true (Nat.zero_le c)

/-- A line whose command leads to the delivery of `out`: the host gets `STATUS = 2` twice, the length and the bytes. -/
theorem PseudoLine.returns {s t : State} {cmd : Word} {b out : Bytes} {rest : List HostOp}
    (h : PseudoLine s cmd b rest) (hcmd : CommandLeadsTo cmd (s.loadedWith b (resultLines ++ rest)) t)
    (ht : Delivers t out) (hd : s.canDeliver out = true) :
    ∃ (n : Nat) (v : State), Host.Core.run Sys2Proof.core n s = .next v ∧ v.phase = .done ∧
      v.script = rest ∧ v.replies = s.replies ++
        [.word 1 2, .word 1 2, .word 4 (BitVec.ofNat 32 out.length), .bytes out] := by
  obtain ⟨-, holen, hout⟩ := fields_of_result ht.result
  have hb : t.busy = false := by rw [State.busy, ht.phase]; rfl
  obtain ⟨n, v, hrun, hphase, -, hscript, hreplies⟩ :=
    h.run_to_end hcmd hb (by rw [holen]; exact withinCap_of_canDeliver hd)
  rw [State.resultReplies, ht.status, holen, hout] at hreplies
  exact ⟨n, v, hrun, hphase.trans ht.phase, hscript, hreplies⟩

/-- Settles O57: the line's command leads to the delivery of the encoded input, which the host collects. -/
theorem compressScriptReturnsTheStream : Obligations.CompressScriptReturnsTheStream := by
  unfold Obligations.CompressScriptReturnsTheStream
  intro s b out rest hb hm ht hs hlen hfits hfn hd
  have h : PseudoLine s 1 b rest := ⟨hb, hm, ht, ⟨_, hs, fun _ => rfl⟩, hlen, hfits⟩
  rw [← loadedWith_input (s := s) (ops := resultLines ++ rest) hlen] at hfn
  obtain ⟨t, hcmd, hdelivers⟩ := encode_leadsTo_delivery (h.commandLegal _) ht hfn hd
  exact h.returns hcmd hdelivers hd

/-- The low digits of `STATUS` after a decompression error, whatever the cause (R29, R179). -/
theorem decompressionError_status (c : Cause) (s : State) :
    (raiseOp .decompression c s).statusWord.extractLsb' 0 4 = 0xB#4 := by
  have hw := statusOf_toNat .fail .decompression c
  rw [raiseOp_statusWord]
  refine extractLsb'_eq_ofNat (k := 0xB) ?_
  rw [hw, Phase.stateCode, ErrKind.code]
  omega

/-- Settles O58: the line's command leads to the delivery of the decoded input, or to the fault entry, after which the
host collects the flags and no byte. -/
theorem decompressScriptReturnsBytesOrError : Obligations.DecompressScriptReturnsBytesOrError := by
  unfold Obligations.DecompressScriptReturnsBytesOrError
  intro s b rest hb hm ht hs hlen hfits
  have h : PseudoLine s 2 b rest := ⟨hb, hm, ht, ⟨_, hs, fun _ => rfl⟩, hlen, hfits⟩
  rw [← loadedWith_input (s := s) (ops := resultLines ++ rest) hlen]
  constructor
  · intro out hfn hd
    obtain ⟨t, hcmd, hdelivers⟩ := decode_leadsTo_delivery (h.commandLegal _) ht hfn hd
    exact h.returns hcmd hdelivers hd
  · intro hfn
    obtain ⟨c, u, hcmd⟩ := decode_leadsTo_failure (h.commandLegal _) ht hfn
    obtain ⟨n, v, hrun, hphase, herr, hscript, hreplies⟩ := h.run_to_end hcmd rfl (withinCap_zero _)
    exact ⟨n, v, _, hrun, hphase, herr, hscript, decompressionError_status c u, hreplies⟩

end Sys2Proof.Machine
end

section
/-! PROOFS. How runs end and what stays of them (42_encoder.md R117, R123; 60_exceptions.md R172, R181, R189): an encode
run never takes the fault entry, and what an ended run has left behind stays until a command or a reset. -/

namespace Sys2Proof.Machine

/-! ### Encode runs do not fail -/

/-- What R117 asks of a state that takes the fault entry contradicts R123 (b): a match is pending wherever its code is
due, and a pending match is an entry. -/
theorem EncInv.fault_not_due {s : State} (h : EncInv s) (hd : DictInv s.maxsize.toNat s.ent)
    (hw : s.find s.w = none) :
    ¬ (s.iptr = s.ilen.toNat ∧ s.w ≠ [] ∨ s.iptr < s.ilen.toNat ∧ s.find (s.w ++ [s.inByte]) = none) := by
  intro hdue
  have hne : s.w ≠ [] := by
    rcases hdue with ⟨-, hne⟩ | ⟨-, hf⟩
    · exact hne
    · exact h.match_nonempty_of_miss hd hf
  obtain ⟨c, hc⟩ := h.match_found hne
  rw [hw] at hc
  cases hc

theorem SeqEffect.phase_ne_fail_of_enc {s t : State} (he : SeqEffect s t) (hp : s.phase = .enc)
    (hr : EncInv s) (hd : DictInv s.maxsize.toNat s.ent) : t.phase ≠ .fail := by
  cases he with
  | extend | emitIns | emitFrz => simp [hp]
  | flush | end0 => simp
  | fault _ hw hdue => exact absurd hdue (hr.fault_not_due hd hw)
  | first hp' | badFirst hp' | known hp' | next hp' | bad hp' | decEnd hp' => rw [hp] at hp'; cases hp'

/-- Settles O45: no step of an encode run ends in `FAIL`, so `ERR`, which is set in `FAIL` only, stays clear; and
`ENC.FAULT`, were it selected, would be such a step. -/
theorem compressionErrorIsUnreachable : Obligations.CompressionErrorIsUnreachable := by
  unfold Obligations.CompressionErrorIsUnreachable
  intro s h hp
  have hb : s.busy = true := by rw [State.busy, hp]; rfl
  have hsteps : ∀ t, sequencerMove s = .next t → t.phase ≠ .fail ∧ t.err = .none := by
    intro t hmove
    rcases sequencerMove_next hmove with ⟨-, he⟩ | ⟨hidle, -⟩
    · have hphase := he.phase_ne_fail_of_enc hp (h.encRun hp) (h.dict hb)
      have hstatus := (he.keeps_inv hb h).status
      exact ⟨hphase, not_not.1 (mt hstatus.failIff.2 hphase)⟩
    · rw [hb] at hidle; cases hidle
  refine ⟨fun hs => ?_, hsteps⟩
  have hfault := (sequencerMove_of_seqSelect hs).trans (exec_encFault hs)
  exact (hsteps _ hfault).1 rfl

/-! ### Ended runs stay -/

theorem exec_rd_frame {r : Nat} {s t : State} (h : exec (.rd r) s = .next t) :
    t = { s with replies := t.replies, busyReads := t.busyReads } := by
  simp only [exec, execRd] at h
  split at h
  · cases h
  · split at h <;> cases h <;> rfl

/-- A write to a register other than `CMD` reaches `MAXSIZE` and `ILEN` only (R151). -/
theorem exec_wr_frame {r : Nat} {v : Word} {s t : State} (hr : r ≠ 0) (h : exec (.wr r v) s = .next t) :
    t = { s with maxsize := t.maxsize, ilen := t.ilen } := by
  obtain ⟨-, h⟩ := whenNotBusy_next h
  split at h
  · exact absurd rfl hr
  · cases h; rfl
  · split at h <;> cases h
    rfl
  · cases h; rfl
  · cases h; rfl
  · cases h

theorem exec_ldin_frame {f : LdinForm} {s t : State} (h : exec (.ldin f) s = .next t) :
    t = { s with ibuf := t.ibuf } := by
  cases f with
  | block => obtain ⟨-, -, rfl⟩ := loadInput_next h; rfl
  | byteAt => obtain ⟨-, -, rfl⟩ := loadInput_next h; rfl

theorem exec_rdout_frame {f : RdoutForm} {s t : State} (h : exec (.rdout f) s = .next t) :
    t = { s with replies := t.replies, busyReads := t.busyReads } := by
  cases f with
  | block | outByte | inByte => exact readBuffer_next h
  | olen => exact readOutput_next h

/-- A script line that is no write to `CMD` reaches `MAXSIZE`, `ILEN`, `IBUF` and the host's own record only. -/
theorem execHostOp_frame {op : HostOp} {s t : State} (hop : ∀ v, op ≠ .wr 0 v)
    (h : exec (decodeHostOp op) s = .next t) :
    t = { s with maxsize := t.maxsize, ilen := t.ilen, ibuf := t.ibuf, script := t.script,
                 replies := t.replies, busyReads := t.busyReads } := by
  cases op with
  | rd => rw [exec_rd_frame h]
  | wr r v =>
    have hr : r ≠ 0 := fun h0 => hop v (h0 ▸ rfl)
    rw [decodeHostOp, if_neg hr] at h
    rw [exec_wr_frame hr h]
  | ldin => rw [exec_ldin_frame h]
  | rdout => rw [exec_rdout_frame h]
  | wait => cases h; rfl
  | encodeB => rw [(expandScript_next h).2]
  | decodeB => rw [(expandScript_next h).2]

theorem hostMove_frame {s t : State} (hcmd : ∀ v ops, s.script ≠ .wr 0 v :: ops) (h : hostMove s = .next t) :
    t = { s with maxsize := t.maxsize, ilen := t.ilen, ibuf := t.ibuf, script := t.script,
                 replies := t.replies, busyReads := t.busyReads } := by
  cases hs : s.script with
  | nil =>
    rw [hostMove_of_noScript hs] at h
    cases h
    rfl
  | cons op ops =>
    rw [hostMove_of_line hs] at h
    have hop : ∀ v, op ≠ .wr 0 v := fun v hv => hcmd v ops (hv ▸ hs)
    rw [execHostOp_frame hop h]

/-- While no run is in progress, a step that is no reset is the host's, or takes a turn for nothing. -/
theorem step_next_of_notBusy {s t : State} (hb : s.busy = false) (hreset : ∀ ts, s.turns ≠ .reset :: ts)
    (h : step s = .next t) : ∃ ts, hostMove { s with turns := ts } = .next t ∨ t = { s with turns := ts } := by
  cases hturns : s.turns with
  | nil =>
    rw [step_of_noTurn_notBusy hturns hb] at h
    exact ⟨s.turns, .inl h⟩
  | cons turn ts =>
    cases turn with
    | reset => exact absurd hturns (hreset ts)
    | host =>
      rw [step_of_hostTurn hturns] at h
      exact ⟨ts, .inl h⟩
    | sequencer =>
      rw [step_of_sequencerTurn hturns, sequencerMove_of_notBusy (s := { s with turns := ts }) hb] at h
      cases h
      exact ⟨ts, .inr rfl⟩

/-- While no run is in progress, only a command or a reset changes more of the block than `MAXSIZE`, `ILEN` and
`IBUF`. -/
theorem step_frame_of_notBusy {s t : State} (hb : s.busy = false) (hreset : ∀ ts, s.turns ≠ .reset :: ts)
    (hcmd : ∀ v ops, s.script ≠ .wr 0 v :: ops) (h : step s = .next t) :
    t = { s with maxsize := t.maxsize, ilen := t.ilen, ibuf := t.ibuf, script := t.script,
                 replies := t.replies, turns := t.turns, busyReads := t.busyReads } := by
  obtain ⟨ts, hmove | rfl⟩ := step_next_of_notBusy hb hreset h
  · rw [hostMove_frame (s := { s with turns := ts }) hcmd hmove]
  · rfl

/-- Settles O49: `DONE` and `FAIL` are not busy, and what a step may change there is none of the fields named. -/
theorem endedRunsStayUntilACommand : Obligations.EndedRunsStayUntilACommand := by
  unfold Obligations.EndedRunsStayUntilACommand
  intro s t hended h hreset hcmd
  have hb : s.busy = false := by
    rcases hended with hp | hp <;> rw [State.busy, hp] <;> rfl
  rw [step_frame_of_notBusy hb hreset hcmd h]
  exact ⟨rfl, rfl, rfl, rfl, rfl, fun _ => rfl⟩

end Sys2Proof.Machine
end

section
/-! PROOFS. Reset, host writes during a run, and the empty input (70_reset_and_hazards.md R190, R191, R196, R200). -/

namespace Sys2Proof.Machine

/-! ### Reset (R190, R191) -/

theorem step_of_resetTurn {s : State} {ts : List Turn} (h : s.turns = .reset :: ts) :
    step s = .next (resetOp { s with turns := ts }) := by
  simp [step, move, h]

@[simp] theorem resetOp_statusWord (s : State) : (resetOp s).statusWord = 0 :=
  show statusOf .idle .none .none = 0 by decide

/-- R191: `IDLE` is the phase of no ended run. -/
@[simp] theorem resetOp_result (s : State) : (resetOp s).result = none := by
  simp [State.result]

/-- Settles O13: a reset turn answers `resetOp`, whatever the phase, and its fields are the reset values. -/
theorem resetEndsARunWithoutResult : Obligations.ResetEndsARunWithoutResult := by
  unfold Obligations.ResetEndsARunWithoutResult
  intro s ts hturns
  exact ⟨_, step_of_resetTurn hturns, resetOp_phase _, resetOp_statusWord _, rfl, resetOp_ilen _,
    resetOp_olen _, resetOp_iptr _, resetOp_w _, resetOp_out _, resetOp_result _, resetOp_params _,
    resetOp_script _, resetOp_turns _, resetOp_replies _⟩

/-! ### Writes and commands during a run (R196) -/

theorem exec_ldin_busy {s : State} (f : LdinForm) (hb : s.busy = true) :
    exec (.ldin f) s = .refused .writeWhileBusy := by
  cases f with
  | block | byteAt => exact whenNotBusy_busy hb

/-- Settles O40: writes and commands alike ask for `STATE ≠ BUSY` before anything else. -/
theorem writesWhileBusyAreRefused : Obligations.WritesWhileBusyAreRefused := by
  unfold Obligations.WritesWhileBusyAreRefused
  intro s hb
  exact ⟨fun r v => exec_wr_busy r v hb, fun f => exec_ldin_busy f hb, whenCommandLegal_busy hb,
    whenCommandLegal_busy hb, fun _ => whenNotBusy_busy hb⟩

/-! ### The empty input (R200) -/

/-- With no input left and no match pending the recursion ends, and puts no code (R119). -/
theorem encodeLoop_nil_of_noMatch (m : Nat) (D : List Bytes) (out : Bytes) :
    encodeLoop m D [] out [] = some out := by
  simp [encodeLoop]

theorem encodeFn_empty (m : Nat) : encodeFn m [] = some [] := encodeLoop_nil_of_noMatch m seedEntries []

/-- Settles O55: the encoder's empty stream has the length 0, which R130 rejects. -/
theorem emptyInputDoesNotRoundTrip : Obligations.EmptyInputDoesNotRoundTrip := by
  unfold Obligations.EmptyInputDoesNotRoundTrip
  intro m
  exact ⟨encodeFn_empty m, decodeFn_of_badLength (.inl rfl)⟩

end Sys2Proof.Machine
end
